-- ==== Sys2Proof/Word.lean ====
section
/-! DEFINITION. The word types of the WFP-PLC core: samples, command words, the parameters of a
floating-point format, and the 13-bit word in which the model hands a micro-operation to the sequencer. -/

namespace Sys2Proof

/-- One `int16` sample, a 16-bit two's-complement integer (R10, 00_scope.md). -/
abbrev Sample := BitVec 16

/-- A block of samples, earliest sample first (R72, 30_encoding.md). A frame has 80 of them. -/
abbrev Block := List Sample

/-- A frame bus: 80 lanes of 16 bits, sample `i` in bits 16i+15..16i (R52, 20_memory.md; R72, 30_encoding.md). -/
abbrev FrameBus := BitVec 1280

/-- The one command word `(cmd_frame, cmd_op)` of format CMD, 1282 bits (R74, 30_encoding.md). -/
abbrev CommandWord := BitVec 1282

/-- A micro-operation as the sequencer holds it: `phase` in bits 3..0 (R78, 30_encoding.md) and its operands
in bits 12..4. The layout of the operand bits is the model's: DESIGN CHOICE, log 11. -/
abbrev MicroWord := BitVec 13

/-- What the decoder is given: a command word from the command port, or a micro-operation word from the
sequencer. The two formats of spec/opcode_table.json (CMD and UOP). -/
inductive CodeWord where
  | command (w : CommandWord)
  | micro (w : MicroWord)
deriving DecidableEq, Repr

/-- A binary floating-point format of IEEE 754: the numbers of exponent and fraction bits. -/
structure FpFormat where
  expBits : Nat
  fracBits : Nat
deriving DecidableEq, Repr

/-- Sign, exponent and fraction bits together. -/
abbrev FpFormat.width (F : FpFormat) : Nat := 1 + F.expBits + F.fracBits

/-- The floating-point operations that can produce a NaN (R12, 00_scope.md). -/
inductive FpOp where
  | add | sub | mul | div | sqrt
deriving DecidableEq, Repr

end Sys2Proof
end

