-- ==== Sys2Proof/Config.lean ====
section
/-! DEFINITION. What is fixed for this hardware: the integer constants (R6); the parameters the spec leaves to the
implementation (R9), which the model takes as an argument, and their defaults; and the free values, each an opaque
constant that nothing can evaluate. -/

namespace Sys2Proof

namespace Config

/-! ### Integer constants (R6, 00_scope.md) -/

/-- Samples per frame. -/
abbrev frameSz : Nat := 80
/-- Shortest pitch period. -/
abbrev pitchMin : Nat := 40
/-- Longest pitch period. -/
abbrev pitchMax : Nat := 120
/-- The largest candidate lag, `PITCH_MAX - PITCH_MIN`. -/
abbrev pitchDiff : Nat := 80
/-- Largest overlap-add window. -/
abbrev pOverlapMax : Nat := 30
/-- Length of `history` and of `pitch_buffer`. -/
abbrev historyLen : Nat := 390
/-- Decimation step of the coarse search. -/
abbrev nDec : Nat := 2
/-- Correlation window. -/
abbrev corrLen : Nat := 160
/-- Search buffer, `CORRLEN + PITCH_MAX`. -/
abbrev corrBufLen : Nat := 280
/-- Growth of the reconciliation window per extra erased frame. -/
abbrev eOverlapIncr : Nat := 32
/-- A lost frame with `erasure_count` above this is muted. -/
abbrev muteAfter : Nat := 5

end Config

/-! ### Parameters (R9, 00_scope.md; log 4). `T_CMD` is no part of an untimed model (R243). -/

/-- IEEE 754 binary32, the default of `FPFMT` (R9, R10). -/
abbrev FpFormat.binary32 : FpFormat := ⟨8, 23⟩
/-- IEEE 754 binary64, "the other sensible value" of `FPFMT` (D7, 92_eei_decisions.md). -/
abbrev FpFormat.binary64 : FpFormat := ⟨11, 52⟩

/-- What R9 leaves to the implementation, taken as configuration. Every meaning has it as an argument. -/
structure Params where
  /-- `FPFMT`: the working format; at least 16 significand bits (R91). -/
  fpFormat : FpFormat
  /-- `W_EC`: the width of `erasure_count`, at least 3 (R9, R28). -/
  wEC : Nat
  /-- `COARSE_ENTER`: offset of the sample that enters the coarse running energy, 161 or 160 (R114). -/
  coarseEnter : Nat
deriving DecidableEq, Repr

/-- The defaults of R9: binary32, 8 and 161. The machine of the fixed names has them (log 4). -/
abbrev Params.standard : Params := ⟨.binary32, 8, 161⟩

/-- The value at which `erasure_count` saturates, `2^W_EC - 1` (R28, 10_state.md). -/
abbrev Params.countMax (P : Params) : Nat := 2 ^ P.wEC - 1

/-- A value of a floating-point format: its bit pattern. -/
abbrev FpOf (F : FpFormat) := BitVec F.width

/-- A value of the working format `FP` (R10, 00_scope.md). -/
abbrev FP (P : Params := Params.standard) := FpOf P.fpFormat

namespace Config

/-! ### Free values: the spec states no value, and nothing in Lean can evaluate one. -/

/-- The NaN an operation of R12 returns: no rule gives its sign or payload (log 5). -/
opaque freeNaN (F : FpFormat) : FpOp → BitVec F.width → BitVec F.width → BitVec F.width
/-- `trunc` to `int16` in SCALE of a product that is no `int16` (R152 says it does not arise; log 6). -/
opaque freeTrunc (F : FpFormat) : FpOf F → Sample
/-- `fmax` of two values one of which is a NaN: R12 defines it for values that are not NaN only (log 21). -/
opaque freeFmax (F : FpFormat) : FpOf F → FpOf F → FpOf F
/-- The remainder by a `pitch_period` of zero in RESTORE_CURSOR (R11 and R142 say it does not arise; log 14). -/
opaque freeModZero : Nat → Nat
/-- `STATUS.PITCH_PERIOD` when `primed` is 1 and `pitch_period` holds `none` (R33 gives no value; log 15). -/
opaque freeStatusPeriod : BitVec 7

/-! The contents after an `InvariantFault` (R210, 60_exceptions.md; log 9): the first argument is the
model's counter of such faults, the second an element's index. -/

/-- An element of `history` after an `InvariantFault`. -/
opaque freeHistory : Nat → Nat → Sample
/-- An element of `pitch_buffer` after an `InvariantFault`. -/
opaque freePitchBuffer (F : FpFormat) : Nat → Nat → FpOf F
/-- An element of `saved_tail` after an `InvariantFault`. -/
opaque freeSavedTail (F : FpFormat) : Nat → Nat → Option (FpOf F)
/-- `pitch_period` after an `InvariantFault`. -/
opaque freePitchPeriod : Nat → Option (BitVec 7)
/-- `overlap_span` after an `InvariantFault`. -/
opaque freeOverlapSpan : Nat → Option (BitVec 5)
/-- `period_buffer_length` after an `InvariantFault`. -/
opaque freePeriodBufferLength : Nat → Option (BitVec 9)
/-- `pitch_period_start` after an `InvariantFault`. -/
opaque freePitchPeriodStart : Nat → Option (BitVec 9)
/-- `read_cursor` after an `InvariantFault`. -/
opaque freeReadCursor : Nat → Option (BitVec 9)
/-- `primed` after an `InvariantFault`. -/
opaque freePrimed : Nat → Bool
/-- `erasure_count` after an `InvariantFault`: a value of its `W_EC` bits. -/
opaque freeErasureCount (wEC : Nat) : Nat → BitVec wEC

/-! The working registers once a command has answered: none survives (R35, U26 of
93_implementation_defined.md; log 7). -/

/-- An element of `obuf` between commands. -/
opaque freeObuf : Nat → Nat → Sample
/-- An element of `tmp` between commands. -/
opaque freeTmp : Nat → Nat → Sample
/-- An element of `synth` between commands. -/
opaque freeSynth : Nat → Nat → Sample
/-- `save_cursor` between commands. -/
opaque freeSaveCursor : Nat → BitVec 9
/-- `g` between commands. -/
opaque freeGain (F : FpFormat) : Nat → FpOf F
/-- `energy` between commands. -/
opaque freeEnergy (F : FpFormat) : Nat → FpOf F
/-- `corr` between commands. -/
opaque freeCorr (F : FpFormat) : Nat → FpOf F
/-- `score` between commands. -/
opaque freeScore (F : FpFormat) : Nat → FpOf F
/-- `best_score` between commands. -/
opaque freeBestScore (F : FpFormat) : Nat → FpOf F
/-- `best_lag` between commands. -/
opaque freeBestLag : Nat → BitVec 7
/-- `lo` between commands. -/
opaque freeLo : Nat → BitVec 7
/-- `hi` between commands. -/
opaque freeHi : Nat → BitVec 7
/-- `j` between commands. -/
opaque freeJ : Nat → BitVec 7

/-! The response buses while `rsp_valid` is 0 (R73, U24; log 8). -/

/-- A sample of `rsp_frame` while `rsp_valid` is 0. -/
opaque freeRspFrame : Nat → Nat → Sample
/-- A sample of `rsp_raw` while `rsp_valid` is 0. -/
opaque freeRspRaw : Nat → Nat → Sample
/-- `rsp_status` while `rsp_valid` is 0. -/
opaque freeRspStatus : Nat → BitVec 32

end Config

end Sys2Proof
end

