-- ==== Sys2Proof/Machine/Float.lean ====
section
/-! DEFINITION. The arithmetic of `FP`, for any format: IEEE 754 operations on bit patterns, one rounding each, to nearest
with ties to even, gradual underflow, no flush to zero (R10, R12, 00_scope.md). An exact result is held as a
fraction of the format's smallest positive number and narrowed once, at the end. -/

namespace Sys2Proof.Machine

namespace Fp

variable (F : FpFormat)

/-- The exponent bias. -/
def bias : Nat := 2 ^ (F.expBits - 1) - 1

/-- Number of magnitude bits: all but the sign. -/
abbrev magWidth : Nat := F.expBits + F.fracBits

/-- The magnitude bits of infinity; a larger magnitude is a NaN. -/
def infBits : Nat := (2 ^ F.expBits - 1) * 2 ^ F.fracBits

/-- How many times the smallest positive number goes into one. -/
def unit : Nat := 2 ^ (bias F + F.fracBits - 1)

/-- What a bit pattern stands for. `fin neg mag` is the number `mag / unit F`, negated when `neg`. -/
inductive Datum where
  | nan
  | inf (neg : Bool)
  | fin (neg : Bool) (mag : Nat)
deriving DecidableEq, Repr

variable {F}

/-- The sign bit. -/
def signBit (x : BitVec F.width) : Bool := decide (2 ^ magWidth F ≤ x.toNat)

/-- The exponent and fraction bits as one number: they order the magnitudes. -/
def magBits (x : BitVec F.width) : Nat := x.toNat % 2 ^ magWidth F

/-- The size of a finite pattern in units of the smallest positive number. -/
def magnitude (F : FpFormat) (m : Nat) : Nat :=
  if m / 2 ^ F.fracBits = 0 then m
  else (2 ^ F.fracBits + m % 2 ^ F.fracBits) * 2 ^ (m / 2 ^ F.fracBits - 1)

/-- Read a bit pattern. -/
def decode (x : BitVec F.width) : Datum :=
  if infBits F < magBits x then .nan
  else if magBits x = infBits F then .inf (signBit x)
  else .fin (signBit x) (magnitude F (magBits x))

/-- A sign and magnitude bits as one pattern. -/
def pack (F : FpFormat) (neg : Bool) (m : Nat) : BitVec F.width :=
  BitVec.ofNat F.width ((if neg then 2 ^ magWidth F else 0) + m)

/-- The magnitude bits of `p / q` units rounded to nearest, ties to even, with no bound on the exponent.
The exponent counts the binary places beyond the fraction field; adding the rounded significand to it lets a
carry move into the exponent, and a number below the smallest normal one keeps exponent 0. -/
def roundBits (F : FpFormat) (p q : Nat) : Nat :=
  let k := (p / q).log2 - F.fracBits
  let d := q * 2 ^ k
  let m := p / d
  let r := p % d
  k * 2 ^ F.fracBits + m + (if d < 2 * r ∨ (2 * r = d ∧ m % 2 = 1) then 1 else 0)

/-- The number `p / q` units with a sign, rounded once; a magnitude past the largest finite one is an infinity. -/
def ofRatio (F : FpFormat) (neg : Bool) (p q : Nat) : BitVec F.width :=
  pack F neg (min (roundBits F p q) (infBits F))

/-- Is it a NaN. -/
def isNaN (x : BitVec F.width) : Bool := decide (infBits F < magBits x)

/-- Is it a number, not a NaN and not an infinity. -/
def isFinite (x : BitVec F.width) : Bool := decide (magBits x < infBits F)

/-- A NaN whose sign and payload are free (log 5). -/
def someNaN (op : FpOp) (x y : BitVec F.width) : BitVec F.width :=
  if isNaN (Config.freeNaN F op x y) then Config.freeNaN F op x y
  else pack F false (infBits F + 2 ^ (F.fracBits - 1))

/-- The exact sum of two signed magnitudes, rounded once; an exact zero sum of opposite signs is `+0`. -/
def addMagnitudes (F : FpFormat) (sx : Bool) (mx : Nat) (sy : Bool) (my : Nat) : BitVec F.width :=
  if sx = sy then ofRatio F sx (mx + my) 1
  else if mx = my then pack F false 0
  else if my < mx then ofRatio F sx (mx - my) 1
  else ofRatio F sy (my - mx) 1

/-- `x + y`, or `x - y` when `flip`, by IEEE 754. -/
def addWith (op : FpOp) (flip : Bool) (x y : BitVec F.width) : BitVec F.width :=
  match decode x, decode y with
  | .nan, _ => someNaN op x y
  | _, .nan => someNaN op x y
  | .inf sx, .inf sy => if sx = (sy ^^ flip) then pack F sx (infBits F) else someNaN op x y
  | .inf sx, .fin _ _ => pack F sx (infBits F)
  | .fin _ _, .inf sy => pack F (sy ^^ flip) (infBits F)
  | .fin sx mx, .fin sy my => addMagnitudes F sx mx (sy ^^ flip) my

/-- `x + y`. -/
def add (x y : BitVec F.width) : BitVec F.width := addWith .add false x y

/-- `x - y`. -/
def sub (x y : BitVec F.width) : BitVec F.width := addWith .sub true x y

/-- `x * y`. -/
def mul (x y : BitVec F.width) : BitVec F.width :=
  match decode x, decode y with
  | .nan, _ => someNaN .mul x y
  | _, .nan => someNaN .mul x y
  | .inf sx, .inf sy => pack F (sx ^^ sy) (infBits F)
  | .inf sx, .fin sy my => if my = 0 then someNaN .mul x y else pack F (sx ^^ sy) (infBits F)
  | .fin sx mx, .inf sy => if mx = 0 then someNaN .mul x y else pack F (sx ^^ sy) (infBits F)
  | .fin sx mx, .fin sy my => ofRatio F (sx ^^ sy) (mx * my) (unit F)

/-- `x / y`. -/
def div (x y : BitVec F.width) : BitVec F.width :=
  match decode x, decode y with
  | .nan, _ => someNaN .div x y
  | _, .nan => someNaN .div x y
  | .inf _, .inf _ => someNaN .div x y
  | .inf sx, .fin sy _ => pack F (sx ^^ sy) (infBits F)
  | .fin sx _, .inf sy => pack F (sx ^^ sy) 0
  | .fin sx mx, .fin sy my =>
    if my = 0 then
      if mx = 0 then someNaN .div x y else pack F (sx ^^ sy) (infBits F)
    else ofRatio F (sx ^^ sy) (mx * unit F) my

/-- Extend the root `r` of `n` bit by bit: the largest `r' ≥ r` with `r' * r' ≤ n` that differs from `r` in
its lowest `b` bits. -/
def rootFrom (n : Nat) : Nat → Nat → Nat
  | 0, r => r
  | b + 1, r => if (r + 2 ^ b) * (r + 2 ^ b) ≤ n then rootFrom n b (r + 2 ^ b) else rootFrom n b r

/-- The integer square root, rounded down. -/
def isqrt (n : Nat) : Nat := rootFrom n (n.log2 / 2 + 1) 0

/-- The square root. The integer root keeps far more places than the significand, so one extra bit that says
whether it is exact decides the rounding. -/
def sqrt (x : BitVec F.width) : BitVec F.width :=
  match decode x with
  | .nan => someNaN .sqrt x x
  | .inf neg => if neg then someNaN .sqrt x x else x
  | .fin neg mag =>
    if mag = 0 then x
    else if neg then someNaN .sqrt x x
    else
      let n := mag * unit F
      let r := isqrt n
      ofRatio F false (2 * r + (if r * r = n then 0 else 1)) 2

/-- An integer that orders the patterns that are not NaN as their values; `-0` and `+0` share one. -/
def key (x : BitVec F.width) : Int :=
  if signBit x then - (magBits x : Int) else (magBits x : Int)

/-- `x < y`; false when either is a NaN. -/
def lt (x y : BitVec F.width) : Bool := !isNaN x && !isNaN y && decide (key x < key y)

/-- `x ≤ y`; false when either is a NaN. -/
def le (x y : BitVec F.width) : Bool := !isNaN x && !isNaN y && decide (key x ≤ key y)

/-- The conversion of an integer. -/
def ofInt (F : FpFormat) (n : Int) : BitVec F.width := ofRatio F (decide (n < 0)) (n.natAbs * unit F) 1

/-- The nearest integer not larger in magnitude; none for an infinity or a NaN. -/
def toInt? (x : BitVec F.width) : Option Int :=
  match decode x with
  | .fin neg mag => some (if neg then - ((mag / unit F : Nat) : Int) else ((mag / unit F : Nat) : Int))
  | _ => none

end Fp

/-! ### The notation of R12, on whichever format the working format is -/

variable {F : FpFormat}

/-- `fp(k)`: the conversion of the integer `k` to `FP` (R12). -/
def fp (n : Int) : FpOf F := Fp.ofInt F n
/-- `fadd(a, b)` (R12). -/
def fadd (x y : FpOf F) : FpOf F := Fp.add x y
/-- `fsub(a, b)` (R12). -/
def fsub (x y : FpOf F) : FpOf F := Fp.sub x y
/-- `fmul(a, b)` (R12). -/
def fmul (x y : FpOf F) : FpOf F := Fp.mul x y
/-- `fdiv(a, b)` (R12). -/
def fdiv (x y : FpOf F) : FpOf F := Fp.div x y
/-- `fsqrt(a)` (R12). -/
def fsqrt (x : FpOf F) : FpOf F := Fp.sqrt x
/-- `a < b` on `FP`, false on a NaN (R12). -/
def flt (x y : FpOf F) : Bool := Fp.lt x y
/-- `a >= b` on `FP`, false on a NaN (R12). -/
def fge (x y : FpOf F) : Bool := Fp.le y x
/-- `fmax(a, b)`: `a` if `a > b`, else `b`, for values that are not NaN (R12). For a NaN operand no rule states the
result, which is a free value: DESIGN CHOICE, log 21. -/
def fmax (x y : FpOf F) : FpOf F :=
  if Fp.isNaN x || Fp.isNaN y then Config.freeFmax F x y else if flt y x then x else y
/-- `+0.0`. -/
def fzero : FpOf F := 0#_

/-! ### Floating-point constants (R7, 00_scope.md) -/

/-- `CORRMINPOWER` = 250. -/
def corrMinPower : FpOf F := fp 250
/-- `ATTENFAC`: the decimal 0.2 rounded once. -/
def attenFac : FpOf F := Fp.ofRatio F false (2 * Fp.unit F) 10
/-- `ATTENINCR` = `fdiv(ATTENFAC, fp(80))`. -/
def attenIncr : FpOf F := fdiv attenFac (fp Config.frameSz)
/-- `SAT_HI` = 32767. -/
def satHi : FpOf F := fp 32767
/-- `SAT_LO` = -32768. -/
def satLo : FpOf F := fp (-32768)

end Sys2Proof.Machine
end

