-- ==== Sys2Proof/Syntax.lean ====
section
/-! DEFINITION. The instructions: the four rows of format CMD and the sixteen of format UOP of
spec/opcode_table.json, one constructor each. -/

namespace Sys2Proof

/-- The value of the 2-bit `op` field (R75, 30_encoding.md). -/
inductive Opcode where
  | accept | conceal | construct | reserved
deriving DecidableEq, Repr

/-- The destination of PULL: one of the internal buffers of R35 (R134, 42_pitch_buffer_manager.md). -/
inductive PullDst where
  | obuf | tmp | synth
deriving DecidableEq, Repr

/-- How many samples a destination holds (R35, 10_state.md). -/
def PullDst.capacity : PullDst → Nat
  | .obuf => 80
  | .tmp => 30
  | .synth => 80

/-- The instructions of the block. An ignored frame field is no operand (R74, 30_encoding.md); a
micro-operation carries the operands of R78's column. -/
inductive Instr where
  /-- ACCEPT, a good frame (R176, R177). -/
  | accept (frame : Block)
  /-- CONCEAL, a lost frame (R169). -/
  | conceal
  /-- CONSTRUCT (R168). -/
  | construct
  /-- The reserved opcode `11` (R76). -/
  | reserved
  /-- IDLE (R165). -/
  | idle
  /-- WIDEN_HISTORY (R132). -/
  | widenHistory
  /-- FINDPITCH_COARSE (R115). -/
  | findpitchCoarse
  /-- FINDPITCH_FINE (R117). -/
  | findpitchFine
  /-- PRIME (R136); its operand is the period FINDPITCH found. -/
  | prime (period : Nat)
  /-- SNAPSHOT_TAIL (R138). -/
  | snapshotTail
  /-- OLA_TAIL (R140). -/
  | olaTail
  /-- WRITEBACK_TAIL (R141). -/
  | writebackTail
  /-- PULL (R134); its operands are the destination and the number of samples. -/
  | pull (dst : PullDst) (n : Nat)
  /-- GROW (R137). -/
  | grow
  /-- RESTORE_CURSOR (R142). -/
  | restoreCursor
  /-- OLA_FRAME (R97). -/
  | olaFrame
  /-- SCALE (R152). -/
  | scale
  /-- ZERO_FRAME (R93). -/
  | zeroFrame
  /-- RECONCILE_BLEND (R154); its operand is the window length `olen`. -/
  | reconcileBlend (olen : Nat)
  /-- COMMIT_AND_OUT: COMMIT (R131), then DELAY_OUT (R143). -/
  | commitAndOut
deriving DecidableEq, Repr

end Sys2Proof
end

