-- ==== Sys2Proof/WellFormed.lean ====
section
/-! DEFINITION. Which instructions are well formed: the checks an encoding or the sequencer puts on an
operand. -/

namespace Sys2Proof

/-- A frame has exactly 80 samples (R72, R74, 30_encoding.md). -/
def frameOk (frame : Block) : Bool := frame.length == Config.frameSz

/-- The period of PRIME is a result of FINDPITCH (R136; R118: 40 to 120). -/
def periodOk (period : Nat) : Bool := decide (Config.pitchMin ≤ period) && decide (period ≤ Config.pitchMax)

/-- PULL fills no more than its destination holds (R134, R35). -/
def pullOk (dst : PullDst) (n : Nat) : Bool := decide (n ≤ dst.capacity)

/-- The reconciliation window is no longer than a frame (R153). -/
def olenOk (olen : Nat) : Bool := decide (olen ≤ Config.frameSz)

/-- The well-formedness check, one arm per constructor. -/
def Instr.wellFormed : Instr → Bool
  | .accept frame => frameOk frame
  | .conceal => true
  | .construct => true
  | .reserved => true
  | .idle => true
  | .widenHistory => true
  | .findpitchCoarse => true
  | .findpitchFine => true
  | .prime period => periodOk period
  | .snapshotTail => true
  | .olaTail => true
  | .writebackTail => true
  | .pull dst n => pullOk dst n
  | .grow => true
  | .restoreCursor => true
  | .olaFrame => true
  | .scale => true
  | .zeroFrame => true
  | .reconcileBlend olen => olenOk olen
  | .commitAndOut => true

end Sys2Proof
end

