-- ==== Sys2Proof/Decode.lean ====
section
/-! DEFINITION. The decoder, total, rejecting by name; then the encoder, from the same tables (R72, R74, R75,
R78, 30_encoding.md). -/

namespace Sys2Proof

/-- Why a word is no instruction. Command words always decode (R76: no illegal pattern but the reserved
opcode, which is an instruction here); only a micro-operation's operand bits can be wrong. -/
inductive DecodeError where
  /-- Operand bits on a micro-operation that takes none. Safe: the sequencer issues no such word. -/
  | strayOperand
  /-- Destination code 3 of PULL. Safe: the sequencer issues no such word. -/
  | reservedDestination
  /-- A length beyond the destination of PULL, or beyond a frame. Safe: the sequencer issues no such word. -/
  | lengthTooLong
  /-- A lag above 80 as the operand of PRIME. Safe: the sequencer issues no such word. -/
  | lagTooLarge
deriving DecidableEq, Repr

/-! ### Frames (R72) -/

/-- The first `n` 16-bit lanes of a bus, lane 0 in the lowest bits (R72). -/
def unpackLanes : Nat → Nat → Block
  | 0, _ => []
  | n + 1, bus => BitVec.ofNat 16 bus :: unpackLanes n (bus / 2 ^ 16)

/-- Samples as lanes of a bus, sample 0 in the lowest bits (R72). -/
def packLanes : Block → Nat
  | [] => 0
  | x :: xs => x.toNat + 2 ^ 16 * packLanes xs

/-! ### Format CMD (R74, R75) -/

/-- The instruction of a command word: `op` in bits 1..0, the frame in bits 1281..2. -/
def decodeCommand (w : CommandWord) : Instr :=
  match w.toNat % 4 with
  | 0 => .accept (unpackLanes Config.frameSz (w.toNat / 4))
  | 1 => .conceal
  | 2 => .construct
  | _ => .reserved

/-- A command word from its fields. -/
def commandWord (op bus : Nat) : CommandWord := BitVec.ofNat 1282 (op + 4 * bus)

/-! ### Format UOP (R78; the operand bits by log 11) -/

/-- The 4-bit phase code (R78). -/
def microCode (w : MicroWord) : Nat := w.toNat % 16
/-- The destination bits 5..4. -/
def microDst (w : MicroWord) : Nat := w.toNat / 16 % 4
/-- The length bits 12..6. -/
def microLen (w : MicroWord) : Nat := w.toNat / 64

/-- A micro-operation word from its fields. -/
def microWord (code dst len : Nat) : MicroWord := BitVec.ofNat 13 (code + 16 * dst + 64 * len)

/-- The code of a PULL destination (log 11). -/
def PullDst.code : PullDst → Nat
  | .obuf => 0
  | .tmp => 1
  | .synth => 2

/-- The PULL destination of a code; 3 is reserved (log 11). -/
def pullDstOf : Nat → Except DecodeError PullDst
  | 0 => .ok .obuf
  | 1 => .ok .tmp
  | 2 => .ok .synth
  | _ => .error .reservedDestination

/-- A micro-operation without operands: its operand bits are zero. -/
def plainMicro (w : MicroWord) (i : Instr) : Except DecodeError Instr :=
  if microDst w = 0 ∧ microLen w = 0 then .ok i else .error .strayOperand

/-- PRIME: the length bits hold the winning lag, and the period is `PITCH_MAX - lag` (R118; log 11). -/
def decodePrime (w : MicroWord) : Except DecodeError Instr :=
  if microDst w ≠ 0 then .error .strayOperand
  else if Config.pitchDiff < microLen w then .error .lagTooLarge
  else .ok (.prime (Config.pitchMax - microLen w))

/-- PULL: a destination and a length that fits it. -/
def decodePull (w : MicroWord) : Except DecodeError Instr :=
  match pullDstOf (microDst w) with
  | .error e => .error e
  | .ok dst => if microLen w ≤ dst.capacity then .ok (.pull dst (microLen w)) else .error .lengthTooLong

/-- RECONCILE_BLEND: the length bits hold `olen`. -/
def decodeReconcileBlend (w : MicroWord) : Except DecodeError Instr :=
  if microDst w ≠ 0 then .error .strayOperand
  else if Config.frameSz < microLen w then .error .lengthTooLong
  else .ok (.reconcileBlend (microLen w))

/-- The instruction of a micro-operation word (R78). The code has four bits, so the last arm is `1111`. -/
def decodeMicro (w : MicroWord) : Except DecodeError Instr :=
  match microCode w with
  | 0 => plainMicro w .idle
  | 1 => plainMicro w .widenHistory
  | 2 => plainMicro w .findpitchCoarse
  | 3 => plainMicro w .findpitchFine
  | 4 => decodePrime w
  | 5 => plainMicro w .snapshotTail
  | 6 => plainMicro w .olaTail
  | 7 => plainMicro w .writebackTail
  | 8 => decodePull w
  | 9 => plainMicro w .grow
  | 10 => plainMicro w .restoreCursor
  | 11 => plainMicro w .olaFrame
  | 12 => plainMicro w .scale
  | 13 => plainMicro w .zeroFrame
  | 14 => decodeReconcileBlend w
  | _ => plainMicro w .commitAndOut

/-- The decoder. -/
def decode : CodeWord → Except DecodeError Instr
  | .command w => .ok (decodeCommand w)
  | .micro w => decodeMicro w

/-! ### The rows of the opcode table as numbers -/

/-- The word a row's bits stand for. Rows of format UOP have 4 bits (one byte), rows of format CMD 1282 bits
(161 bytes). Bits beyond the word are no part of any instruction (log 11). -/
def tableCodeWord (nbits w : Nat) : Option CodeWord :=
  if nbits ≤ 16 then
    if w < 2 ^ 13 then some (.micro (BitVec.ofNat 13 w)) else none
  else if w < 2 ^ 1282 then some (.command (BitVec.ofNat 1282 w)) else none

/-- The instruction the decoder reads from a row's bits, numbered as spec/opcode_table.json numbers them. -/
def decodeTableWord (nbits w : Nat) : Option Instr :=
  match tableCodeWord nbits w with
  | none => none
  | some c =>
    match decode c with
    | .ok i => some i
    | .error _ => none

/-! ### The encoder -/

/-- The word of a well-formed instruction. An ignored frame field is written as zeros (R80). -/
def encode : Instr → CodeWord
  | .accept frame => .command (commandWord 0 (packLanes frame))
  | .conceal => .command (commandWord 1 0)
  | .construct => .command (commandWord 2 0)
  | .reserved => .command (commandWord 3 0)
  | .idle => .micro (microWord 0 0 0)
  | .widenHistory => .micro (microWord 1 0 0)
  | .findpitchCoarse => .micro (microWord 2 0 0)
  | .findpitchFine => .micro (microWord 3 0 0)
  | .prime period => .micro (microWord 4 0 (Config.pitchMax - period))
  | .snapshotTail => .micro (microWord 5 0 0)
  | .olaTail => .micro (microWord 6 0 0)
  | .writebackTail => .micro (microWord 7 0 0)
  | .pull dst n => .micro (microWord 8 dst.code n)
  | .grow => .micro (microWord 9 0 0)
  | .restoreCursor => .micro (microWord 10 0 0)
  | .olaFrame => .micro (microWord 11 0 0)
  | .scale => .micro (microWord 12 0 0)
  | .zeroFrame => .micro (microWord 13 0 0)
  | .reconcileBlend olen => .micro (microWord 14 0 olen)
  | .commitAndOut => .micro (microWord 15 0 0)

end Sys2Proof
end

