-- ==== Sys2Proof/Machine/State.lean ====
section
/-! DEFINITION. The state of the machine as plain data, the reasons a step can stop, and the state after
reset. -/

namespace Sys2Proof.Machine

/-- The three arrays, each indexed by element (R21, R22, R23, 10_state.md; R50, 20_memory.md): the whole
memory of the block (log 3). An element of `saved_tail` is `none` until SNAPSHOT_TAIL writes it (R29). -/
structure Memory (P : Params) where
  history : List Sample
  pitchBuffer : List (FP P)
  savedTail : List (Option (FP P))
deriving DecidableEq, Repr

/-- The lengths never change (R21, R22, R23; R37 item 1). -/
def Memory.wf {P : Params} (m : Memory P) : Bool :=
  m.history.length == 390 && m.pitchBuffer.length == 390 && m.savedTail.length == 30

/-- The window registers (R24 to R27, 10_state.md). `none` is the spec's own content of a register that
nothing has written since the last CONSTRUCT (R12, R29). -/
structure Window where
  pitchPeriod : Option Nat
  overlapSpan : Option Nat
  periodBufferLength : Option Nat
  pitchPeriodStart : Option Nat
  readCursor : Option Nat
deriving DecidableEq, Repr

/-- The state inside a command (R35, 10_state.md), but for `phase`. -/
structure Work (P : Params) where
  obuf : Block
  tmp : Block
  synth : Block
  saveCursor : Nat
  g : FP P
  energy : FP P
  corr : FP P
  score : FP P
  bestScore : FP P
  bestLag : Nat
  lo : Nat
  hi : Nat
  j : Nat
deriving DecidableEq, Repr

/-- The buffers have the sizes of R35. -/
def Work.wf {P : Params} (w : Work P) : Bool :=
  w.obuf.length == 80 && w.tmp.length == 30 && w.synth.length == 80

/-- The response channel (R70, R73, 30_encoding.md). -/
structure Response where
  valid : Bool
  frame : Block
  raw : Block
  status : BitVec 32
deriving DecidableEq, Repr

/-- The `fault` field (R32, R200); code 3 is never written (U28), so it has no constructor. -/
inductive FaultCode where
  | none
  | illegalCmd
  | invariant
deriving DecidableEq, Repr

/-- The branch codes 0 to 7 in order (R34, R77, R166). -/
inductive Branch where
  | pass
  | onset
  | extend
  | steady
  | mute
  | reconcile
  | construct
  | none
deriving DecidableEq, Repr

/-- What the host presents to the block: a cycle of `rst` (R230), or a command word (R71). Log 2. -/
inductive HostInput where
  | rst
  | command (w : CommandWord)
deriving DecidableEq, Repr

end Sys2Proof.Machine

namespace Sys2Proof.Machine.Generic

/-- The machine, for any parameters (R9). The fields from `operand` on are ports or the model's own; INVENTORY.md
lists each. -/
structure State (P : Params) where
  mem : Memory P
  win : Window
  erasureCount : Nat
  primed : Bool
  fault : FaultCode
  lastBranch : Branch
  work : Work P
  phase : BitVec 4
  operand : BitVec 9
  rsp : Response
  inbox : List HostInput
  freeIdx : Nat
deriving DecidableEq, Repr

end Sys2Proof.Machine.Generic

namespace Sys2Proof.Machine

/-- The machine for given parameters (R9). -/
abbrev StateOf (P : Params) := Generic.State P

/-- The machine with the default parameters (R9; log 4). -/
abbrev State := StateOf Params.standard

/-- Reasons the machine would stop with a fault: there is none. Both faults of the spec (R200) are recorded in
the `fault` field by fault entry (R205), and the machine goes on to a next state. -/
inductive Fault
deriving DecidableEq, Repr

/-- Reasons a step has no meaning. -/
inductive Refusal where
  /-- An instruction without a meaning yet; raised by `exec` only. Safe: nothing is claimed of it. -/
  | notModelled (mnemonic : String)
  /-- The sequencer's micro-operation word has operand bits that the model's own layout (log 11) gives no
  meaning; raised by `step` only. Safe: no command issues such a word. -/
  | undecodable (e : DecodeError)
deriving DecidableEq, Repr

/-- Every window register holding `none` (R29). -/
def Window.unwritten : Window := ⟨none, none, none, none, none⟩

/-- The arrays after CONSTRUCT or `rst` (R232). -/
def Memory.cleared {P : Params} : Memory P :=
  ⟨List.replicate 390 0#16, List.replicate 390 0#_, List.replicate 30 none⟩

/-- The working registers at reset. The spec leaves them unspecified (R232, U26): DESIGN CHOICE zero, log 7. -/
def Work.zeroed {P : Params} : Work P :=
  ⟨List.replicate 80 0#16, List.replicate 30 0#16, List.replicate 80 0#16, 0, 0#_, 0#_, 0#_, 0#_, 0#_, 0, 0, 0, 0⟩

/-- The response channel at reset: `rsp_valid` is 0 (R232); the buses are unspecified then (U24): DESIGN
CHOICE zero, log 8. -/
def Response.quiet : Response := ⟨false, List.replicate 80 0#16, List.replicate 80 0#16, 0#32⟩

/-- The state after reset (R232, 70_reset_and_hazards.md), with nothing presented by the host, for any parameters. -/
def State.initial (P : Params) : StateOf P where
  mem := Memory.cleared
  win := Window.unwritten
  erasureCount := 0
  primed := false
  fault := .none
  lastBranch := .construct
  work := Work.zeroed
  phase := 0#4
  operand := 0#9
  rsp := Response.quiet
  inbox := []
  freeIdx := 0

/-- The state after reset (R232) at the default parameters. -/
def State.reset : State := State.initial Params.standard

end Sys2Proof.Machine
end

