-- ==== Sys2Proof/Machine/Flags.lean ====
section
/-! DEFINITION. Flags, status and the output ports. The block has no condition codes (R31, 10_state.md); what it has is
`primed`, `fault` and `last_branch`, and the STATUS word that shows them (R33). -/

namespace Sys2Proof.Machine

variable {P : Params}

/-- The value of the `fault` field (R32, R200). -/
def FaultCode.code : FaultCode → BitVec 2
  | .none => 0#2
  | .illegalCmd => 1#2
  | .invariant => 2#2

/-- The branch code (R34, R77, R166). -/
def Branch.code : Branch → BitVec 3
  | .pass => 0#3
  | .onset => 1#3
  | .extend => 2#3
  | .steady => 3#3
  | .mute => 4#3
  | .reconcile => 5#3
  | .construct => 6#3
  | .none => 7#3

/-- `STATUS.ERASURE_COUNT`, saturated at 255 (R33). -/
def statusCount (s : StateOf P) : BitVec 8 := BitVec.ofNat 8 (min s.erasureCount 255)

/-- `STATUS.PITCH_PERIOD`: 0 unless `primed` (R33). The last arm is a state no rule reaches (log 15). -/
def statusPeriod (s : StateOf P) : BitVec 7 :=
  match s.primed, s.win.pitchPeriod with
  | false, _ => 0#7
  | true, some p => BitVec.ofNat 7 p
  | true, none => Config.freeStatusPeriod

/-- The STATUS word (R33): reserved bits 31..21, FAULT, BRANCH, PRIMED, PITCH_PERIOD, ERASURE_COUNT. -/
def statusWord (s : StateOf P) : BitVec 32 :=
  0#11 ++ s.fault.code ++ s.lastBranch.code ++ BitVec.ofBool s.primed ++ statusPeriod s ++ statusCount s

/-- The `rst` input in the cycle to come (R230). -/
def rstNow (s : StateOf P) : Bool :=
  match s.inbox with
  | .rst :: _ => true
  | .command _ :: _ => false
  | [] => false

/-- The `cmd_ready` output: 1 when the sequencer is IDLE (R71, R78), but 0 in a cycle where `rst` is 1 (R231). -/
def cmdReady (s : StateOf P) : Bool := s.phase == 0#4 && !rstNow s

/-! ### The output ports (R70, 30_encoding.md) -/

/-- Samples on a frame bus: sample `i` in bits 16i+15..16i (R52, R72). -/
def frameBus (b : Block) : FrameBus := BitVec.ofNat 1280 (packLanes b)

/-- The outputs of the block (R70). -/
structure Ports where
  cmdReady : Bool
  rspValid : Bool
  rspFrame : FrameBus
  rspRaw : FrameBus
  rspStatus : BitVec 32
  status : BitVec 32
deriving DecidableEq, Repr

/-- What the block drives on its outputs (R70, R33, R73): the response of the step that led to the state, and
`cmd_ready` in the cycle in which the next step begins (log 17). -/
def ports (s : StateOf P) : Ports where
  cmdReady := cmdReady s
  rspValid := s.rsp.valid
  rspFrame := frameBus s.rsp.frame
  rspRaw := frameBus s.rsp.raw
  rspStatus := s.rsp.status
  status := statusWord s

end Sys2Proof.Machine
end

