-- ==== Sys2Proof/Machine/Operands.lean ====
section
/-! DEFINITION. Operand forms: the window registers, the working buffers PULL writes to, and the accesses that
raise an `InvariantFault` (R204, 60_exceptions.md). -/

namespace Sys2Proof.Machine

variable {P : Params}

/-- The three state arrays (R50, 20_memory.md). -/
inductive ArrayName where
  | history | pitchBuffer | savedTail
deriving DecidableEq, Repr

/-- The five window registers (R24 to R27). -/
inductive WindowReg where
  | pitchPeriod | overlapSpan | periodBufferLength | pitchPeriodStart | readCursor
deriving DecidableEq, Repr

/-- Why an `InvariantFault` is raised (R204). The detail is for diagnostics only (R200): fault entry records
the code and nothing else. -/
inductive Violation where
  /-- An index outside a state array (R53). -/
  | index (arr : ArrayName) (i : Int)
  /-- A window register that holds `none` (R29). -/
  | unwritten (r : WindowReg)
  /-- An element of `saved_tail` that holds `none` (R29). -/
  | unwrittenTail (i : Nat)
  /-- An index outside a working buffer (DEDUCED from R53, log 12). -/
  | bufferIndex (dst : PullDst) (i : Nat)
deriving DecidableEq, Repr

/-- The content of a window register. -/
def Window.get (w : Window) : WindowReg → Option Nat
  | .pitchPeriod => w.pitchPeriod
  | .overlapSpan => w.overlapSpan
  | .periodBufferLength => w.periodBufferLength
  | .pitchPeriodStart => w.pitchPeriodStart
  | .readCursor => w.readCursor

/-- A rule's read of a window register: while `primed` is 0, or the register holds `none`, it raises
`InvariantFault` and reads no value (R29, R204). -/
def readReg (r : WindowReg) (s : StateOf P) : Except Violation Nat :=
  match s.primed, s.win.get r with
  | true, some v => .ok v
  | _, _ => .error (.unwritten r)

/-- The working buffer a PULL writes to. -/
def Work.buffer (w : Work P) : PullDst → Block
  | .obuf => w.obuf
  | .tmp => w.tmp
  | .synth => w.synth

/-- Replace a working buffer. -/
def Work.setBuffer (w : Work P) (dst : PullDst) (b : Block) : Work P :=
  match dst with
  | .obuf => { w with obuf := b }
  | .tmp => { w with tmp := b }
  | .synth => { w with synth := b }

/-- Write the first elements of a block and keep the rest (R99: elements at index `n` and above keep their
value). -/
def overlay {α : Type} (vs old : List α) : List α := vs ++ old.drop vs.length

/-- Write the first elements of a working buffer; past its end is an `InvariantFault` (log 12). -/
def writeBuffer (dst : PullDst) (vs : Block) (s : StateOf P) : Except Violation (StateOf P) :=
  if vs.length ≤ (s.work.buffer dst).length then
    .ok { s with work := s.work.setBuffer dst (overlay vs (s.work.buffer dst)) }
  else .error (.bufferIndex dst (s.work.buffer dst).length)

/-- Read the first `n` elements of a working buffer; past its end is an `InvariantFault` (log 12). -/
def readBuffer (dst : PullDst) (n : Nat) (s : StateOf P) : Except Violation Block :=
  if n ≤ (s.work.buffer dst).length then .ok ((s.work.buffer dst).take n)
  else .error (.bufferIndex dst (s.work.buffer dst).length)

end Sys2Proof.Machine
end

