-- ==== Sys2Proof/Machine/Ops.lean ====
section
/-! DEFINITION. The named operations over the arrays and the registers, the response, and the one shared
operation that takes a fault (R205, 60_exceptions.md). -/

namespace Sys2Proof.Machine

variable {P : Params} {F : FpFormat}

/-! ### Array accesses (R12, 00_scope.md; R53, 20_memory.md) -/

/-- `ArrRead`: one element, bounds checked. -/
def arrRead {α : Type} (arr : ArrayName) (xs : List α) (i : Nat) : Except Violation α :=
  match xs[i]? with
  | some v => .ok v
  | none => .error (.index arr i)

/-- `ArrWrite`: one element, bounds checked. -/
def arrWrite {α : Type} (arr : ArrayName) (xs : List α) (i : Nat) (v : α) : Except Violation (List α) :=
  if i < xs.length then .ok (xs.set i v) else .error (.index arr i)

/-- `MemRead`: `n` elements from index `lo`. The first index outside the array is what an `InvariantFault`
names; reading no element checks no index. -/
def memRead {α : Type} (arr : ArrayName) (xs : List α) (lo n : Nat) : Except Violation (List α) :=
  if n = 0 ∨ lo + n ≤ xs.length then .ok ((xs.drop lo).take n)
  else .error (.index arr (max lo xs.length))

/-- `MemRead` of the `n` elements just below index `hi`; a start below 0 is outside the array. -/
def memReadBelow {α : Type} (arr : ArrayName) (xs : List α) (hi n : Nat) : Except Violation (List α) :=
  if n ≤ hi then memRead arr xs (hi - n) n else .error (.index arr ((hi : Int) - n))

/-- `MemWrite`: the elements `vs` from index `lo` on. -/
def memWrite {α : Type} (arr : ArrayName) (xs : List α) (lo : Nat) (vs : List α) : Except Violation (List α) :=
  if vs = [] then .ok xs
  else if lo + vs.length ≤ xs.length then .ok (xs.take lo ++ vs ++ xs.drop (lo + vs.length))
  else .error (.index arr (max lo xs.length))

/-- `MemWrite` of elements that end just below index `hi`. -/
def memWriteBelow {α : Type} (arr : ArrayName) (xs : List α) (hi : Nat) (vs : List α) :
    Except Violation (List α) :=
  if vs.length ≤ hi then memWrite arr xs (hi - vs.length) vs
  else .error (.index arr ((hi : Int) - vs.length))

/-- Elements of `saved_tail` as values: one that holds `none` raises `InvariantFault` (R29, R204). -/
def written : Nat → List (Option (FpOf F)) → Except Violation (List (FpOf F))
  | _, [] => .ok []
  | i, some v :: rest =>
    match written (i + 1) rest with
    | .ok vs => .ok (v :: vs)
    | .error e => .error e
  | i, none :: _ => .error (.unwrittenTail i)

/-! ### State updates -/

/-- Replace `history`. -/
def Generic.State.setHistory (s : StateOf P) (h : List Sample) : StateOf P := { s with mem := { s.mem with history := h } }
/-- Replace `pitch_buffer`. -/
def Generic.State.setPitchBuffer (s : StateOf P) (p : List (FP P)) : StateOf P := { s with mem := { s.mem with pitchBuffer := p } }
/-- Replace `saved_tail`. -/
def Generic.State.setSavedTail (s : StateOf P) (t : List (Option (FP P))) : StateOf P := { s with mem := { s.mem with savedTail := t } }
/-- Write `read_cursor`. -/
def Generic.State.setCursor (s : StateOf P) (c : Nat) : StateOf P := { s with win := { s.win with readCursor := some c } }
/-- Write `obuf`. -/
def Generic.State.setObuf (s : StateOf P) (b : Block) : StateOf P := { s with work := { s.work with obuf := b } }

/-! ### The response (R73, 30_encoding.md; R178, 44_erasure_fsm.md) -/

/-- A frame of zeros. -/
def silence : Block := List.replicate Config.frameSz 0#16

/-- The working registers between commands: any value of their widths (R35, U26; log 7). -/
def freeWork (k : Nat) : Work P where
  obuf := (List.range 80).map (Config.freeObuf k)
  tmp := (List.range 30).map (Config.freeTmp k)
  synth := (List.range 80).map (Config.freeSynth k)
  saveCursor := (Config.freeSaveCursor k).toNat
  g := Config.freeGain P.fpFormat k
  energy := Config.freeEnergy P.fpFormat k
  corr := Config.freeCorr P.fpFormat k
  score := Config.freeScore P.fpFormat k
  bestScore := Config.freeBestScore P.fpFormat k
  bestLag := (Config.freeBestLag k).toNat
  lo := (Config.freeLo k).toNat
  hi := (Config.freeHi k).toNat
  j := (Config.freeJ k).toNat

/-- `respond`: present the frames on the buses with STATUS, and go to IDLE (R178). The command is over, and its
working registers with it (R35). -/
def respond (s : StateOf P) : StateOf P :=
  { s with rsp := { s.rsp with valid := true, status := statusWord s }, phase := 0#4, operand := 0#9,
           work := freeWork s.freeIdx, freeIdx := s.freeIdx + 1 }

/-- `respond` with zero frames (R168, R205, R206). -/
def respondSilence (s : StateOf P) : StateOf P :=
  respond { s with rsp := { s.rsp with frame := silence, raw := silence } }

/-! ### Taking a fault (R205) and refusing (R206) -/

/-- Fault entry: record the code, report branch 7, answer with zero frames and the faulted STATUS (R205).
There is no handler and nothing to return from (R207). -/
def faultEntry (c : FaultCode) (s : StateOf P) : StateOf P :=
  respondSilence { s with fault := c, lastBranch := .none }

/-- A refused command: only `last_branch` changes (R206). -/
def refuse (s : StateOf P) : StateOf P := respondSilence { s with lastBranch := .none }

/-- The window registers after an `InvariantFault`: unspecified bits of their widths (R210, log 9). -/
def freeWindow (k : Nat) : Window where
  pitchPeriod := (Config.freePitchPeriod k).map (·.toNat)
  overlapSpan := (Config.freeOverlapSpan k).map (·.toNat)
  periodBufferLength := (Config.freePeriodBufferLength k).map (·.toNat)
  pitchPeriodStart := (Config.freePitchPeriodStart k).map (·.toNat)
  readCursor := (Config.freeReadCursor k).map (·.toNat)

/-- The arrays after an `InvariantFault`: unspecified elements, lengths as always (R210, R21, log 9). -/
def freeMemory (k : Nat) : Memory P where
  history := (List.range 390).map (Config.freeHistory k)
  pitchBuffer := (List.range 390).map (Config.freePitchBuffer P.fpFormat k)
  savedTail := (List.range 30).map (Config.freeSavedTail P.fpFormat k)

/-- The state R210 leaves unspecified after an `InvariantFault`, each part a free value. -/
def unspecify (s : StateOf P) : StateOf P :=
  { s with mem := freeMemory s.freeIdx, win := freeWindow s.freeIdx, primed := Config.freePrimed s.freeIdx,
           erasureCount := (Config.freeErasureCount P.wEC s.freeIdx).toNat, freeIdx := s.freeIdx + 1 }

/-- Entry of an `InvariantFault` (R204, R205, R210). -/
def invariantEntry (s : StateOf P) : StateOf P := faultEntry .invariant (unspecify s)

/-- The outcome of a micro-operation run by itself: its state, or the entry of the `InvariantFault` it
raised (R202). On a block that already holds a fault that entry writes its own code over the first one, as R205
reads: DESIGN CHOICE, log 22 (R209 speaks of commands). -/
def finishMicro (r : Except Violation (StateOf P)) (s : StateOf P) : Host.Outcome (StateOf P) Fault Refusal :=
  match r with
  | .ok t => .next t
  | .error _ => .next (invariantEntry s)

end Sys2Proof.Machine
end

