-- ==== Sys2Proof/Machine/Primitives.lean ====
section
/-! DEFINITION. Sample block primitives (40_block_primitives.md): widen, narrow, blend; ZERO_FRAME and
OLA_FRAME; and IDLE. -/

namespace Sys2Proof.Machine

variable {P : Params} {F : FpFormat}

/-- `widen` (R91). -/
def widen (x : Sample) : FpOf F := fp x.toInt

/-- `clamp` (R12): a NaN passes through. -/
def clamp (t : FpOf F) : FpOf F := if flt satHi t then satHi else if flt t satLo then satLo else t

/-- `narrow` (R92): saturate, then round toward zero; a NaN gives 0. A clamped value is finite, so the default
of `getD` is never taken. -/
def narrow (t : FpOf F) : Sample :=
  if Fp.isNaN t then 0#16 else BitVec.ofInt 16 ((Fp.toInt? (clamp t)).getD 0)

/-- The weight of the right operand at offset `i` of `n` (R94, R96). -/
def rightWeight (n i : Nat) : FpOf F := fdiv (fp i) (fp n)

/-- The weight of the left operand at offset `i` of `n` (R94, R96). -/
def leftWeight (n i : Nat) : FpOf F := fsub (fp 1) (rightWeight n i)

/-- The weighted sum of two blocks element by element, clamped, from offset `i` on (R94, R154). -/
def crossFade (lw rw : Nat → FpOf F) : Nat → List (FpOf F) → List (FpOf F) → List (FpOf F)
  | i, l :: ls, r :: rs => clamp (fadd (fmul l (lw i)) (fmul r (rw i))) :: crossFade lw rw (i + 1) ls rs
  | _, _, _ => []

/-- `blend` (R94). -/
def blend (left right : List (FpOf F)) (n : Nat) : List (FpOf F) :=
  crossFade (leftWeight n) (rightWeight n) 0 (left.take n) (right.take n)

/-- `blend_s` in a working format (R95). -/
def blendS (F : FpFormat) (left right : Block) (n : Nat) : Block :=
  (blend (F := F) (left.map widen) (right.map widen) n).map narrow

/-- ZERO_FRAME (R93). -/
def zeroFrame (s : StateOf P) : Except Violation (StateOf P) := .ok (s.setObuf silence)

/-- OLA_FRAME (R97): `tmp` fades out, the new frame fades in. -/
def olaFrame (s : StateOf P) : Except Violation (StateOf P) := do
  let ov ← readReg .overlapSpan s
  let left ← readBuffer .tmp ov s
  let right ← readBuffer .obuf ov s
  writeBuffer .obuf (blendS P.fpFormat left right ov) s

/-- IDLE (R165): nothing changes. -/
def execIdle (s : StateOf P) : Host.Outcome (StateOf P) Fault Refusal := .next s

/-- ZERO_FRAME (R93), run by itself. -/
def execZeroFrame (s : StateOf P) : Host.Outcome (StateOf P) Fault Refusal := finishMicro (zeroFrame s) s

/-- OLA_FRAME (R97), run by itself. -/
def execOlaFrame (s : StateOf P) : Host.Outcome (StateOf P) Fault Refusal := finishMicro (olaFrame s) s

end Sys2Proof.Machine
end

