-- ==== Sys2Proof/Machine/Buffer.lean ====
section
/-! DEFINITION. The circular pitch buffer manager (42_pitch_buffer_manager.md): the eleven micro-operations of
R130 but for the cursor save, which opens EXTEND. -/

namespace Sys2Proof.Machine

variable {P : Params} {F : FpFormat}

/-- WIDEN_HISTORY (R132). -/
def widenHistory (s : StateOf P) : Except Violation (StateOf P) := do
  let h ← memRead .history s.mem.history 0 Config.historyLen
  let p ← memWrite .pitchBuffer s.mem.pitchBuffer 0 (h.map widen)
  return s.setPitchBuffer p

/-- `overlap_span` of a period: a quarter, rounded down (R171, 44_erasure_fsm.md). -/
def overlapOf (period : Nat) : Nat := period / 4

/-- PRIME (R136): all six writes together. -/
def prime (period : Nat) (s : StateOf P) : Except Violation (StateOf P) :=
  .ok { s with win := ⟨some period, some (overlapOf period), some period, some (Config.historyLen - period), some 0⟩,
               primed := true }

/-- SNAPSHOT_TAIL (R138). -/
def snapshotTail (s : StateOf P) : Except Violation (StateOf P) := do
  let ov ← readReg .overlapSpan s
  let tail ← memReadBelow .pitchBuffer s.mem.pitchBuffer Config.historyLen ov
  let t ← memWrite .savedTail s.mem.savedTail 0 (tail.map some)
  return s.setSavedTail t

/-- OLA_TAIL (R140): `saved_tail` fades out into the samples just before the window. -/
def olaTail (s : StateOf P) : Except Violation (StateOf P) := do
  let ov ← readReg .overlapSpan s
  let start ← readReg .pitchPeriodStart s
  let tail ← memRead .savedTail s.mem.savedTail 0 ov
  let left ← written 0 tail
  let right ← memReadBelow .pitchBuffer s.mem.pitchBuffer start ov
  let p ← memWriteBelow .pitchBuffer s.mem.pitchBuffer Config.historyLen (blend left right ov)
  return s.setPitchBuffer p

/-- WRITEBACK_TAIL (R141). -/
def writebackTail (s : StateOf P) : Except Violation (StateOf P) := do
  let ov ← readReg .overlapSpan s
  let tail ← memReadBelow .pitchBuffer s.mem.pitchBuffer Config.historyLen ov
  let h ← memWriteBelow .history s.mem.history Config.historyLen (tail.map narrow)
  return s.setHistory h

/-- The cursor after one sample: it wraps when it reaches the window's length (R134). -/
def advance (len c : Nat) : Nat := if c + 1 = len then 0 else c + 1

/-- The samples a pull of `n` reads from `pitch_buffer`, and the cursor it leaves (R134). -/
def pullFrom (pb : List (FpOf F)) (start len : Nat) : Nat → Nat → Except Violation (Block × Nat)
  | 0, c => .ok ([], c)
  | n + 1, c => do
    let v ← arrRead .pitchBuffer pb (start + c)
    let r ← pullFrom pb start len n (advance len c)
    return (narrow v :: r.1, r.2)

/-- PULL (R134, R135). With `n = 0` it does nothing, so it reads no register. -/
def pull (dst : PullDst) (n : Nat) (s : StateOf P) : Except Violation (StateOf P) :=
  if n = 0 then .ok s
  else do
    let start ← readReg .pitchPeriodStart s
    let c ← readReg .readCursor s
    let len ← readReg .periodBufferLength s
    let r ← pullFrom s.mem.pitchBuffer start len n c
    let t ← writeBuffer dst r.1 s
    return t.setCursor r.2

/-- GROW (R137). A window longer than the buffer has no start index: `InvariantFault` (DEDUCED from U4 of
93_implementation_defined.md, log 13). -/
def grow (s : StateOf P) : Except Violation (StateOf P) := do
  let len ← readReg .periodBufferLength s
  let period ← readReg .pitchPeriod s
  if len + period ≤ Config.historyLen then
    return { s with win := { s.win with periodBufferLength := some (len + period),
                                        pitchPeriodStart := some (Config.historyLen - (len + period)) } }
  else throw (.index .pitchBuffer ((Config.historyLen : Int) - (len + period)))

/-- The save of the cursor that opens EXTEND, a register copy (R130, R172). -/
def saveCursor (s : StateOf P) : Except Violation (StateOf P) := do
  let c ← readReg .readCursor s
  return { s with work := { s.work with saveCursor := c } }

/-- A cursor reduced modulo a period (R142). A period of zero does not arise (R11, R142); its remainder is
free (log 14). -/
def cursorMod (c period : Nat) : Nat := if period = 0 then Config.freeModZero c else c % period

/-- RESTORE_CURSOR (R142). -/
def restoreCursor (s : StateOf P) : Except Violation (StateOf P) := do
  let period ← readReg .pitchPeriod s
  return s.setCursor (cursorMod s.work.saveCursor period)

/-- COMMIT (R131): one frame left, the new frame at the end. -/
def commit (s : StateOf P) : StateOf P := s.setHistory (s.mem.history.drop Config.frameSz ++ s.work.obuf)

/-- `history[280..360)` (R143). -/
def delayedFrame (h : List Sample) : Block :=
  (h.drop (Config.historyLen - Config.frameSz - Config.pOverlapMax)).take Config.frameSz

/-- DELAY_OUT (R143): the two frames on the response buses. -/
def delayOut (s : StateOf P) : StateOf P :=
  { s with rsp := { s.rsp with frame := delayedFrame s.mem.history, raw := s.work.obuf } }

/-- COMMIT_AND_OUT (R131, R143). -/
def commitAndOut (s : StateOf P) : Except Violation (StateOf P) := .ok (delayOut (commit s))

/-- WIDEN_HISTORY (R132), run by itself. -/
def execWidenHistory (s : StateOf P) : Host.Outcome (StateOf P) Fault Refusal := finishMicro (widenHistory s) s

/-- PRIME (R136), run by itself. -/
def execPrime (period : Nat) (s : StateOf P) : Host.Outcome (StateOf P) Fault Refusal := finishMicro (prime period s) s

/-- SNAPSHOT_TAIL (R138), run by itself. -/
def execSnapshotTail (s : StateOf P) : Host.Outcome (StateOf P) Fault Refusal := finishMicro (snapshotTail s) s

/-- OLA_TAIL (R140), run by itself. -/
def execOlaTail (s : StateOf P) : Host.Outcome (StateOf P) Fault Refusal := finishMicro (olaTail s) s

/-- WRITEBACK_TAIL (R141), run by itself. -/
def execWritebackTail (s : StateOf P) : Host.Outcome (StateOf P) Fault Refusal := finishMicro (writebackTail s) s

/-- PULL (R134), run by itself. -/
def execPull (dst : PullDst) (n : Nat) (s : StateOf P) : Host.Outcome (StateOf P) Fault Refusal := finishMicro (pull dst n s) s

/-- GROW (R137), run by itself. -/
def execGrow (s : StateOf P) : Host.Outcome (StateOf P) Fault Refusal := finishMicro (grow s) s

/-- RESTORE_CURSOR (R142), run by itself. -/
def execRestoreCursor (s : StateOf P) : Host.Outcome (StateOf P) Fault Refusal := finishMicro (restoreCursor s) s

/-- COMMIT_AND_OUT (R131, R143), run by itself. -/
def execCommitAndOut (s : StateOf P) : Host.Outcome (StateOf P) Fault Refusal := finishMicro (commitAndOut s) s

end Sys2Proof.Machine
end

