-- ==== Sys2Proof/Machine/Correlator.lean ====
section
/-! DEFINITION. The pitch correlator (41_pitch_correlator.md): FINDPITCH_COARSE and FINDPITCH_FINE. -/

namespace Sys2Proof.Machine

variable {P : Params} {F : FpFormat}

/-- Every second element, from the first (the decimation by `NDEC` = 2 of R112). -/
def everySecond {α : Type} : List α → List α
  | [] => []
  | [x] => [x]
  | x :: _ :: rest => x :: everySecond rest

/-- The window of lag `j`: `ref[j .. j+160)` (R111). -/
def lagWindow (ref : List (FpOf F)) (j : Nat) : List (FpOf F) := (ref.drop j).take Config.corrLen

/-- A sum of products in one accumulator from `+0.0`, in ascending index (R112). -/
def sumProducts (xs ys : List (FpOf F)) : FpOf F :=
  (xs.zip ys).foldl (fun c p => fadd c (fmul p.1 p.2)) fzero

/-- `corr_coarse` (R112). -/
def corrCoarse (ref tgt : List (FpOf F)) (j : Nat) : FpOf F :=
  sumProducts (everySecond (lagWindow ref j)) (everySecond tgt)

/-- `corr_fine` (R112). -/
def corrFine (ref tgt : List (FpOf F)) (j : Nat) : FpOf F := sumProducts (lagWindow ref j) tgt

/-- `energy_coarse_init` (R113). -/
def energyCoarseInit (ref : List (FpOf F)) : FpOf F :=
  sumProducts (everySecond (lagWindow ref 0)) (everySecond (lagWindow ref 0))

/-- `energy_fine_init` (R113). -/
def energyFineInit (ref : List (FpOf F)) (lo : Nat) : FpOf F := sumProducts (lagWindow ref lo) (lagWindow ref lo)

/-- `ref[k]`; every index the search forms, with either value of `COARSE_ENTER`, is inside the window (R122), so the
default is never taken. -/
def refAt (ref : List (FpOf F)) (k : Nat) : FpOf F := ref.getD k fzero

/-- One energy update: the leaving sample is subtracted first, then the entering one added (R114). -/
def energyUpdate (ref : List (FpOf F)) (e : FpOf F) (leaving entering : Nat) : FpOf F :=
  fadd (fsub e (fmul (refAt ref leaving) (refAt ref leaving))) (fmul (refAt ref entering) (refAt ref entering))

/-- `energy_coarse_step` to lag `j`, for a value of `COARSE_ENTER` (R114). -/
def energyCoarseStep (enter : Nat) (ref : List (FpOf F)) (e : FpOf F) (j : Nat) : FpOf F :=
  energyUpdate ref e (j - Config.nDec) (j - Config.nDec + enter)

/-- `energy_fine_step` to lag `j` (R114). -/
def energyFineStep (ref : List (FpOf F)) (e : FpOf F) (j : Nat) : FpOf F := energyUpdate ref e (j - 1) (j - 1 + Config.corrLen)

/-- The score of a correlation and an energy (R116). -/
def scoreOf (c e : FpOf F) : FpOf F := fdiv c (fsqrt (fmax e corrMinPower))

/-- The correlator's registers (R35) at the first candidate of a stage, which is the initial best (R115, R117). -/
def searchStart (w : Work P) (lag : Nat) (c e : FP P) : Work P :=
  { w with energy := e, corr := c, score := scoreOf c e, bestScore := scoreOf c e, bestLag := lag, j := lag }

/-- The correlator's registers after one more candidate; `better` compares its score with the best so far. -/
def searchStep (better : FP P → FP P → Bool) (w : Work P) (lag : Nat) (c e : FP P) : Work P :=
  if better (scoreOf c e) w.bestScore then
    { w with energy := e, corr := c, score := scoreOf c e, bestScore := scoreOf c e, bestLag := lag, j := lag }
  else { w with energy := e, corr := c, score := scoreOf c e, j := lag }

/-- The candidates of the coarse stage after lag 0: 2, 4, ..., 80 (R115). -/
def coarseLags : List Nat := (List.range (Config.pitchDiff / Config.nDec)).map (fun k => Config.nDec * (k + 1))

/-- The coarse stage: a tie moves to the later lag (R115). -/
def coarseSearch (ref tgt : List (FP P)) (w : Work P) : Work P :=
  coarseLags.foldl
    (fun w j => searchStep fge w j (corrCoarse ref tgt j) (energyCoarseStep P.coarseEnter ref w.energy j))
    (searchStart w 0 (corrCoarse ref tgt 0) (energyCoarseInit ref))

/-- The fine stage from `lo` to `hi`: a tie keeps the earlier lag (R117). -/
def fineSearch (ref tgt : List (FP P)) (lo hi : Nat) (w : Work P) : Work P :=
  (List.range' (lo + 1) (hi - lo)).foldl
    (fun w j => searchStep (fun a b => flt b a) w j (corrFine ref tgt j) (energyFineStep ref w.energy j))
    (searchStart { w with lo := lo, hi := hi } lo (corrFine ref tgt lo) (energyFineInit ref lo))

/-- The reference window `pitch_buffer[110..390)` (R111). -/
def readReference (s : StateOf P) : Except Violation (List (FP P)) :=
  memReadBelow .pitchBuffer s.mem.pitchBuffer Config.historyLen Config.corrBufLen

/-- The target window `pitch_buffer[230..390)` (R111). -/
def readTarget (s : StateOf P) : Except Violation (List (FP P)) :=
  memReadBelow .pitchBuffer s.mem.pitchBuffer Config.historyLen Config.corrLen

/-- FINDPITCH_COARSE (R115). -/
def findpitchCoarse (s : StateOf P) : Except Violation (StateOf P) := do
  let ref ← readReference s
  let tgt ← readTarget s
  return { s with work := coarseSearch ref tgt s.work }

/-- The reference samples the fine stage reads first, from lag `lo` on. After a coarse stage they always exist
(R122); from any other `best_lag` an index can leave the array (R53, log 20). -/
def readFineStart (lo : Nat) (s : StateOf P) : Except Violation (List (FP P)) :=
  memRead .pitchBuffer s.mem.pitchBuffer (Config.historyLen - Config.corrBufLen + lo) Config.corrLen

/-- FINDPITCH_FINE (R117): within one lag of the coarse winner, inside `0..80`. -/
def findpitchFine (s : StateOf P) : Except Violation (StateOf P) := do
  let ref ← readReference s
  let tgt ← readTarget s
  let _ ← readFineStart (s.work.bestLag - (Config.nDec - 1)) s
  return { s with work := fineSearch ref tgt (s.work.bestLag - (Config.nDec - 1))
                            (min (s.work.bestLag + (Config.nDec - 1)) Config.pitchDiff) s.work }

/-- The period of the winning lag (R118). -/
def pitchResult (s : StateOf P) : Nat := Config.pitchMax - s.work.bestLag

/-- FINDPITCH_COARSE (R115), run by itself. -/
def execFindpitchCoarse (s : StateOf P) : Host.Outcome (StateOf P) Fault Refusal := finishMicro (findpitchCoarse s) s

/-- FINDPITCH_FINE (R117), run by itself. -/
def execFindpitchFine (s : StateOf P) : Host.Outcome (StateOf P) Fault Refusal := finishMicro (findpitchFine s) s

end Sys2Proof.Machine
end

