-- ==== Sys2Proof/Machine/Gain.lean ====
section
/-! DEFINITION. The gain and decay model (43_gain_decay.md): SCALE and RECONCILE_BLEND. -/

namespace Sys2Proof.Machine

variable {P : Params} {F : FpFormat}

/-- The start-of-frame gain for erasure number `n` (R151). The index is an integer: `gain0 0` is the 1.2 of
R156, which no command uses. -/
def gain0 (n : Nat) : FpOf F := fsub (fp 1) (fmul (fp ((n : Int) - 1)) attenFac)

/-- A gain after `i` rounded decrements by `ATTENINCR` (R152). -/
def decremented (g : FpOf F) : Nat → FpOf F
  | 0 => g
  | i + 1 => decremented (fsub g attenIncr) i

/-- The gain SCALE applies at offset `i` of erasure number `n`: `i` rounded subtractions below `gain0` (R152). -/
def gainAt (n i : Nat) : FpOf F := decremented (gain0 n) i

/-- `trunc` to an `int16` (R152). R152 says the product always is one; what SCALE writes when it is not is
free (log 6). -/
def truncSample (t : FpOf F) : Sample :=
  match Fp.toInt? t with
  | some k => if -32768 ≤ k ∧ k ≤ 32767 then BitVec.ofInt 16 k else Config.freeTrunc F t
  | none => Config.freeTrunc F t

/-- A block scaled from gain `g` on, one decrement per sample (R152). -/
def scaleBlock : FpOf F → Block → Block
  | _, [] => []
  | g, x :: xs => truncSample (fmul (widen x) g) :: scaleBlock (fsub g attenIncr) xs

/-- SCALE (R152). The gain register is left at the value after the last decrement. -/
def scale (s : StateOf P) : Except Violation (StateOf P) :=
  .ok { s with work := { s.work with obuf := scaleBlock (gain0 (F := P.fpFormat) s.erasureCount) s.work.obuf,
                                     g := decremented (gain0 s.erasureCount) s.work.obuf.length } }

/-- The reconciliation window length (R153), for `count >= 1`. -/
def olenOf (count ov : Nat) : Nat := min (ov + (count - 1) * Config.eOverlapIncr) Config.frameSz

/-- The gain of the synthetic side, floored at zero (R154). -/
def reconcileGain (count : Nat) : FpOf F := fmax (gain0 count) fzero

/-- The gain-scaled cross-fade of the first `n` samples (R154): only the left weight is scaled. -/
def reconcileBlocks (gain : FpOf F) (left right : Block) (n : Nat) : Block :=
  (crossFade (F := F) (fun i => fmul (leftWeight n i) gain) (rightWeight n) 0
    ((left.take n).map widen) ((right.take n).map widen)).map narrow

/-- RECONCILE_BLEND (R154). -/
def reconcileBlend (n : Nat) (s : StateOf P) : Except Violation (StateOf P) := do
  let left ← readBuffer .synth n s
  let right ← readBuffer .obuf n s
  writeBuffer .obuf (reconcileBlocks (reconcileGain (F := P.fpFormat) s.erasureCount) left right n) s

/-- SCALE (R152), run by itself. -/
def execScale (s : StateOf P) : Host.Outcome (StateOf P) Fault Refusal := finishMicro (scale s) s

/-- RECONCILE_BLEND (R154), run by itself. -/
def execReconcileBlend (olen : Nat) (s : StateOf P) : Host.Outcome (StateOf P) Fault Refusal :=
  finishMicro (reconcileBlend olen s) s

end Sys2Proof.Machine
end

