-- ==== Sys2Proof/Machine/Commands.lean ====
section
/-! DEFINITION. The erasure state machine and the host commands (44_erasure_fsm.md). -/

namespace Sys2Proof.Machine

variable {P : Params}

/-! ### Dispatch (R166) -/

/-- What dispatch decides: a branch, or that `IllegalCommand` is raised (R166, R203). -/
inductive Decision where
  | run (b : Branch)
  | illegal
deriving DecidableEq, Repr

/-- The branch of CONCEAL by `erasure_count` before the increment (R166). -/
def concealBranch (count : Nat) : Branch :=
  if count = 0 then .onset
  else if count = 1 ∨ count = 2 then .extend
  else if Config.muteAfter < count then .mute
  else .steady

/-- The branch of ACCEPT (R166). -/
def acceptBranch (count : Nat) : Branch := if count = 0 then .pass else .reconcile

/-- The dispatch function (R166). -/
def dispatch (op : Opcode) (fault : FaultCode) (count : Nat) : Decision :=
  match op with
  | .construct => .run .construct
  | .reserved => if fault = .none then .illegal else .run .none
  | .accept => if fault = .none then .run (acceptBranch count) else .run .none
  | .conceal => if fault = .none then .run (concealBranch count) else .run .none

/-- The states the document names (R167). -/
inductive NamedState where
  | idle
  | burstOnset
  | extending (n : Nat)
  | steadyRepeat
  | muted
deriving DecidableEq, Repr

/-- The named state read off `erasure_count` after a command (R167). -/
def namedState (count : Nat) : NamedState :=
  if count = 0 then .idle
  else if count = 1 then .burstOnset
  else if count ≤ 3 then .extending (count - 1)
  else if count ≤ 6 then .steadyRepeat
  else .muted

/-! ### The branches -/

/-- Branch ONSET (R170). -/
def onset (s : StateOf P) : Except Violation (StateOf P) := do
  let s ← widenHistory s
  let s ← findpitchCoarse s
  let s ← findpitchFine s
  let s ← prime (pitchResult s) s
  let s ← snapshotTail s
  let s ← olaTail s
  let s ← writebackTail s
  pull .obuf Config.frameSz s

/-- Branch EXTEND (R172). -/
def extend (s : StateOf P) : Except Violation (StateOf P) := do
  let s ← saveCursor s
  let ov ← readReg .overlapSpan s
  let s ← pull .tmp ov s
  let s ← grow s
  let s ← olaTail s
  let s ← restoreCursor s
  let s ← pull .obuf Config.frameSz s
  let s ← olaFrame s
  scale s

/-- Branch STEADY (R173). -/
def steady (s : StateOf P) : Except Violation (StateOf P) := do
  let s ← pull .obuf Config.frameSz s
  scale s

/-- Branch MUTE (R174). -/
def mute (s : StateOf P) : Except Violation (StateOf P) := zeroFrame s

/-- Branch RECONCILE (R177), after the frame is in `obuf`. -/
def reconcile (s : StateOf P) : Except Violation (StateOf P) := do
  let ov ← readReg .overlapSpan s
  let n := olenOf s.erasureCount ov
  let s ← pull .synth n s
  reconcileBlend n s

/-- The increment of `erasure_count`, saturating (R28, R175). -/
def countAfter (P : Params) (count : Nat) : Nat := min (count + 1) P.countMax

/-- The end of every frame command: the new count, the branch, COMMIT, DELAY_OUT, the response (R175, R176). -/
def epilogue (b : Branch) (count : Nat) (s : StateOf P) : StateOf P :=
  respond (delayOut (commit { s with erasureCount := count, lastBranch := b }))

/-- The end of a frame command whose branch ran, or the entry of the `InvariantFault` it raised (R202). -/
def finishFrame (b : Branch) (count : Nat) (r : Except Violation (StateOf P)) (s : StateOf P) :
    Host.Outcome (StateOf P) Fault Refusal :=
  match r with
  | .ok t => .next (epilogue b count t)
  | .error _ => .next (invariantEntry s)

/-! ### CONCEAL (R169) -/

/-- The branch body of CONCEAL. The arms for branches that dispatch does not give CONCEAL change nothing. -/
def runConceal (b : Branch) (s : StateOf P) : Except Violation (StateOf P) :=
  match b with
  | .onset => onset s
  | .extend => extend s
  | .steady => steady s
  | .mute => mute s
  | .pass => .ok s
  | .reconcile => .ok s
  | .construct => .ok s
  | .none => .ok s

/-- CONCEAL (R169): dispatch, the branch, the epilogue of R175; refused while faulted (R206). -/
def execConceal (s : StateOf P) : Host.Outcome (StateOf P) Fault Refusal :=
  match dispatch .conceal s.fault s.erasureCount with
  | .illegal => .next (faultEntry .illegalCmd s)
  | .run .none => .next (refuse s)
  | .run b => finishFrame b (countAfter P s.erasureCount) (runConceal b s) s

/-! ### ACCEPT (R176, R177) -/

/-- The branch body of ACCEPT, after the frame is in `obuf`: PASS does nothing more. The arms for branches
that dispatch does not give ACCEPT change nothing. -/
def runAccept (b : Branch) (s : StateOf P) : Except Violation (StateOf P) :=
  match b with
  | .reconcile => reconcile s
  | .pass => .ok s
  | .onset => .ok s
  | .extend => .ok s
  | .steady => .ok s
  | .mute => .ok s
  | .construct => .ok s
  | .none => .ok s

/-- ACCEPT (R176, R177); refused while faulted (R206). -/
def execAccept (frame : Block) (s : StateOf P) : Host.Outcome (StateOf P) Fault Refusal :=
  match dispatch .accept s.fault s.erasureCount with
  | .illegal => .next (faultEntry .illegalCmd s)
  | .run .none => .next (refuse s)
  | .run b => finishFrame b 0 (runAccept b (s.setObuf frame)) s

/-! ### CONSTRUCT (R168) and the reserved opcode (R76, R203) -/

/-- The state writes of CONSTRUCT (R168). -/
def construct (s : StateOf P) : StateOf P :=
  { s with mem := Memory.cleared, win := Window.unwritten, erasureCount := 0, primed := false,
           fault := .none, lastBranch := .construct }

/-- CONSTRUCT (R168): in every state, also a faulted one; zero frames in the response (R73). -/
def execConstruct (s : StateOf P) : Host.Outcome (StateOf P) Fault Refusal := .next (respondSilence (construct s))

/-- The reserved opcode: `IllegalCommand` (R76, R203), or a refusal while faulted (R206). -/
def execReserved (s : StateOf P) : Host.Outcome (StateOf P) Fault Refusal :=
  match dispatch .reserved s.fault s.erasureCount with
  | .illegal => .next (faultEntry .illegalCmd s)
  | .run _ => .next (refuse s)

end Sys2Proof.Machine
end

