-- ==== Sys2Proof/Machine/Dispatch.lean ====
section
/-! DEFINITION. The meaning of every instruction, one arm each. -/

namespace Sys2Proof.Machine

def exec (i : Instr) (s : State) : Host.Outcome State Fault Refusal :=
  match i with
  | .accept frame => Sys2Proof.Machine.execAccept frame s
  | .conceal => Sys2Proof.Machine.execConceal s
  | .construct => Sys2Proof.Machine.execConstruct s
  | .reserved => Sys2Proof.Machine.execReserved s
  | .idle => Sys2Proof.Machine.execIdle s
  | .widenHistory => Sys2Proof.Machine.execWidenHistory s
  | .findpitchCoarse => Sys2Proof.Machine.execFindpitchCoarse s
  | .findpitchFine => Sys2Proof.Machine.execFindpitchFine s
  | .prime period => Sys2Proof.Machine.execPrime period s
  | .snapshotTail => Sys2Proof.Machine.execSnapshotTail s
  | .olaTail => Sys2Proof.Machine.execOlaTail s
  | .writebackTail => Sys2Proof.Machine.execWritebackTail s
  | .pull dst n => Sys2Proof.Machine.execPull dst n s
  | .grow => Sys2Proof.Machine.execGrow s
  | .restoreCursor => Sys2Proof.Machine.execRestoreCursor s
  | .olaFrame => Sys2Proof.Machine.execOlaFrame s
  | .scale => Sys2Proof.Machine.execScale s
  | .zeroFrame => Sys2Proof.Machine.execZeroFrame s
  | .reconcileBlend olen => Sys2Proof.Machine.execReconcileBlend olen s
  | .commitAndOut => Sys2Proof.Machine.execCommitAndOut s

end Sys2Proof.Machine
end

