-- ==== Sys2Proof/Machine/Fetch.lean ====
section
/-! DEFINITION. Where the next instruction comes from. The block has no program counter and no instruction
memory (R30, 10_state.md; R60, 20_memory.md): a command is taken from the command port (R71), a
micro-operation from the sequencer's `phase` register (R35, R78), and `rst` comes before both (R231). -/

namespace Sys2Proof.Machine

variable {P : Params}

/-- What the block does next. -/
inductive Fetched (P : Params) where
  /-- A cycle of `rst`. -/
  | resetNow (s : StateOf P)
  /-- A word to decode and run, and the state with the word taken. -/
  | word (c : CodeWord) (s : StateOf P)
deriving DecidableEq, Repr

/-- The state after `rst` (R230, R232): the reset state. What the host presents next, and the model's own
counter, go on. -/
def afterRst (s : StateOf P) (rest : List HostInput) : StateOf P :=
  { State.initial P with inbox := rest, freeIdx := s.freeIdx }

/-- The response channel while `rsp_valid` is 0: any content (R73, U24; log 8). -/
def freeResponse (k : Nat) : Response where
  valid := false
  frame := (List.range 80).map (Config.freeRspFrame k)
  raw := (List.range 80).map (Config.freeRspRaw k)
  status := Config.freeRspStatus k

/-- A step takes the last response off the channel: `rsp_valid` is 1 for one cycle (R71). -/
def dropResponse (s : StateOf P) : StateOf P := { s with rsp := freeResponse s.freeIdx, freeIdx := s.freeIdx + 1 }

/-- The micro-operation word in the sequencer: `phase` and its operand bits (R78, log 11). -/
def sequencerWord (s : StateOf P) : MicroWord := s.operand ++ s.phase

/-- The sequencer gives its micro-operation away and is IDLE. -/
def takeMicro (s : StateOf P) : StateOf P := { dropResponse s with phase := 0#4, operand := 0#9 }

/-- The command port gives the command at the head of `inbox` away. -/
def takeCommand (s : StateOf P) (rest : List HostInput) : StateOf P := { dropResponse s with inbox := rest }

/-- The next thing to do: `rst` first (R231); then the micro-operation in `phase`; then, when IDLE, the
command the host offers (R71); then IDLE itself (R165). -/
def fetch (s : StateOf P) : Fetched P :=
  match s.inbox with
  | .rst :: rest => .resetNow (afterRst s rest)
  | .command w :: rest =>
    if s.phase = 0#4 then .word (.command w) (takeCommand s rest)
    else .word (.micro (sequencerWord s)) (takeMicro s)
  | [] => .word (.micro (sequencerWord s)) (takeMicro s)

/-- Present a word so that the next fetch takes it: a command on an IDLE block's port, a micro-operation in
the sequencer with nothing offered by the host (log 2). -/
def presentWord (c : CodeWord) (s : StateOf P) : StateOf P :=
  match c with
  | .command w => { s with phase := 0#4, operand := 0#9, inbox := .command w :: s.inbox }
  | .micro w => { s with phase := w.extractLsb' 0 4, operand := w.extractLsb' 4 9, inbox := [] }

/-- One step, given what an instruction does: a cycle of `rst`, or one whole command, or one micro-operation (R14,
00_scope.md; R243, 70_reset_and_hazards.md; log 1). -/
def stepBy (run : Instr → StateOf P → Host.Outcome (StateOf P) Fault Refusal) (s : StateOf P) :
    Host.Outcome (StateOf P) Fault Refusal :=
  match fetch s with
  | .resetNow t => .next t
  | .word c t =>
    match decode c with
    | .ok i => run i t
    | .error e => .refused (.undecodable e)

end Sys2Proof.Machine
end

