-- ==== Sys2Proof/Machine/Step.lean ====
section
/-! DEFINITION. One step: what the block does next, fetched, decoded and run. -/

namespace Sys2Proof.Machine

/-- One step of the machine with the default parameters (R9; log 4). -/
def step (s : State) : Host.Outcome State Fault Refusal := stepBy exec s

/-- The state with an instruction's bits where the next step fetches them. -/
def State.withFetchWord (s : State) (nbits w : Nat) : State :=
  match tableCodeWord nbits w with
  | some c => presentWord c s
  | none => s

end Sys2Proof.Machine
end

