-- ==== Sys2Proof/Machine/Trace.lean ====
section
/-! DEFINITION. Traces: the notation of R80 for a command stream, and the pseudo-commands of R81
(30_encoding.md), as what the host presents. -/

namespace Sys2Proof.Machine

/-- One line of a trace (R80, R81). A named frame stands for its samples. -/
inductive TraceLine where
  | construct
  | conceal
  | accept (frame : Block)
  | reserved
  /-- `PROCESS lost f` (R81). -/
  | processLost (frame : Block)
  /-- `PROCESS good f` (R81). -/
  | processGood (frame : Block)
  /-- `RESET`: one cycle of `rst` (R81, R230). -/
  | reset
  /-- `k * line` (R81). -/
  | times (k : Nat) (line : TraceLine)
deriving DecidableEq, Repr

/-- What the host presents for a command; a micro-operation is nothing a host can send. -/
def hostCommand (i : Instr) : List HostInput :=
  match encode i with
  | .command w => [.command w]
  | .micro _ => []

/-- What the host presents for a line: PROCESS drops the frame of a lost one and sends a good one as ACCEPT
(R81). -/
def TraceLine.inputs : TraceLine → List HostInput
  | .construct => hostCommand .construct
  | .conceal => hostCommand .conceal
  | .accept frame => hostCommand (.accept frame)
  | .reserved => hostCommand .reserved
  | .processLost _ => hostCommand .conceal
  | .processGood frame => hostCommand (.accept frame)
  | .reset => [.rst]
  | .times k line => (List.replicate k line.inputs).flatten

/-- What the host presents for a trace: its lines in order (R80). -/
def traceInputs (lines : List TraceLine) : List HostInput := (lines.map TraceLine.inputs).flatten

end Sys2Proof.Machine
end

