-- ==== Sys2Proof/Safety.lean ====
section
/-! DEFINITION. The terms claims use: the invariant of R37, ranges of floating-point values, what the host
sees of a run, and the micro-operations of each branch in the order the rules list them. -/

namespace Sys2Proof.Machine

variable {P : Params}

/-! ### The invariant between commands (R37, 10_state.md) -/

/-- The window registers of a primed block (R37 items 3 and 4): period `p`, window of `k` periods, cursor `c`.
The part of `saved_tail` a rule reads is written. -/
structure WindowOk (s : StateOf P) (p k c : Nat) : Prop where
  periodLow : 40 ≤ p
  periodHigh : p ≤ 120
  periodsLow : 1 ≤ k
  periodsHigh : k ≤ 3
  cursorInside : c < k * p
  registers : s.win = ⟨some p, some (p / 4), some (k * p), some (390 - k * p), some c⟩
  tailWritten : ∀ i, i < p / 4 → ∃ v, s.mem.savedTail[i]? = some (some v)
  afterOne : s.erasureCount = 1 → k = 1
  afterTwo : s.erasureCount = 2 → k = 2
  afterMore : 3 ≤ s.erasureCount → k = 3

/-- What holds of the registers while no `InvariantFault` has made them unspecified (R29, R37 items 2 to 4). -/
structure RegistersOk (s : StateOf P) : Prop where
  whenUnprimed : s.primed = false → s.erasureCount = 0 ∧ s.win = Window.unwritten
  whenPrimed : s.primed = true → ∃ p k c, WindowOk s p k c

/-- The invariant of the machine between steps: lengths (R37 item 1), an IDLE sequencer (R30, R35), a count of
`W_EC` bits (R28), response frames of 80 samples (R72), and the registers, unless an `InvariantFault` has made them unspecified (R210). -/
structure Inv (s : StateOf P) : Prop where
  memory : s.mem.wf = true
  buffers : s.work.wf = true
  idle : s.phase = 0#4
  noOperand : s.operand = 0#9
  count : s.erasureCount ≤ P.countMax
  frameBuses : s.rsp.frame.length = 80 ∧ s.rsp.raw.length = 80
  registers : s.fault ≠ .invariant → RegistersOk s

/-! ### Values of `pitch_buffer` and `saved_tail` (R22, R37 item 5) -/

/-- A number in [-32768, 32767]: not a NaN, and so not an infinity either. -/
def inRange {F : FpFormat} (x : FpOf F) : Bool := fge x satLo && fge satHi x

/-- Every element of `pitch_buffer` and every written element of `saved_tail` is in range, unless an
`InvariantFault` has made them unspecified (R210). -/
def ValuesInRange (s : StateOf P) : Prop :=
  s.fault ≠ .invariant →
    (∀ x ∈ s.mem.pitchBuffer, inRange x = true) ∧ (∀ x, some x ∈ s.mem.savedTail → inRange x = true)

/-! ### What the host sees -/

/-- The responses presented in the next `n` steps, in order (R73). -/
def responses : Nat → State → List Response
  | 0, _ => []
  | n + 1, s =>
    match step s with
    | .next t => (if t.rsp.valid then [t.rsp] else []) ++ responses n t
    | .fault _ => []
    | .refused _ => []

/-- Run `n` steps. -/
def runSteps : Nat → State → Host.Outcome State Fault Refusal
  | 0, s => .next s
  | n + 1, s =>
    match step s with
    | .next t => runSteps n t
    | .fault r => .fault r
    | .refused r => .refused r

/-! ### The windows of the pitch search -/

/-- The reference window `pitch_buffer[110..390)` (R111). -/
def referenceOf (s : StateOf P) : List (FP P) := (s.mem.pitchBuffer.drop 110).take 280

/-- The target window `pitch_buffer[230..390)` (R111). -/
def targetOf (s : StateOf P) : List (FP P) := (s.mem.pitchBuffer.drop 230).take 160

/-! ### The micro-operations of a branch -/

/-- `overlap_span`, for states in which it holds a value. -/
def spanOf (s : StateOf P) : Nat := s.win.overlapSpan.getD 0

/-- The micro-operations of each branch in the order of R170, R172, R173, R174 and R177; an operand is taken
from the state in which the micro-operation starts. COMMIT_AND_OUT follows in every frame command. -/
def microProgram : Branch → List (State → Instr)
  | .pass => []
  | .onset =>
    [fun _ => .widenHistory, fun _ => .findpitchCoarse, fun _ => .findpitchFine, fun s => .prime (pitchResult s),
     fun _ => .snapshotTail, fun _ => .olaTail, fun _ => .writebackTail, fun _ => .pull .obuf 80]
  | .extend =>
    [fun s => .pull .tmp (spanOf s), fun _ => .grow, fun _ => .olaTail, fun _ => .restoreCursor,
     fun _ => .pull .obuf 80, fun _ => .olaFrame, fun _ => .scale]
  | .steady => [fun _ => .pull .obuf 80, fun _ => .scale]
  | .mute => [fun _ => .zeroFrame]
  | .reconcile =>
    [fun s => .pull .synth (olenOf s.erasureCount (spanOf s)),
     fun s => .reconcileBlend (olenOf s.erasureCount (spanOf s))]
  | .construct => []
  | .none => []

/-- Run micro-operations one after another through `exec`. -/
def runMicros : List (State → Instr) → State → Host.Outcome State Fault Refusal
  | [], s => .next s
  | f :: rest, s =>
    match exec (f s) s with
    | .next t => runMicros rest t
    | .fault r => .fault r
    | .refused r => .refused r

/-- What a branch does before its first micro-operation: EXTEND saves the cursor (R172). -/
def branchStart (b : Branch) (s : State) : State :=
  match b with
  | .extend => { s with work := { s.work with saveCursor := s.win.readCursor.getD 0 } }
  | .pass => s
  | .onset => s
  | .steady => s
  | .mute => s
  | .reconcile => s
  | .construct => s
  | .none => s

end Sys2Proof.Machine
end

