-- ==== Sys2Proof/Certificates/Slice0/Obligations.lean ====
section
/-! DEFINITION. The statements for the provers. OBLIGATIONS.json lists each with the rules of spec/ it
formalises. -/

open Sys2Proof Sys2Proof.Machine

/-! ### The formulas of the rules, written out from their pseudocode -/

namespace Sys2Proof.Formula

/-- Element `i` of `blend` over `n` elements (R94). -/
def blendAt (n i : Nat) (l r : FP) : FP :=
  clamp (fadd (fmul l (fsub (fp 1) (fdiv (fp i) (fp n)))) (fmul r (fdiv (fp i) (fp n))))

/-- Element `i` of RECONCILE_BLEND over `n` elements with gain `g` (R154). -/
def reconcileAt (g : FP) (n i : Nat) (synth real : Sample) : Sample :=
  narrow (clamp (fadd (fmul (widen synth) (fmul (fsub (fp 1) (fdiv (fp i) (fp n))) g))
    (fmul (widen real) (fdiv (fp i) (fp n)))))

/-- The sample `k` places from cursor `c` in a window of `len` from `start` (R134). -/
def pulledAt (pb : List FP) (start len c k : Nat) : Option Sample := (pb[start + (c + k) % len]?).map narrow

/-- The sample SCALE writes at offset `i` of erasure number `n` (R152). -/
def scaledAt (n i : Nat) (x : Sample) : Sample := truncSample (fmul (widen x) (gainAt n i) : FP)

/-! The pitch search (R111 to R116), with `pitch_buffer` read as R111 indexes it. -/

/-- `ref[k]` (R111). -/
def refAt (s : State) (k : Nat) : FP := s.mem.pitchBuffer.getD (110 + k) (fp 0)

/-- `tgt[i]` (R111). -/
def tgtAt (s : State) (i : Nat) : FP := s.mem.pitchBuffer.getD (230 + i) (fp 0)

/-- A sum of products over `terms` values of `i` in ascending order, one accumulator from `+0.0` (R112). -/
def sumOf (terms : Nat) (x y : Nat → FP) : FP :=
  (List.range terms).foldl (fun acc i => fadd acc (fmul (x i) (y i))) (fp 0)

/-- `corr_coarse(j)`: `i` = 0, 2, ..., 158 (R112). -/
def corrCoarseAt (s : State) (j : Nat) : FP := sumOf 80 (fun k => refAt s (j + 2 * k)) (fun k => tgtAt s (2 * k))

/-- `corr_fine(j)`: `i` = 0, 1, ..., 159 (R112). -/
def corrFineAt (s : State) (j : Nat) : FP := sumOf 160 (fun i => refAt s (j + i)) (fun i => tgtAt s i)

/-- The coarse energy at lag `2 n`: `energy_coarse_init` (R113), then a step from lag `2 n` to lag `2 n + 2`, which
takes `ref[2 n]` out before it brings `ref[2 n + 161]` in (R114; 161 is the default of `COARSE_ENTER`, log 4). -/
def coarseEnergyAt (s : State) : Nat → FP
  | 0 => sumOf 80 (fun k => refAt s (2 * k)) (fun k => refAt s (2 * k))
  | n + 1 =>
    fadd (fsub (coarseEnergyAt s n) (fmul (refAt s (2 * n)) (refAt s (2 * n))))
      (fmul (refAt s (2 * n + 161)) (refAt s (2 * n + 161)))

/-- The fine energy at lag `lo + n`: `energy_fine_init` (R113), then a step to the next lag (R114). -/
def fineEnergyAt (s : State) (lo : Nat) : Nat → FP
  | 0 => sumOf 160 (fun i => refAt s (lo + i)) (fun i => refAt s (lo + i))
  | n + 1 =>
    fadd (fsub (fineEnergyAt s lo n) (fmul (refAt s (lo + n)) (refAt s (lo + n))))
      (fmul (refAt s (lo + n + 160)) (refAt s (lo + n + 160)))

/-- `score(c, e)` (R116). -/
def scoreAt (c e : FP) : FP := fdiv c (fsqrt (fmax e (fp 250)))

/-- The score of the coarse candidate at lag `2 n` (R115). -/
def coarseScoreAt (s : State) (n : Nat) : FP := scoreAt (corrCoarseAt s (2 * n)) (coarseEnergyAt s n)

/-- The score of the fine candidate at lag `lo + n` (R117). -/
def fineScoreAt (s : State) (lo n : Nat) : FP := scoreAt (corrFineAt s (lo + n)) (fineEnergyAt s lo n)

/-- The response of a command that answers `raw`, in the state after it (R73, R143). -/
def answers (s t : State) (raw : Block) : Prop :=
  t.rsp.valid = true ∧ t.rsp.raw = raw ∧ t.rsp.frame = s.mem.history.drop 360 ++ raw.take 50 ∧
    t.rsp.status = statusWord t

/-- A response of zero frames (R73). -/
def answersSilence (t : State) : Prop :=
  t.rsp.valid = true ∧ t.rsp.raw = List.replicate 80 0#16 ∧ t.rsp.frame = List.replicate 80 0#16 ∧
    t.rsp.status = statusWord t

/-- What every command leaves when it has answered: an IDLE sequencer (R178), the host's further commands, and
working registers of their sizes, whose content no rule gives (R35; log 7). -/
def commandDone (s t : State) : Prop :=
  t.phase = 0#4 ∧ t.operand = 0#9 ∧ t.inbox = s.inbox ∧ t.work.wf = true

/-- What fault entry leaves for the host to see after an `InvariantFault` (R205, R210). On a block that already holds a
fault the code written over it is the model's choice (log 22). -/
def entersInvariantFault (s t : State) : Prop :=
  t.fault = .invariant ∧ t.lastBranch = .none ∧ answersSilence t ∧ commandDone s t

/-- A window register file that holds values (R29): the block is primed. -/
def windowHolds (s : State) (p ov len start c : Nat) : Prop :=
  s.primed = true ∧ s.win = ⟨some p, some ov, some len, some start, some c⟩

/-- The values R232 states, but for `rsp_valid`; `cmd_ready` is 1 unless `rst` is 1 in that cycle too (R231). -/
def holdsResetValues (t : State) : Prop :=
  (∀ i, i < 390 → t.mem.history[i]? = some 0#16 ∧ t.mem.pitchBuffer[i]? = some (fp 0)) ∧
    t.mem.history.length = 390 ∧ t.mem.pitchBuffer.length = 390 ∧
    t.mem.savedTail.length = 30 ∧ (∀ i, i < 30 → t.mem.savedTail[i]? = some none) ∧
    t.win = ⟨none, none, none, none, none⟩ ∧ t.erasureCount = 0 ∧ t.primed = false ∧
    t.fault = .none ∧ t.lastBranch = .construct ∧ statusWord t = 0x00060000#32 ∧
    t.phase = 0#4 ∧ ((∀ rest, t.inbox ≠ .rst :: rest) → cmdReady t = true)

end Sys2Proof.Formula

open Sys2Proof.Formula

/-! ### Encoding -/

/-- R72, R74, R75, R78 (operand bits: log 11). -/
def Obligations.DecodeAndEncodeAgree : Prop :=
  ∀ i : Instr, i.wellFormed = true → decode (encode i) = .ok i

/-- Each micro-operation word the decoder accepts is the word of a well-formed instruction and of no other
(R78; the operand bits are the model's choice, log 11). -/
def Obligations.MicroWordsHaveOneMeaning : Prop :=
  ∀ (w : MicroWord) (i : Instr), decode (.micro w) = .ok i → i.wellFormed = true ∧ encode i = .micro w

/-- R72, R74: `op` in bits 1..0 and sample `i` in bits 16i+17..16i+2. -/
def Obligations.FrameLanesOfTheCommandWord : Prop :=
  ∀ frame : Block, frame.length = 80 →
    ∃ w : CommandWord, encode (.accept frame) = .command w ∧ w.extractLsb' 0 2 = 0#2 ∧
      ∀ i, i < 80 → frame[i]? = some (w.extractLsb' (16 * i + 2) 16)

/-- R75: the four opcodes; the frame bits are read by ACCEPT only (R74). -/
def Obligations.OpcodeMap : Prop :=
  ∀ w : CommandWord,
    (w.extractLsb' 0 2 = 0#2 → ∃ frame, decode (.command w) = .ok (.accept frame) ∧ frame.length = 80 ∧
      ∀ i, i < 80 → frame[i]? = some (w.extractLsb' (16 * i + 2) 16)) ∧
    (w.extractLsb' 0 2 = 1#2 → decode (.command w) = .ok .conceal) ∧
    (w.extractLsb' 0 2 = 2#2 → decode (.command w) = .ok .construct) ∧
    (w.extractLsb' 0 2 = 3#2 → decode (.command w) = .ok .reserved)

/-- Words written out bit by bit decode to what they stand for: command words from the tables of R72 and R75,
micro-operation words from the codes of R78 with operand bits of zero in the model's own layout (log 11). -/
def Obligations.WrittenOutWordsDecode : Prop :=
  decode (.command 1#1282) = .ok .conceal ∧ decode (.command 2#1282) = .ok .construct ∧
    decode (.command 3#1282) = .ok .reserved ∧
    decode (.command (4 * 0x00030002#1282)) = .ok (.accept (2#16 :: 3#16 :: List.replicate 78 0#16)) ∧
    decode (.micro 0b0000000000001#13) = .ok .widenHistory ∧ decode (.micro 0b0000000001111#13) = .ok .commitAndOut ∧
    decode (.micro 0b0000000001100#13) = .ok .scale ∧ decode (.micro 0b0000000000010#13) = .ok .findpitchCoarse

/-! ### Steps -/

/-- R71, R14: an IDLE block takes the command the host offers and runs it. The last response is no longer
presented; what its buses hold then, and the model's own counter, are left open (R73; log 8, log 10). -/
def Obligations.StepRunsTheOfferedCommand : Prop :=
  ∀ (s : State) (w : CommandWord) (rest : List HostInput) (i : Instr),
    s.phase = 0#4 → s.inbox = .command w :: rest → decode (.command w) = .ok i →
      ∃ (r : Response) (k : Nat), r.valid = false ∧
        step s = exec i { s with inbox := rest, rsp := r, freeIdx := k }

/-- R35, R78 (how a micro-operation stands in the sequencer: log 1, log 11). -/
def Obligations.StepRunsTheMicroOperation : Prop :=
  ∀ (s : State) (i : Instr), (∀ rest, s.inbox ≠ .rst :: rest) → s.phase ≠ 0#4 →
    decode (.micro (s.operand ++ s.phase)) = .ok i →
      ∃ (r : Response) (k : Nat), r.valid = false ∧
        step s = exec i { s with phase := 0#4, operand := 0#9, rsp := r, freeIdx := k }

/-- R230, R231, R232: whatever is in flight, `rst` gives the reset state and no response; `cmd_ready` is 0 in its
cycle. The working registers and the quiet buses are at the model's values (log 7, log 8). -/
def Obligations.RstHasPriority : Prop :=
  ∀ (s : State) (rest : List HostInput), s.inbox = .rst :: rest →
    cmdReady s = false ∧ step s = .next { State.reset with inbox := rest, freeIdx := s.freeIdx }

/-- R165: between commands nothing changes; the last response is no longer presented (R71). -/
def Obligations.IdleStepChangesNothing : Prop :=
  ∀ s : State, s.inbox = [] → s.phase = 0#4 → s.operand = 0#9 →
    ∃ (r : Response) (k : Nat), r.valid = false ∧ step s = .next { s with rsp := r, freeIdx := k }

/-! ### Reset -/

/-- R232: `rst` and CONSTRUCT leave the values the rule states. `rsp_valid` is 0 after `rst`, and after CONSTRUCT
once its response has been presented. -/
def Obligations.ResetLeavesTheStatedValues : Prop :=
  holdsResetValues State.reset ∧ State.reset.rsp.valid = false ∧
    (∀ (s : State) (rest : List HostInput), s.inbox = .rst :: rest →
      ∃ t, step s = .next t ∧ holdsResetValues t ∧ t.rsp.valid = false) ∧
    (∀ s : State, ∃ t, exec .construct s = .next t ∧ holdsResetValues t ∧
      (t.inbox = [] → ∃ u, step t = .next u ∧ holdsResetValues u ∧ u.rsp.valid = false))

/-- R37 at reset. -/
def Obligations.ResetMeetsTheInvariant : Prop := Inv State.reset

/-- R22, R37 item 5 at reset. -/
def Obligations.ResetValuesAreInRange : Prop := ValuesInRange State.reset

/-! ### The invariant (R37), the absence of `InvariantFault` (R139), the range of the values (R22) -/

/-- R37, R27, R28, R30: every step keeps the invariant, from every state that has it (the bound of the count is
that of `W_EC` = 8, log 4). -/
def Obligations.EveryStepKeepsTheInvariant : Prop :=
  ∀ s t : State, Inv s → step s = .next t → Inv t

/-- R139, R204: from a state with the invariant every step goes on and raises no `InvariantFault`; so no
sequence of host inputs from reset does. -/
def Obligations.NoStepRaisesInvariantFault : Prop :=
  (∀ s : State, Inv s → s.fault ≠ .invariant → ∃ t, step s = .next t ∧ t.fault ≠ .invariant) ∧
    (∀ (inputs : List HostInput) (n : Nat),
      ∃ t, runSteps n { State.reset with inbox := inputs } = .next t ∧ t.fault ≠ .invariant)

/-- R22, R37 item 5: the elements of `pitch_buffer` and the written ones of `saved_tail` stay finite and inside
the `int16` range. -/
def Obligations.PitchBufferStaysInRange : Prop :=
  ∀ s t : State, Inv s → ValuesInRange s → step s = .next t → ValuesInRange t

/-! ### Status -/

/-- R33: the fields of STATUS, its value at reset, and that each response carries it. -/
def Obligations.StatusWordFields : Prop :=
  ∀ s : State,
    (statusWord s).extractLsb' 0 8 = BitVec.ofNat 8 (min s.erasureCount 255) ∧
    (s.primed = false → (statusWord s).extractLsb' 8 7 = 0#7) ∧
    (∀ p, s.primed = true → s.win.pitchPeriod = some p → (statusWord s).extractLsb' 8 7 = BitVec.ofNat 7 p) ∧
    (statusWord s).extractLsb' 15 1 = (if s.primed then 1#1 else 0#1) ∧
    (statusWord s).extractLsb' 16 3 =
      (match s.lastBranch with
        | .pass => 0#3 | .onset => 1#3 | .extend => 2#3 | .steady => 3#3
        | .mute => 4#3 | .reconcile => 5#3 | .construct => 6#3 | .none => 7#3) ∧
    (statusWord s).extractLsb' 19 2 =
      (match s.fault with | .none => 0#2 | .illegalCmd => 1#2 | .invariant => 2#2) ∧
    (statusWord s).extractLsb' 21 11 = 0#11 ∧
    statusWord State.reset = 0x00060000#32 ∧ (respond s).rsp.status = statusWord (respond s)

/-! ### Dispatch -/

/-- R166: the dispatch table and the branch codes. -/
def Obligations.DispatchTable : Prop :=
  [Branch.pass, .onset, .extend, .steady, .mute, .reconcile, .construct, .none].map Branch.code =
      [0#3, 1#3, 2#3, 3#3, 4#3, 5#3, 6#3, 7#3] ∧
  ∀ (fault : FaultCode) (count : Nat),
    dispatch .construct fault count = .run .construct ∧
    (fault ≠ .none → dispatch .accept fault count = .run .none ∧ dispatch .conceal fault count = .run .none ∧
      dispatch .reserved fault count = .run .none) ∧
    dispatch .reserved .none count = .illegal ∧
    (count = 0 → dispatch .accept .none count = .run .pass ∧ dispatch .conceal .none count = .run .onset) ∧
    (1 ≤ count → dispatch .accept .none count = .run .reconcile) ∧
    (1 ≤ count → count ≤ 2 → dispatch .conceal .none count = .run .extend) ∧
    (3 ≤ count → count ≤ 5 → dispatch .conceal .none count = .run .steady) ∧
    (6 ≤ count → dispatch .conceal .none count = .run .mute)

/-- R167, R175, R28: what the commands do to the count, and so to the named state; the branch they report. The
count stops at 255 because `W_EC` is 8 in this model (log 4). -/
def Obligations.CommandsMoveTheNamedState : Prop :=
  ∀ (s : State) (frame : Block), Inv s → s.fault = .none → frame.length = 80 →
    (∃ t, exec .conceal s = .next t ∧ t.erasureCount = min (s.erasureCount + 1) 255 ∧
      t.lastBranch = (if s.erasureCount = 0 then .onset else if s.erasureCount ≤ 2 then .extend
        else if s.erasureCount ≤ 5 then .steady else .mute) ∧
      namedState t.erasureCount = (if s.erasureCount = 0 then .burstOnset
        else if s.erasureCount ≤ 2 then .extending s.erasureCount
        else if s.erasureCount ≤ 5 then .steadyRepeat else .muted)) ∧
    (∃ t, exec (.accept frame) s = .next t ∧ t.erasureCount = 0 ∧
      t.lastBranch = (if s.erasureCount = 0 then .pass else .reconcile) ∧ namedState t.erasureCount = .idle) ∧
    (∃ t, exec .construct s = .next t ∧ t.erasureCount = 0 ∧ t.lastBranch = .construct ∧
      namedState t.erasureCount = .idle)

/-! ### ACCEPT -/

/-- R176, R131, R143, R73: a good frame outside a burst is committed unchanged. -/
def Obligations.PassCommitsTheFrame : Prop :=
  ∀ (s : State) (frame : Block), s.fault = .none → s.erasureCount = 0 → s.mem.wf = true → frame.length = 80 →
    ∃ t, exec (.accept frame) s = .next t ∧
      t.mem = { s.mem with history := s.mem.history.drop 80 ++ frame } ∧ answers s t frame ∧
      t.win = s.win ∧ t.primed = s.primed ∧ t.erasureCount = 0 ∧ t.fault = .none ∧ t.lastBranch = .pass ∧
      commandDone s t

/-- R177, R153, R154: the first good frame after a burst is cross-faded with what the window would have
played next. -/
def Obligations.ReconcileBlendsTheFrame : Prop :=
  ∀ (s : State) (frame : Block) (p ov len start c : Nat), Inv s → s.fault = .none → 1 ≤ s.erasureCount →
    frame.length = 80 → windowHolds s p ov len start c →
      ∃ (t : State) (synth raw : Block),
        exec (.accept frame) s = .next t ∧
        synth.length = min (ov + (s.erasureCount - 1) * 32) 80 ∧
        (∀ k, k < synth.length → synth[k]? = pulledAt s.mem.pitchBuffer start len c k) ∧
        raw.length = 80 ∧
        (∀ i x y, synth[i]? = some x → frame[i]? = some y →
          raw[i]? = some (reconcileAt (fmax (gain0 s.erasureCount) (fp 0)) synth.length i x y)) ∧
        (∀ i, synth.length ≤ i → raw[i]? = frame[i]?) ∧
        answers s t raw ∧
        t.mem = { s.mem with history := s.mem.history.drop 80 ++ raw } ∧
        t.win = { s.win with readCursor := some ((c + synth.length) % len) } ∧
        t.erasureCount = 0 ∧ t.primed = true ∧ t.fault = .none ∧ t.lastBranch = .reconcile ∧
        commandDone s t

/-! ### CONCEAL -/

/-- R170, R132, R136, R138, R140, R141, R134, R175: burst onset. The period is the one the two searches find
on the widened history (R118). -/
def Obligations.OnsetPrimesAndPlays : Prop :=
  ∀ s : State, Inv s → s.fault = .none → s.erasureCount = 0 →
    ∃ (t u : State) (p : Nat) (raw : Block) (h : List Sample),
      exec .conceal s = .next t ∧
      u.mem.pitchBuffer = s.mem.history.map widen ∧
      (∃ v w, exec .findpitchCoarse u = .next v ∧ exec .findpitchFine v = .next w ∧ p = 120 - w.work.bestLag) ∧
      40 ≤ p ∧ p ≤ 120 ∧
      (∀ i, i < p / 4 → t.mem.savedTail[i]? = ((s.mem.history.map widen)[390 - p / 4 + i]?).map some) ∧
      (∀ i, p / 4 ≤ i → t.mem.savedTail[i]? = s.mem.savedTail[i]?) ∧
      t.mem.pitchBuffer.length = 390 ∧
      (∀ i, i < 390 - p / 4 → t.mem.pitchBuffer[i]? = (s.mem.history.map widen)[i]?) ∧
      (∀ i x y, i < p / 4 → (s.mem.history.map widen)[390 - p / 4 + i]? = some x →
        (s.mem.history.map widen)[390 - p - p / 4 + i]? = some y →
        t.mem.pitchBuffer[390 - p / 4 + i]? = some (blendAt (p / 4) i x y)) ∧
      h.length = 390 ∧
      (∀ i, i < 390 - p / 4 → h[i]? = s.mem.history[i]?) ∧
      (∀ i, 390 - p / 4 ≤ i → h[i]? = (t.mem.pitchBuffer[i]?).map narrow) ∧
      raw.length = 80 ∧
      (∀ k, k < 80 → raw[k]? = pulledAt t.mem.pitchBuffer (390 - p) p 0 k) ∧
      t.mem.history = h.drop 80 ++ raw ∧
      t.rsp.valid = true ∧ t.rsp.raw = raw ∧ t.rsp.frame = h.drop 360 ++ raw.take 50 ∧ t.rsp.status = statusWord t ∧
      t.win = ⟨some p, some (p / 4), some p, some (390 - p), some (80 % p)⟩ ∧
      t.primed = true ∧ t.erasureCount = 1 ∧ t.fault = .none ∧ t.lastBranch = .onset ∧
      commandDone s t

/-- R172, R137, R140, R142, R97, R152, R175: the second and third lost frames grow the window. -/
def Obligations.ExtendGrowsTheWindow : Prop :=
  ∀ (s : State) (p ov len start c : Nat), Inv s → s.fault = .none → 1 ≤ s.erasureCount → s.erasureCount ≤ 2 →
    windowHolds s p ov len start c →
      ∃ (t : State) (tmp pulled raw : Block),
        exec .conceal s = .next t ∧
        tmp.length = ov ∧ (∀ k, k < ov → tmp[k]? = pulledAt s.mem.pitchBuffer start len c k) ∧
        t.mem.pitchBuffer.length = 390 ∧
        (∀ i, i < 390 - ov → t.mem.pitchBuffer[i]? = s.mem.pitchBuffer[i]?) ∧
        (∀ i x y, i < ov → s.mem.savedTail[i]? = some (some x) →
          s.mem.pitchBuffer[390 - (len + p) - ov + i]? = some y →
          t.mem.pitchBuffer[390 - ov + i]? = some (blendAt ov i x y)) ∧
        pulled.length = 80 ∧
        (∀ k, k < 80 → pulled[k]? = pulledAt t.mem.pitchBuffer (390 - (len + p)) (len + p) (c % p) k) ∧
        raw.length = 80 ∧
        (∀ i x y, tmp[i]? = some x → pulled[i]? = some y →
          raw[i]? = some (scaledAt s.erasureCount i (narrow (blendAt ov i (widen x) (widen y))))) ∧
        (∀ i y, ov ≤ i → pulled[i]? = some y → raw[i]? = some (scaledAt s.erasureCount i y)) ∧
        answers s t raw ∧
        t.mem.history = s.mem.history.drop 80 ++ raw ∧ t.mem.savedTail = s.mem.savedTail ∧
        t.win = ⟨some p, some ov, some (len + p), some (390 - (len + p)), some ((c % p + 80) % (len + p))⟩ ∧
        t.primed = true ∧ t.erasureCount = s.erasureCount + 1 ∧ t.fault = .none ∧ t.lastBranch = .extend ∧
        commandDone s t

/-- R173, R134, R152, R175: steady repetition with attenuation. -/
def Obligations.SteadyRepeatsTheWindow : Prop :=
  ∀ (s : State) (p ov len start c : Nat), Inv s → s.fault = .none → 3 ≤ s.erasureCount → s.erasureCount ≤ 5 →
    windowHolds s p ov len start c →
      ∃ (t : State) (raw : Block),
        exec .conceal s = .next t ∧
        raw.length = 80 ∧
        (∀ i, i < 80 → raw[i]? = (pulledAt s.mem.pitchBuffer start len c i).map (scaledAt s.erasureCount i)) ∧
        answers s t raw ∧
        t.mem = { s.mem with history := s.mem.history.drop 80 ++ raw } ∧
        t.win = { s.win with readCursor := some ((c + 80) % (3 * p)) } ∧
        t.primed = true ∧ t.erasureCount = s.erasureCount + 1 ∧ t.fault = .none ∧ t.lastBranch = .steady ∧
        commandDone s t

/-- R174, R175, R28: a muted frame is silent, is committed, and touches no window register. The count stops at 255
because `W_EC` is 8 in this model (log 4). -/
def Obligations.MuteEmitsSilence : Prop :=
  ∀ s : State, s.fault = .none → 6 ≤ s.erasureCount → s.mem.wf = true →
    ∃ t, exec .conceal s = .next t ∧
      t.mem = { s.mem with history := s.mem.history.drop 80 ++ List.replicate 80 0#16 } ∧
      answers s t (List.replicate 80 0#16) ∧
      t.win = s.win ∧ t.primed = s.primed ∧ t.erasureCount = min (s.erasureCount + 1) 255 ∧ t.fault = .none ∧
      t.lastBranch = .mute ∧ commandDone s t

/-- R170 (corner case), R115, R117: a loss on an all-zero history finds period 41 and plays silence. -/
def Obligations.SilentHistoryGivesSilence : Prop :=
  ∀ s : State, Inv s → s.fault = .none → s.erasureCount = 0 → s.mem.history = List.replicate 390 0#16 →
    ∃ t, exec .conceal s = .next t ∧
      t.win = ⟨some 41, some 10, some 41, some 349, some 39⟩ ∧
      t.rsp.raw = List.replicate 80 0#16 ∧ t.rsp.frame = List.replicate 80 0#16 ∧
      t.mem.history = List.replicate 390 0#16

/-! ### CONSTRUCT, the reserved opcode, faults and refusals -/

/-- R168, R73: CONSTRUCT gives the reset values in every state and answers with zero frames. -/
def Obligations.ConstructGivesTheResetState : Prop :=
  ∀ s : State, ∃ (w : Work Params.standard) (k : Nat), w.wf = true ∧
    exec .construct s = .next
      { State.reset with
        work := w, inbox := s.inbox, freeIdx := k
        rsp := ⟨true, List.replicate 80 0#16, List.replicate 80 0#16, 0x00060000#32⟩ }

/-- R76, R203, R205: the reserved opcode raises `IllegalCommand`, and nothing but `fault` and `last_branch`
changes. -/
def Obligations.ReservedOpcodeIsIllegal : Prop :=
  ∀ s : State, s.fault = .none →
    ∃ t, exec .reserved s = .next t ∧ t.fault = .illegalCmd ∧ t.lastBranch = .none ∧ answersSilence t ∧
      t.mem = s.mem ∧ t.win = s.win ∧ t.primed = s.primed ∧ t.erasureCount = s.erasureCount ∧ commandDone s t

/-- R206: while faulted, ACCEPT, CONCEAL and the reserved opcode change `last_branch` and answer with zero
frames. -/
def Obligations.FaultedBlockRefuses : Prop :=
  ∀ (s : State) (i : Instr), s.fault ≠ .none → ((∃ frame, i = .accept frame) ∨ i = .conceal ∨ i = .reserved) →
    ∃ t, exec i s = .next t ∧ t.fault = s.fault ∧ t.lastBranch = .none ∧ answersSilence t ∧
      t.mem = s.mem ∧ t.win = s.win ∧ t.primed = s.primed ∧ t.erasureCount = s.erasureCount ∧ commandDone s t

/-- R32, R207, R209: a recorded fault stays as it is until CONSTRUCT or `rst`, which clear it. -/
def Obligations.FaultIsStickyUntilConstruct : Prop :=
  ∀ s t : State, s.phase = 0#4 → s.operand = 0#9 → s.fault ≠ .none → step s = .next t →
    t.fault = s.fault ∨
      (t.fault = .none ∧ ((∃ rest, s.inbox = .rst :: rest) ∨
        ∃ w rest, s.inbox = .command w :: rest ∧ decode (.command w) = .ok .construct))

/-- R29, R204, R205: on an unprimed block every micro-operation that reads a window register raises
`InvariantFault`; its entry is taken, also where a fault is recorded already (the model's choice, log 22). -/
def Obligations.UnprimedReadsFault : Prop :=
  ∀ (s : State) (i : Instr), s.primed = false →
    (i = .snapshotTail ∨ i = .olaTail ∨ i = .writebackTail ∨ i = .grow ∨ i = .restoreCursor ∨ i = .olaFrame ∨
      ∃ dst n, n ≠ 0 ∧ i = .pull dst n) →
    ∃ t, exec i s = .next t ∧ entersInvariantFault s t

/-- R53, R134, R138, R140, R141, R204: an index outside its array raises `InvariantFault`; nothing is clamped or
wrapped. A PULL faults at its first sample outside `pitch_buffer`, wherever in the pull it comes; from a cursor
outside the window the cursor only climbs. GROW past the buffer, OLA_FRAME past `tmp` and FINDPITCH_FINE from a lag
that no coarse stage leaves are the model's readings (log 13, log 12, log 20); so is the code that stays where a
fault is recorded already (log 22). -/
def Obligations.IndexOutsideTheArrayFaults : Prop :=
  (∀ (s : State) (p ov len start c : Nat), windowHolds s p ov len start c →
    (start < ov → ∃ t, exec .olaTail s = .next t ∧ entersInvariantFault s t) ∧
    (s.mem.wf = true → 30 < ov → ∃ t, exec .olaTail s = .next t ∧ entersInvariantFault s t) ∧
    (s.mem.wf = true → 390 < start → ov ≠ 0 → ∃ t, exec .olaTail s = .next t ∧ entersInvariantFault s t) ∧
    (s.mem.wf = true → 30 < ov → ∃ t, exec .snapshotTail s = .next t ∧ entersInvariantFault s t) ∧
    (s.mem.wf = true → 390 < ov → ∃ t, exec .writebackTail s = .next t ∧ entersInvariantFault s t) ∧
    (∀ dst n k, k < n → c < len → s.mem.pitchBuffer.length ≤ start + (c + k) % len →
      ∃ t, exec (.pull dst n) s = .next t ∧ entersInvariantFault s t) ∧
    (∀ dst n k, k < n → len ≤ c → s.mem.pitchBuffer.length ≤ start + (c + k) →
      ∃ t, exec (.pull dst n) s = .next t ∧ entersInvariantFault s t) ∧
    (390 < len + p → ∃ t, exec .grow s = .next t ∧ entersInvariantFault s t) ∧
    (s.work.wf = true → 30 < ov → ∃ t, exec .olaFrame s = .next t ∧ entersInvariantFault s t)) ∧
  (∀ s : State, s.mem.wf = true → 122 ≤ s.work.bestLag →
    ∃ t, exec .findpitchFine s = .next t ∧ entersInvariantFault s t)

/-! ### Micro-operations -/

/-- R165, R93. -/
def Obligations.IdleAndZeroFrame : Prop :=
  ∀ s : State, exec .idle s = .next s ∧
    exec .zeroFrame s = .next { s with work := { s.work with obuf := List.replicate 80 0#16 } }

/-- R132. -/
def Obligations.WidenHistoryRefreshesThePitchBuffer : Prop :=
  ∀ s : State, s.mem.wf = true →
    exec .widenHistory s = .next { s with mem := { s.mem with pitchBuffer := s.mem.history.map widen } }

/-- R115, R112 to R114, R116: the coarse winner is the candidate that no later one equals or beats, and, where
no score is a NaN, its score is at least every earlier one. `energy`, `corr`, `score` and `j` are left at the last
candidate, lag 80, and nothing but the correlator's registers changes. -/
def Obligations.CoarseSearchKeepsTheLatestBest : Prop :=
  ∀ s : State, s.mem.wf = true →
    ∃ (w : Work Params.standard) (n : Nat), exec .findpitchCoarse s = .next { s with work := w } ∧
      n ≤ 40 ∧ w.bestLag = 2 * n ∧ w.bestScore = coarseScoreAt s n ∧
      (∀ m, n < m → m ≤ 40 → fge (coarseScoreAt s m) (coarseScoreAt s n) = false) ∧
      ((∀ m, m ≤ 40 → Fp.isNaN (coarseScoreAt s m) = false) →
        ∀ m, m ≤ n → fge (coarseScoreAt s n) (coarseScoreAt s m) = true) ∧
      w.energy = coarseEnergyAt s 40 ∧ w.corr = corrCoarseAt s 80 ∧ w.score = coarseScoreAt s 40 ∧ w.j = 80 ∧
      w.obuf = s.work.obuf ∧ w.tmp = s.work.tmp ∧ w.synth = s.work.synth ∧ w.saveCursor = s.work.saveCursor ∧
      w.g = s.work.g ∧ w.lo = s.work.lo ∧ w.hi = s.work.hi

/-- R117, R112 to R114, R116: the fine winner is within one lag of the coarse one and inside 0..80; no later
candidate is above it, and, where no score is a NaN, every earlier one is below it. `energy`, `corr`, `score` and `j`
are left at the last candidate, lag `hi`, and nothing but the correlator's registers changes. -/
def Obligations.FineSearchKeepsTheEarliestBest : Prop :=
  ∀ s : State, s.mem.wf = true → s.work.bestLag ≤ 80 →
    ∃ (w : Work Params.standard) (n : Nat), exec .findpitchFine s = .next { s with work := w } ∧
      w.lo = s.work.bestLag - 1 ∧ w.hi = min (s.work.bestLag + 1) 80 ∧
      w.lo + n ≤ w.hi ∧ w.bestLag = w.lo + n ∧ w.bestScore = fineScoreAt s w.lo n ∧
      (∀ m, n < m → w.lo + m ≤ w.hi → flt (fineScoreAt s w.lo n) (fineScoreAt s w.lo m) = false) ∧
      ((∀ m, w.lo + m ≤ w.hi → Fp.isNaN (fineScoreAt s w.lo m) = false) →
        ∀ m, m < n → flt (fineScoreAt s w.lo m) (fineScoreAt s w.lo n) = true) ∧
      w.energy = fineEnergyAt s w.lo (w.hi - w.lo) ∧ w.corr = corrFineAt s w.hi ∧
      w.score = fineScoreAt s w.lo (w.hi - w.lo) ∧ w.j = w.hi ∧
      w.obuf = s.work.obuf ∧ w.tmp = s.work.tmp ∧ w.synth = s.work.synth ∧ w.saveCursor = s.work.saveCursor ∧
      w.g = s.work.g

/-- R118: for every content of `pitch_buffer` the two searches find a period of 40 to 120. -/
def Obligations.PitchIsAlwaysInRange : Prop :=
  ∀ s : State, s.mem.wf = true →
    ∃ u v, exec .findpitchCoarse s = .next u ∧ exec .findpitchFine u = .next v ∧
      v.work.bestLag ≤ 80 ∧ 40 ≤ 120 - v.work.bestLag ∧ 120 - v.work.bestLag ≤ 120

/-- R136, R171. -/
def Obligations.PrimeWritesTheWindow : Prop :=
  ∀ (s : State) (period : Nat),
    exec (.prime period) s = .next
      { s with
        win := ⟨some period, some (period / 4), some period, some (390 - period), some 0⟩
        primed := true }

/-- R138. -/
def Obligations.SnapshotTailCopiesTheTail : Prop :=
  ∀ (s : State) (p ov len start c : Nat), windowHolds s p ov len start c → s.mem.wf = true → ov ≤ 30 →
    ∃ tail : List (Option FP),
      exec .snapshotTail s = .next { s with mem := { s.mem with savedTail := tail } } ∧ tail.length = 30 ∧
      (∀ i, i < ov → tail[i]? = (s.mem.pitchBuffer[390 - ov + i]?).map some) ∧
      (∀ i, ov ≤ i → tail[i]? = s.mem.savedTail[i]?)

/-- R140, R94: only the last `ov` elements of `pitch_buffer` change. -/
def Obligations.OlaTailBlendsTheTail : Prop :=
  ∀ (s : State) (p ov len start c : Nat), windowHolds s p ov len start c → s.mem.wf = true → ov ≤ 30 →
    ov ≤ start → start ≤ 390 → (∀ i, i < ov → ∃ x, s.mem.savedTail[i]? = some (some x)) →
    ∃ pb : List FP,
      exec .olaTail s = .next { s with mem := { s.mem with pitchBuffer := pb } } ∧ pb.length = 390 ∧
      (∀ i, i < 390 - ov → pb[i]? = s.mem.pitchBuffer[i]?) ∧
      (∀ i x y, i < ov → s.mem.savedTail[i]? = some (some x) → s.mem.pitchBuffer[start - ov + i]? = some y →
        pb[390 - ov + i]? = some (blendAt ov i x y))

/-- R141, R92: only the last `ov` elements of `history` change. -/
def Obligations.WritebackTailNarrowsTheTail : Prop :=
  ∀ (s : State) (p ov len start c : Nat), windowHolds s p ov len start c → s.mem.wf = true → ov ≤ 390 →
    ∃ h : List Sample,
      exec .writebackTail s = .next { s with mem := { s.mem with history := h } } ∧ h.length = 390 ∧
      (∀ i, i < 390 - ov → h[i]? = s.mem.history[i]?) ∧
      (∀ i, 390 - ov ≤ i → h[i]? = (s.mem.pitchBuffer[i]?).map narrow)

/-- R134, R135: the samples come from the window in turn, round and round; only the destination and the cursor
change. -/
def Obligations.PullReadsTheWindowCircularly : Prop :=
  ∀ (s : State) (dst : PullDst) (n p ov len start c : Nat), windowHolds s p ov len start c → s.mem.wf = true →
    s.work.wf = true → c < len → start + len ≤ 390 → n ≤ dst.capacity →
    ∃ vs : Block, vs.length = n ∧ (∀ k, k < n → vs[k]? = pulledAt s.mem.pitchBuffer start len c k) ∧
      exec (.pull dst n) s = .next
        { s with
          work := s.work.setBuffer dst (vs ++ (s.work.buffer dst).drop n)
          win := { s.win with readCursor := some ((c + n) % len) } }

/-- R137. -/
def Obligations.GrowAddsOnePeriod : Prop :=
  ∀ (s : State) (p ov len start c : Nat), windowHolds s p ov len start c → len + p ≤ 390 →
    exec .grow s = .next
      { s with win := ⟨some p, some ov, some (len + p), some (390 - (len + p)), some c⟩ }

/-- R142. -/
def Obligations.RestoreCursorReducesTheSavedCursor : Prop :=
  ∀ (s : State) (p ov len start c : Nat), windowHolds s p ov len start c → 0 < p →
    exec .restoreCursor s = .next { s with win := { s.win with readCursor := some (s.work.saveCursor % p) } }

/-- R97, R95, R94: `tmp` fades out, `obuf` fades in; the rest of `obuf` and everything else is unchanged. -/
def Obligations.OlaFrameBlendsTheFrameStart : Prop :=
  ∀ (s : State) (p ov len start c : Nat), windowHolds s p ov len start c → s.work.wf = true → ov ≤ 30 →
    ∃ b : Block, exec .olaFrame s = .next { s with work := { s.work with obuf := b } } ∧ b.length = 80 ∧
      (∀ i x y, i < ov → s.work.tmp[i]? = some x → s.work.obuf[i]? = some y →
        b[i]? = some (narrow (blendAt ov i (widen x) (widen y)))) ∧
      (∀ i, ov ≤ i → b[i]? = s.work.obuf[i]?)

/-- R152: every sample is multiplied by its gain and truncated; `g` is left after the last decrement. -/
def Obligations.ScaleAppliesTheRamp : Prop :=
  ∀ s : State,
    ∃ b : Block,
      exec .scale s = .next
        { s with work := { s.work with obuf := b, g := gainAt s.erasureCount s.work.obuf.length } } ∧
      b.length = s.work.obuf.length ∧
      (∀ i, b[i]? = (s.work.obuf[i]?).map (scaledAt s.erasureCount i)) ∧
      (∀ i, (gainAt s.erasureCount (i + 1) : FP) = fsub (gainAt s.erasureCount i) attenIncr) ∧
      (gainAt s.erasureCount 0 : FP) = gain0 s.erasureCount

/-- R152: for erasure numbers 1 to 5 the product is never larger than the sample, so SCALE truncates an `int16`
and no free value is used. -/
def Obligations.ScaledSamplesNeedNoSaturation : Prop :=
  ∀ (x : Sample) (n i : Nat), 1 ≤ n → n ≤ 5 → i < 80 →
    ∃ k : Int, Fp.toInt? (fmul (widen x) (gainAt n i) : FP) = some k ∧ k.natAbs ≤ x.toInt.natAbs ∧
      (0 ≤ x.toInt → 0 ≤ k) ∧ (x.toInt ≤ 0 → k ≤ 0) ∧ scaledAt n i x = BitVec.ofInt 16 k

/-- R154, R177: the first `n` samples of `obuf` are the gain-scaled cross-fade; the rest and everything else is
unchanged. The gain is `gain0` for erasure numbers 1 to 5 and `+0.0` for every larger one that the register holds
(at most 255, log 4). -/
def Obligations.ReconcileBlendFadesIntoTheFrame : Prop :=
  (∀ n, 1 ≤ n → n ≤ 5 → fmax (gain0 n : FP) (fp 0) = gain0 n) ∧
  (∀ n, 6 ≤ n → n ≤ 255 → fmax (gain0 n : FP) (fp 0) = 0x00000000#32) ∧
  ∀ (s : State) (n : Nat), s.work.wf = true → n ≤ 80 →
    ∃ b : Block, exec (.reconcileBlend n) s = .next { s with work := { s.work with obuf := b } } ∧ b.length = 80 ∧
      (∀ i x y, i < n → s.work.synth[i]? = some x → s.work.obuf[i]? = some y →
        b[i]? = some (reconcileAt (fmax (gain0 s.erasureCount) (fp 0)) n i x y)) ∧
      (∀ i, n ≤ i → b[i]? = s.work.obuf[i]?)

/-- R131, R143: one frame left, the new frame at the end, the delayed and the raw frame on the buses. -/
def Obligations.CommitAndOutShiftsTheHistory : Prop :=
  ∀ s : State, s.mem.wf = true → s.work.wf = true →
    exec .commitAndOut s = .next
      { s with
        mem := { s.mem with history := s.mem.history.drop 80 ++ s.work.obuf }
        rsp := { s.rsp with frame := s.mem.history.drop 360 ++ s.work.obuf.take 50, raw := s.work.obuf } }

/-! ### Numbers -/

/-- R7: the bit patterns of the floating-point constants, and how `ATTENINCR` is computed. -/
def Obligations.FloatConstantBits : Prop :=
  (attenIncr : FP) = fdiv attenFac (fp 80) ∧ (corrMinPower : FP) = 0x437A0000#32 ∧ (attenFac : FP) = 0x3E4CCCCD#32 ∧
    (attenIncr : FP) = 0x3B23D70A#32 ∧ (satHi : FP) = 0x46FFFE00#32 ∧ (satLo : FP) = 0xC7000000#32

/-- R151: the formula and the table of start-of-frame gains and of the gains after 79 decrements; every count
above 6 that the register holds (at most 255, log 4) gives a negative gain. -/
def Obligations.GainTableBits : Prop :=
  (∀ n, 1 ≤ n → (gain0 n : FP) = fsub (fp 1) (fmul (fp (n - 1 : Nat)) attenFac)) ∧
  [1, 2, 3, 4, 5, 6, 7, 8].map (gain0 (F := Params.standard.fpFormat)) =
    [0x3F800000#32, 0x3F4CCCCD#32, 0x3F19999A#32, 0x3ECCCCCC#32, 0x3E4CCCCC#32, 0x00000000#32, 0xBE4CCCD0#32,
      0xBECCCCCC#32] ∧
  [1, 2, 3, 4, 5].map (fun n => (gainAt n 79 : FP)) =
    [0x3F4D70A7#32, 0x3F1A3D74#32, 0x3ECE1482#32, 0x3E4F5C34#32, 0x3B23D8DA#32] ∧
  (∀ n, n < 256 → 7 ≤ n → flt (gain0 n : FP) (fp 0) = true)

/-- R155: the gain falls from one erasure number to the next at the same offset, falls inside a frame, and is
smallest, and still positive, at the last offset of erasure number 5. -/
def Obligations.GainFallsMonotonically : Prop :=
  (∀ n, n < 5 → 1 ≤ n → ∀ i, i < 80 → flt (gainAt (n + 1) i : FP) (gainAt n i) = true) ∧
    (∀ n, n < 6 → 1 ≤ n → ∀ i, i < 79 → flt (gainAt n (i + 1) : FP) (gainAt n i) = true) ∧
    (∀ n, n < 6 → 1 ≤ n → ∀ i, i < 80 → fge (gainAt n i : FP) (gainAt 5 79) = true) ∧
    (gainAt 5 79 : FP) = 0x3B23D8DA#32 ∧ flt (fp 0 : FP) (gainAt 5 79) = true

/-- R92: `narrow` saturates, rounds toward zero and gives 0 for a NaN. -/
def Obligations.NarrowSaturatesAndTruncates : Prop :=
  ∀ t : FP,
    (Fp.isNaN t = true → narrow t = 0#16) ∧
    (flt satHi t = true → narrow t = 32767#16) ∧
    (flt t satLo = true → narrow t = BitVec.ofInt 16 (-32768)) ∧
    (Fp.isNaN t = false → flt satHi t = false → flt t satLo = false →
      ∃ k : Int, Fp.toInt? t = some k ∧ -32768 ≤ k ∧ k ≤ 32767 ∧ (narrow t).toInt = k)

/-- R91, R92: every sample is held exactly, so narrowing gives it back. -/
def Obligations.NarrowUndoesWiden : Prop := ∀ x : Sample, narrow (widen x : FP) = x

/-- R95: a cross-fade of one sample is the left sample. -/
def Obligations.BlendOfOneSampleIsTheLeft : Prop := ∀ l r : Sample, blendS Params.standard.fpFormat [l] [r] 1 = [l]

/-! ### Whole runs and whole commands -/

/-- R144, R143: with no loss, the delayed stream is the input after 30 zeros, and the raw frames are the input. -/
def Obligations.DelayIsExactlyThirtySamples : Prop :=
  ∀ frames : List Block, (∀ f ∈ frames, f.length = 80) →
    let s : State := { State.reset with inbox := traceInputs (frames.map TraceLine.accept) }
    ((responses frames.length s).map (fun r => r.frame)).flatten =
        (List.replicate 30 0#16 ++ frames.flatten).take (80 * frames.length) ∧
      (responses frames.length s).map (fun r => r.raw) = frames

/-- R35, U24, U26: nothing a command does can be told from what the working registers or the response buses
held before it. -/
def Obligations.WorkingRegistersAreUnobservable : Prop :=
  ∀ (s : State) (i : Instr) (w : Work Params.standard) (r : Response),
    ((∃ frame, i = .accept frame ∧ frame.length = 80) ∨ i = .conceal ∨ i = .construct ∨ i = .reserved) →
    s.work.wf = true → w.wf = true → exec i { s with work := w, rsp := r } = exec i s

/-- R14, R170, R172 to R177: a frame command is its branch's micro-operations run one after another, then
COMMIT_AND_OUT with the new count and branch, then the response. The count stops at 255 because `W_EC` is 8 in
this model (log 4). -/
def Obligations.FrameCommandsAreTheirMicroOperations : Prop :=
  ∀ s : State, Inv s → s.fault = .none →
    (∃ u v, runMicros (microProgram (concealBranch s.erasureCount)) (branchStart (concealBranch s.erasureCount) s) =
          .next u ∧
        exec .commitAndOut
          { u with erasureCount := min (s.erasureCount + 1) 255, lastBranch := concealBranch s.erasureCount } =
            .next v ∧
        exec .conceal s = .next (respond v)) ∧
    (∀ frame : Block, frame.length = 80 →
      ∃ u v, runMicros (microProgram (acceptBranch s.erasureCount))
            (branchStart (acceptBranch s.erasureCount) (s.setObuf frame)) = .next u ∧
          exec .commitAndOut { u with erasureCount := 0, lastBranch := acceptBranch s.erasureCount } = .next v ∧
          exec (.accept frame) s = .next (respond v))

/-- R80, R81: what a trace stands for. -/
def Obligations.TracePseudoCommands : Prop :=
  ∀ (frame : Block) (k : Nat) (line : TraceLine),
    (TraceLine.processLost frame).inputs = TraceLine.conceal.inputs ∧
    (TraceLine.processGood frame).inputs = (TraceLine.accept frame).inputs ∧
    TraceLine.reset.inputs = [.rst] ∧
    TraceLine.conceal.inputs = [.command 1#1282] ∧ TraceLine.construct.inputs = [.command 2#1282] ∧
    TraceLine.reserved.inputs = [.command 3#1282] ∧
    (TraceLine.times k line).inputs = (List.replicate k line.inputs).flatten

/-- R71, R73, R241: a command accepted by an IDLE block is answered in the same step, a step without a command
gives a response only when an `InvariantFault` is entered, and every response carries the STATUS of the state
after it. That such a fault's code is the one recorded on a block that holds a fault already is the model's choice
(log 22). -/
def Obligations.EveryAcceptedCommandIsAnswered : Prop :=
  (∀ (s : State) (w : CommandWord) (rest : List HostInput), s.phase = 0#4 → s.inbox = .command w :: rest →
    ∃ t, step s = .next t ∧ t.rsp.valid = true ∧ t.rsp.status = statusWord t ∧ t.inbox = rest ∧ t.phase = 0#4) ∧
  (∀ s t : State, step s = .next t → t.rsp.valid = true →
    t.rsp.status = statusWord t ∧
      ((s.phase = 0#4 ∧ ∃ w rest, s.inbox = .command w :: rest) ∨ t.fault = .invariant))

/-- R52, R72, R70, R73, R33, R71, R231: a frame bus carries sample `i` in bits 16i+15..16i, and the outputs show the
state: `cmd_ready` is 1 exactly when the sequencer is IDLE and no `rst` is presented. After a command `rsp_valid` 1
stands beside `cmd_ready` 1, although R71 raises `cmd_ready` in the cycle after: the response is that of the step that
led to the state, and `cmd_ready` that of the cycle in which the next step begins (DEDUCED, log 17). -/
def Obligations.OutputPortsShowTheState : Prop :=
  (∀ b : Block, b.length = 80 → ∀ i, i < 80 → b[i]? = some ((frameBus b).extractLsb' (16 * i) 16)) ∧
  ∀ s : State,
    (ports s).rspFrame = frameBus s.rsp.frame ∧ (ports s).rspRaw = frameBus s.rsp.raw ∧
    (ports s).rspValid = s.rsp.valid ∧ (ports s).rspStatus = s.rsp.status ∧ (ports s).status = statusWord s ∧
    ((ports s).cmdReady = true ↔ s.phase = 0#4 ∧ ∀ rest, s.inbox ≠ .rst :: rest)
end

