-- ==== Sys2Proof/Laws/State.lean ====
section
/-! SUPPORT. One lemma per field per named state update, true by definition, so that no later proof unfolds a
record update. -/

namespace Sys2Proof.Machine

variable {P : Params} {F : FpFormat}

/-! ### `setHistory` -/

@[simp] theorem setHistory_mem (s : StateOf P) (h : List Sample) : (s.setHistory h).mem = { s.mem with history := h } := rfl
@[simp] theorem setHistory_win (s : StateOf P) (h : List Sample) : (s.setHistory h).win = s.win := rfl
@[simp] theorem setHistory_erasureCount (s : StateOf P) (h : List Sample) : (s.setHistory h).erasureCount = s.erasureCount := rfl
@[simp] theorem setHistory_primed (s : StateOf P) (h : List Sample) : (s.setHistory h).primed = s.primed := rfl
@[simp] theorem setHistory_fault (s : StateOf P) (h : List Sample) : (s.setHistory h).fault = s.fault := rfl
@[simp] theorem setHistory_lastBranch (s : StateOf P) (h : List Sample) : (s.setHistory h).lastBranch = s.lastBranch := rfl
@[simp] theorem setHistory_work (s : StateOf P) (h : List Sample) : (s.setHistory h).work = s.work := rfl
@[simp] theorem setHistory_phase (s : StateOf P) (h : List Sample) : (s.setHistory h).phase = s.phase := rfl
@[simp] theorem setHistory_operand (s : StateOf P) (h : List Sample) : (s.setHistory h).operand = s.operand := rfl
@[simp] theorem setHistory_rsp (s : StateOf P) (h : List Sample) : (s.setHistory h).rsp = s.rsp := rfl
@[simp] theorem setHistory_inbox (s : StateOf P) (h : List Sample) : (s.setHistory h).inbox = s.inbox := rfl
@[simp] theorem setHistory_freeIdx (s : StateOf P) (h : List Sample) : (s.setHistory h).freeIdx = s.freeIdx := rfl

/-! ### `setPitchBuffer` -/

@[simp] theorem setPitchBuffer_mem (s : StateOf P) (p : List (FP P)) : (s.setPitchBuffer p).mem = { s.mem with pitchBuffer := p } := rfl
@[simp] theorem setPitchBuffer_win (s : StateOf P) (p : List (FP P)) : (s.setPitchBuffer p).win = s.win := rfl
@[simp] theorem setPitchBuffer_erasureCount (s : StateOf P) (p : List (FP P)) : (s.setPitchBuffer p).erasureCount = s.erasureCount := rfl
@[simp] theorem setPitchBuffer_primed (s : StateOf P) (p : List (FP P)) : (s.setPitchBuffer p).primed = s.primed := rfl
@[simp] theorem setPitchBuffer_fault (s : StateOf P) (p : List (FP P)) : (s.setPitchBuffer p).fault = s.fault := rfl
@[simp] theorem setPitchBuffer_lastBranch (s : StateOf P) (p : List (FP P)) : (s.setPitchBuffer p).lastBranch = s.lastBranch := rfl
@[simp] theorem setPitchBuffer_work (s : StateOf P) (p : List (FP P)) : (s.setPitchBuffer p).work = s.work := rfl
@[simp] theorem setPitchBuffer_phase (s : StateOf P) (p : List (FP P)) : (s.setPitchBuffer p).phase = s.phase := rfl
@[simp] theorem setPitchBuffer_operand (s : StateOf P) (p : List (FP P)) : (s.setPitchBuffer p).operand = s.operand := rfl
@[simp] theorem setPitchBuffer_rsp (s : StateOf P) (p : List (FP P)) : (s.setPitchBuffer p).rsp = s.rsp := rfl
@[simp] theorem setPitchBuffer_inbox (s : StateOf P) (p : List (FP P)) : (s.setPitchBuffer p).inbox = s.inbox := rfl
@[simp] theorem setPitchBuffer_freeIdx (s : StateOf P) (p : List (FP P)) : (s.setPitchBuffer p).freeIdx = s.freeIdx := rfl

/-! ### `setSavedTail` -/

@[simp] theorem setSavedTail_mem (s : StateOf P) (t : List (Option (FP P))) : (s.setSavedTail t).mem = { s.mem with savedTail := t } := rfl
@[simp] theorem setSavedTail_win (s : StateOf P) (t : List (Option (FP P))) : (s.setSavedTail t).win = s.win := rfl
@[simp] theorem setSavedTail_erasureCount (s : StateOf P) (t : List (Option (FP P))) : (s.setSavedTail t).erasureCount = s.erasureCount := rfl
@[simp] theorem setSavedTail_primed (s : StateOf P) (t : List (Option (FP P))) : (s.setSavedTail t).primed = s.primed := rfl
@[simp] theorem setSavedTail_fault (s : StateOf P) (t : List (Option (FP P))) : (s.setSavedTail t).fault = s.fault := rfl
@[simp] theorem setSavedTail_lastBranch (s : StateOf P) (t : List (Option (FP P))) : (s.setSavedTail t).lastBranch = s.lastBranch := rfl
@[simp] theorem setSavedTail_work (s : StateOf P) (t : List (Option (FP P))) : (s.setSavedTail t).work = s.work := rfl
@[simp] theorem setSavedTail_phase (s : StateOf P) (t : List (Option (FP P))) : (s.setSavedTail t).phase = s.phase := rfl
@[simp] theorem setSavedTail_operand (s : StateOf P) (t : List (Option (FP P))) : (s.setSavedTail t).operand = s.operand := rfl
@[simp] theorem setSavedTail_rsp (s : StateOf P) (t : List (Option (FP P))) : (s.setSavedTail t).rsp = s.rsp := rfl
@[simp] theorem setSavedTail_inbox (s : StateOf P) (t : List (Option (FP P))) : (s.setSavedTail t).inbox = s.inbox := rfl
@[simp] theorem setSavedTail_freeIdx (s : StateOf P) (t : List (Option (FP P))) : (s.setSavedTail t).freeIdx = s.freeIdx := rfl

/-! ### `setCursor` -/

@[simp] theorem setCursor_mem (s : StateOf P) (c : Nat) : (s.setCursor c).mem = s.mem := rfl
@[simp] theorem setCursor_win (s : StateOf P) (c : Nat) : (s.setCursor c).win = { s.win with readCursor := some c } := rfl
@[simp] theorem setCursor_erasureCount (s : StateOf P) (c : Nat) : (s.setCursor c).erasureCount = s.erasureCount := rfl
@[simp] theorem setCursor_primed (s : StateOf P) (c : Nat) : (s.setCursor c).primed = s.primed := rfl
@[simp] theorem setCursor_fault (s : StateOf P) (c : Nat) : (s.setCursor c).fault = s.fault := rfl
@[simp] theorem setCursor_lastBranch (s : StateOf P) (c : Nat) : (s.setCursor c).lastBranch = s.lastBranch := rfl
@[simp] theorem setCursor_work (s : StateOf P) (c : Nat) : (s.setCursor c).work = s.work := rfl
@[simp] theorem setCursor_phase (s : StateOf P) (c : Nat) : (s.setCursor c).phase = s.phase := rfl
@[simp] theorem setCursor_operand (s : StateOf P) (c : Nat) : (s.setCursor c).operand = s.operand := rfl
@[simp] theorem setCursor_rsp (s : StateOf P) (c : Nat) : (s.setCursor c).rsp = s.rsp := rfl
@[simp] theorem setCursor_inbox (s : StateOf P) (c : Nat) : (s.setCursor c).inbox = s.inbox := rfl
@[simp] theorem setCursor_freeIdx (s : StateOf P) (c : Nat) : (s.setCursor c).freeIdx = s.freeIdx := rfl

/-! ### `setObuf` -/

@[simp] theorem setObuf_mem (s : StateOf P) (b : Block) : (s.setObuf b).mem = s.mem := rfl
@[simp] theorem setObuf_win (s : StateOf P) (b : Block) : (s.setObuf b).win = s.win := rfl
@[simp] theorem setObuf_erasureCount (s : StateOf P) (b : Block) : (s.setObuf b).erasureCount = s.erasureCount := rfl
@[simp] theorem setObuf_primed (s : StateOf P) (b : Block) : (s.setObuf b).primed = s.primed := rfl
@[simp] theorem setObuf_fault (s : StateOf P) (b : Block) : (s.setObuf b).fault = s.fault := rfl
@[simp] theorem setObuf_lastBranch (s : StateOf P) (b : Block) : (s.setObuf b).lastBranch = s.lastBranch := rfl
@[simp] theorem setObuf_work (s : StateOf P) (b : Block) : (s.setObuf b).work = { s.work with obuf := b } := rfl
@[simp] theorem setObuf_phase (s : StateOf P) (b : Block) : (s.setObuf b).phase = s.phase := rfl
@[simp] theorem setObuf_operand (s : StateOf P) (b : Block) : (s.setObuf b).operand = s.operand := rfl
@[simp] theorem setObuf_rsp (s : StateOf P) (b : Block) : (s.setObuf b).rsp = s.rsp := rfl
@[simp] theorem setObuf_inbox (s : StateOf P) (b : Block) : (s.setObuf b).inbox = s.inbox := rfl
@[simp] theorem setObuf_freeIdx (s : StateOf P) (b : Block) : (s.setObuf b).freeIdx = s.freeIdx := rfl

/-! ### `respond` -/

@[simp] theorem respond_mem (s : StateOf P) : (respond s).mem = s.mem := rfl
@[simp] theorem respond_win (s : StateOf P) : (respond s).win = s.win := rfl
@[simp] theorem respond_erasureCount (s : StateOf P) : (respond s).erasureCount = s.erasureCount := rfl
@[simp] theorem respond_primed (s : StateOf P) : (respond s).primed = s.primed := rfl
@[simp] theorem respond_fault (s : StateOf P) : (respond s).fault = s.fault := rfl
@[simp] theorem respond_lastBranch (s : StateOf P) : (respond s).lastBranch = s.lastBranch := rfl
@[simp] theorem respond_work (s : StateOf P) : (respond s).work = freeWork s.freeIdx := rfl
@[simp] theorem respond_phase (s : StateOf P) : (respond s).phase = 0#4 := rfl
@[simp] theorem respond_operand (s : StateOf P) : (respond s).operand = 0#9 := rfl
@[simp] theorem respond_rsp (s : StateOf P) : (respond s).rsp = { s.rsp with valid := true, status := statusWord s } := rfl
@[simp] theorem respond_inbox (s : StateOf P) : (respond s).inbox = s.inbox := rfl
@[simp] theorem respond_freeIdx (s : StateOf P) : (respond s).freeIdx = s.freeIdx + 1 := rfl

/-! ### `respondSilence` -/

@[simp] theorem respondSilence_mem (s : StateOf P) : (respondSilence s).mem = s.mem := rfl
@[simp] theorem respondSilence_win (s : StateOf P) : (respondSilence s).win = s.win := rfl
@[simp] theorem respondSilence_erasureCount (s : StateOf P) : (respondSilence s).erasureCount = s.erasureCount := rfl
@[simp] theorem respondSilence_primed (s : StateOf P) : (respondSilence s).primed = s.primed := rfl
@[simp] theorem respondSilence_fault (s : StateOf P) : (respondSilence s).fault = s.fault := rfl
@[simp] theorem respondSilence_lastBranch (s : StateOf P) : (respondSilence s).lastBranch = s.lastBranch := rfl
@[simp] theorem respondSilence_work (s : StateOf P) : (respondSilence s).work = freeWork s.freeIdx := rfl
@[simp] theorem respondSilence_phase (s : StateOf P) : (respondSilence s).phase = 0#4 := rfl
@[simp] theorem respondSilence_operand (s : StateOf P) : (respondSilence s).operand = 0#9 := rfl
@[simp] theorem respondSilence_rsp (s : StateOf P) : (respondSilence s).rsp = ⟨true, silence, silence, statusWord s⟩ := rfl
@[simp] theorem respondSilence_inbox (s : StateOf P) : (respondSilence s).inbox = s.inbox := rfl
@[simp] theorem respondSilence_freeIdx (s : StateOf P) : (respondSilence s).freeIdx = s.freeIdx + 1 := rfl

/-! ### `faultEntry` -/

@[simp] theorem faultEntry_mem (c : FaultCode) (s : StateOf P) : (faultEntry c s).mem = s.mem := rfl
@[simp] theorem faultEntry_win (c : FaultCode) (s : StateOf P) : (faultEntry c s).win = s.win := rfl
@[simp] theorem faultEntry_erasureCount (c : FaultCode) (s : StateOf P) : (faultEntry c s).erasureCount = s.erasureCount := rfl
@[simp] theorem faultEntry_primed (c : FaultCode) (s : StateOf P) : (faultEntry c s).primed = s.primed := rfl
@[simp] theorem faultEntry_fault (c : FaultCode) (s : StateOf P) : (faultEntry c s).fault = c := rfl
@[simp] theorem faultEntry_lastBranch (c : FaultCode) (s : StateOf P) : (faultEntry c s).lastBranch = .none := rfl
@[simp] theorem faultEntry_work (c : FaultCode) (s : StateOf P) : (faultEntry c s).work = freeWork s.freeIdx := rfl
@[simp] theorem faultEntry_phase (c : FaultCode) (s : StateOf P) : (faultEntry c s).phase = 0#4 := rfl
@[simp] theorem faultEntry_operand (c : FaultCode) (s : StateOf P) : (faultEntry c s).operand = 0#9 := rfl
@[simp] theorem faultEntry_rsp (c : FaultCode) (s : StateOf P) : (faultEntry c s).rsp = ⟨true, silence, silence, statusWord { s with fault := c, lastBranch := .none }⟩ := rfl
@[simp] theorem faultEntry_inbox (c : FaultCode) (s : StateOf P) : (faultEntry c s).inbox = s.inbox := rfl
@[simp] theorem faultEntry_freeIdx (c : FaultCode) (s : StateOf P) : (faultEntry c s).freeIdx = s.freeIdx + 1 := rfl

/-! ### `refuse` -/

@[simp] theorem refuse_mem (s : StateOf P) : (refuse s).mem = s.mem := rfl
@[simp] theorem refuse_win (s : StateOf P) : (refuse s).win = s.win := rfl
@[simp] theorem refuse_erasureCount (s : StateOf P) : (refuse s).erasureCount = s.erasureCount := rfl
@[simp] theorem refuse_primed (s : StateOf P) : (refuse s).primed = s.primed := rfl
@[simp] theorem refuse_fault (s : StateOf P) : (refuse s).fault = s.fault := rfl
@[simp] theorem refuse_lastBranch (s : StateOf P) : (refuse s).lastBranch = .none := rfl
@[simp] theorem refuse_work (s : StateOf P) : (refuse s).work = freeWork s.freeIdx := rfl
@[simp] theorem refuse_phase (s : StateOf P) : (refuse s).phase = 0#4 := rfl
@[simp] theorem refuse_operand (s : StateOf P) : (refuse s).operand = 0#9 := rfl
@[simp] theorem refuse_rsp (s : StateOf P) : (refuse s).rsp = ⟨true, silence, silence, statusWord { s with lastBranch := .none }⟩ := rfl
@[simp] theorem refuse_inbox (s : StateOf P) : (refuse s).inbox = s.inbox := rfl
@[simp] theorem refuse_freeIdx (s : StateOf P) : (refuse s).freeIdx = s.freeIdx + 1 := rfl

/-! ### `unspecify` -/

@[simp] theorem unspecify_mem (s : StateOf P) : (unspecify s).mem = freeMemory s.freeIdx := rfl
@[simp] theorem unspecify_win (s : StateOf P) : (unspecify s).win = freeWindow s.freeIdx := rfl
@[simp] theorem unspecify_erasureCount (s : StateOf P) : (unspecify s).erasureCount = (Config.freeErasureCount P.wEC s.freeIdx).toNat := rfl
@[simp] theorem unspecify_primed (s : StateOf P) : (unspecify s).primed = Config.freePrimed s.freeIdx := rfl
@[simp] theorem unspecify_fault (s : StateOf P) : (unspecify s).fault = s.fault := rfl
@[simp] theorem unspecify_lastBranch (s : StateOf P) : (unspecify s).lastBranch = s.lastBranch := rfl
@[simp] theorem unspecify_work (s : StateOf P) : (unspecify s).work = s.work := rfl
@[simp] theorem unspecify_phase (s : StateOf P) : (unspecify s).phase = s.phase := rfl
@[simp] theorem unspecify_operand (s : StateOf P) : (unspecify s).operand = s.operand := rfl
@[simp] theorem unspecify_rsp (s : StateOf P) : (unspecify s).rsp = s.rsp := rfl
@[simp] theorem unspecify_inbox (s : StateOf P) : (unspecify s).inbox = s.inbox := rfl
@[simp] theorem unspecify_freeIdx (s : StateOf P) : (unspecify s).freeIdx = s.freeIdx + 1 := rfl

/-! ### `commit` -/

@[simp] theorem commit_mem (s : StateOf P) : (commit s).mem = { s.mem with history := s.mem.history.drop 80 ++ s.work.obuf } := rfl
@[simp] theorem commit_win (s : StateOf P) : (commit s).win = s.win := rfl
@[simp] theorem commit_erasureCount (s : StateOf P) : (commit s).erasureCount = s.erasureCount := rfl
@[simp] theorem commit_primed (s : StateOf P) : (commit s).primed = s.primed := rfl
@[simp] theorem commit_fault (s : StateOf P) : (commit s).fault = s.fault := rfl
@[simp] theorem commit_lastBranch (s : StateOf P) : (commit s).lastBranch = s.lastBranch := rfl
@[simp] theorem commit_work (s : StateOf P) : (commit s).work = s.work := rfl
@[simp] theorem commit_phase (s : StateOf P) : (commit s).phase = s.phase := rfl
@[simp] theorem commit_operand (s : StateOf P) : (commit s).operand = s.operand := rfl
@[simp] theorem commit_rsp (s : StateOf P) : (commit s).rsp = s.rsp := rfl
@[simp] theorem commit_inbox (s : StateOf P) : (commit s).inbox = s.inbox := rfl
@[simp] theorem commit_freeIdx (s : StateOf P) : (commit s).freeIdx = s.freeIdx := rfl

/-! ### `delayOut` -/

@[simp] theorem delayOut_mem (s : StateOf P) : (delayOut s).mem = s.mem := rfl
@[simp] theorem delayOut_win (s : StateOf P) : (delayOut s).win = s.win := rfl
@[simp] theorem delayOut_erasureCount (s : StateOf P) : (delayOut s).erasureCount = s.erasureCount := rfl
@[simp] theorem delayOut_primed (s : StateOf P) : (delayOut s).primed = s.primed := rfl
@[simp] theorem delayOut_fault (s : StateOf P) : (delayOut s).fault = s.fault := rfl
@[simp] theorem delayOut_lastBranch (s : StateOf P) : (delayOut s).lastBranch = s.lastBranch := rfl
@[simp] theorem delayOut_work (s : StateOf P) : (delayOut s).work = s.work := rfl
@[simp] theorem delayOut_phase (s : StateOf P) : (delayOut s).phase = s.phase := rfl
@[simp] theorem delayOut_operand (s : StateOf P) : (delayOut s).operand = s.operand := rfl
@[simp] theorem delayOut_rsp (s : StateOf P) : (delayOut s).rsp = { s.rsp with frame := delayedFrame s.mem.history, raw := s.work.obuf } := rfl
@[simp] theorem delayOut_inbox (s : StateOf P) : (delayOut s).inbox = s.inbox := rfl
@[simp] theorem delayOut_freeIdx (s : StateOf P) : (delayOut s).freeIdx = s.freeIdx := rfl

/-! ### `construct` -/

@[simp] theorem construct_mem (s : StateOf P) : (construct s).mem = Memory.cleared := rfl
@[simp] theorem construct_win (s : StateOf P) : (construct s).win = Window.unwritten := rfl
@[simp] theorem construct_erasureCount (s : StateOf P) : (construct s).erasureCount = 0 := rfl
@[simp] theorem construct_primed (s : StateOf P) : (construct s).primed = false := rfl
@[simp] theorem construct_fault (s : StateOf P) : (construct s).fault = .none := rfl
@[simp] theorem construct_lastBranch (s : StateOf P) : (construct s).lastBranch = .construct := rfl
@[simp] theorem construct_work (s : StateOf P) : (construct s).work = s.work := rfl
@[simp] theorem construct_phase (s : StateOf P) : (construct s).phase = s.phase := rfl
@[simp] theorem construct_operand (s : StateOf P) : (construct s).operand = s.operand := rfl
@[simp] theorem construct_rsp (s : StateOf P) : (construct s).rsp = s.rsp := rfl
@[simp] theorem construct_inbox (s : StateOf P) : (construct s).inbox = s.inbox := rfl
@[simp] theorem construct_freeIdx (s : StateOf P) : (construct s).freeIdx = s.freeIdx := rfl

/-! ### `dropResponse` -/

@[simp] theorem dropResponse_mem (s : StateOf P) : (dropResponse s).mem = s.mem := rfl
@[simp] theorem dropResponse_win (s : StateOf P) : (dropResponse s).win = s.win := rfl
@[simp] theorem dropResponse_erasureCount (s : StateOf P) : (dropResponse s).erasureCount = s.erasureCount := rfl
@[simp] theorem dropResponse_primed (s : StateOf P) : (dropResponse s).primed = s.primed := rfl
@[simp] theorem dropResponse_fault (s : StateOf P) : (dropResponse s).fault = s.fault := rfl
@[simp] theorem dropResponse_lastBranch (s : StateOf P) : (dropResponse s).lastBranch = s.lastBranch := rfl
@[simp] theorem dropResponse_work (s : StateOf P) : (dropResponse s).work = s.work := rfl
@[simp] theorem dropResponse_phase (s : StateOf P) : (dropResponse s).phase = s.phase := rfl
@[simp] theorem dropResponse_operand (s : StateOf P) : (dropResponse s).operand = s.operand := rfl
@[simp] theorem dropResponse_rsp (s : StateOf P) : (dropResponse s).rsp = freeResponse s.freeIdx := rfl
@[simp] theorem dropResponse_inbox (s : StateOf P) : (dropResponse s).inbox = s.inbox := rfl
@[simp] theorem dropResponse_freeIdx (s : StateOf P) : (dropResponse s).freeIdx = s.freeIdx + 1 := rfl

/-! ### `takeMicro` -/

@[simp] theorem takeMicro_mem (s : StateOf P) : (takeMicro s).mem = s.mem := rfl
@[simp] theorem takeMicro_win (s : StateOf P) : (takeMicro s).win = s.win := rfl
@[simp] theorem takeMicro_erasureCount (s : StateOf P) : (takeMicro s).erasureCount = s.erasureCount := rfl
@[simp] theorem takeMicro_primed (s : StateOf P) : (takeMicro s).primed = s.primed := rfl
@[simp] theorem takeMicro_fault (s : StateOf P) : (takeMicro s).fault = s.fault := rfl
@[simp] theorem takeMicro_lastBranch (s : StateOf P) : (takeMicro s).lastBranch = s.lastBranch := rfl
@[simp] theorem takeMicro_work (s : StateOf P) : (takeMicro s).work = s.work := rfl
@[simp] theorem takeMicro_phase (s : StateOf P) : (takeMicro s).phase = 0#4 := rfl
@[simp] theorem takeMicro_operand (s : StateOf P) : (takeMicro s).operand = 0#9 := rfl
@[simp] theorem takeMicro_rsp (s : StateOf P) : (takeMicro s).rsp = freeResponse s.freeIdx := rfl
@[simp] theorem takeMicro_inbox (s : StateOf P) : (takeMicro s).inbox = s.inbox := rfl
@[simp] theorem takeMicro_freeIdx (s : StateOf P) : (takeMicro s).freeIdx = s.freeIdx + 1 := rfl

/-! ### `takeCommand` -/

@[simp] theorem takeCommand_mem (s : StateOf P) (rest : List HostInput) : (takeCommand s rest).mem = s.mem := rfl
@[simp] theorem takeCommand_win (s : StateOf P) (rest : List HostInput) : (takeCommand s rest).win = s.win := rfl
@[simp] theorem takeCommand_erasureCount (s : StateOf P) (rest : List HostInput) : (takeCommand s rest).erasureCount = s.erasureCount := rfl
@[simp] theorem takeCommand_primed (s : StateOf P) (rest : List HostInput) : (takeCommand s rest).primed = s.primed := rfl
@[simp] theorem takeCommand_fault (s : StateOf P) (rest : List HostInput) : (takeCommand s rest).fault = s.fault := rfl
@[simp] theorem takeCommand_lastBranch (s : StateOf P) (rest : List HostInput) : (takeCommand s rest).lastBranch = s.lastBranch := rfl
@[simp] theorem takeCommand_work (s : StateOf P) (rest : List HostInput) : (takeCommand s rest).work = s.work := rfl
@[simp] theorem takeCommand_phase (s : StateOf P) (rest : List HostInput) : (takeCommand s rest).phase = s.phase := rfl
@[simp] theorem takeCommand_operand (s : StateOf P) (rest : List HostInput) : (takeCommand s rest).operand = s.operand := rfl
@[simp] theorem takeCommand_rsp (s : StateOf P) (rest : List HostInput) : (takeCommand s rest).rsp = freeResponse s.freeIdx := rfl
@[simp] theorem takeCommand_inbox (s : StateOf P) (rest : List HostInput) : (takeCommand s rest).inbox = rest := rfl
@[simp] theorem takeCommand_freeIdx (s : StateOf P) (rest : List HostInput) : (takeCommand s rest).freeIdx = s.freeIdx + 1 := rfl

/-! ### `epilogue` -/

@[simp] theorem epilogue_mem (b : Branch) (count : Nat) (s : StateOf P) : (epilogue b count s).mem = { s.mem with history := s.mem.history.drop 80 ++ s.work.obuf } := rfl
@[simp] theorem epilogue_win (b : Branch) (count : Nat) (s : StateOf P) : (epilogue b count s).win = s.win := rfl
@[simp] theorem epilogue_erasureCount (b : Branch) (count : Nat) (s : StateOf P) : (epilogue b count s).erasureCount = count := rfl
@[simp] theorem epilogue_primed (b : Branch) (count : Nat) (s : StateOf P) : (epilogue b count s).primed = s.primed := rfl
@[simp] theorem epilogue_fault (b : Branch) (count : Nat) (s : StateOf P) : (epilogue b count s).fault = s.fault := rfl
@[simp] theorem epilogue_lastBranch (b : Branch) (count : Nat) (s : StateOf P) : (epilogue b count s).lastBranch = b := rfl
@[simp] theorem epilogue_work (b : Branch) (count : Nat) (s : StateOf P) : (epilogue b count s).work = freeWork s.freeIdx := rfl
@[simp] theorem epilogue_phase (b : Branch) (count : Nat) (s : StateOf P) : (epilogue b count s).phase = 0#4 := rfl
@[simp] theorem epilogue_operand (b : Branch) (count : Nat) (s : StateOf P) : (epilogue b count s).operand = 0#9 := rfl
@[simp] theorem epilogue_inbox (b : Branch) (count : Nat) (s : StateOf P) : (epilogue b count s).inbox = s.inbox := rfl
@[simp] theorem epilogue_freeIdx (b : Branch) (count : Nat) (s : StateOf P) : (epilogue b count s).freeIdx = s.freeIdx + 1 := rfl
@[simp] theorem epilogue_rsp_valid (b : Branch) (count : Nat) (s : StateOf P) : (epilogue b count s).rsp.valid = true := rfl
@[simp] theorem epilogue_rsp_raw (b : Branch) (count : Nat) (s : StateOf P) : (epilogue b count s).rsp.raw = s.work.obuf := rfl
@[simp] theorem epilogue_rsp_frame (b : Branch) (count : Nat) (s : StateOf P) :
    (epilogue b count s).rsp.frame = delayedFrame (s.mem.history.drop 80 ++ s.work.obuf) := rfl

/-! ### Free contents have the sizes of R35 and R70 -/

theorem freeWork_wf (k : Nat) : (freeWork k : Work P).wf = true := by simp [Work.wf, freeWork]

@[simp] theorem freeResponse_valid (k : Nat) : (freeResponse k).valid = false := rfl

/-! ### What STATUS reads (R33) -/

/-- STATUS depends on the registers it shows and on nothing else. -/
theorem statusWord_congr {s t : StateOf P} (hc : s.erasureCount = t.erasureCount) (hp : s.primed = t.primed)
    (hw : s.win.pitchPeriod = t.win.pitchPeriod) (hb : s.lastBranch = t.lastBranch) (hf : s.fault = t.fault) :
    statusWord s = statusWord t := by
  simp only [statusWord, statusPeriod, statusCount, hc, hp, hw, hb, hf]

end Sys2Proof.Machine
end

