-- ==== Sys2Proof/Laws/Memory.lean ====
section
/-! SUPPORT. What the array accesses do, once each: when they answer, the elements read, the elements left as
they were, and that every memory operation keeps the lengths. -/

namespace Sys2Proof.Machine

variable {P : Params} {F : FpFormat}

variable {α : Type}

/-! ### Single elements -/

theorem arrRead_of_get {arr : ArrayName} {xs : List α} {i : Nat} {v : α} (h : xs[i]? = some v) :
    arrRead arr xs i = .ok v := by simp [arrRead, h]

theorem arrRead_ok_iff {arr : ArrayName} {xs : List α} {i : Nat} {v : α} :
    arrRead arr xs i = .ok v ↔ xs[i]? = some v := by
  unfold arrRead; cases h : xs[i]? <;> simp

theorem arrRead_outside {arr : ArrayName} {xs : List α} {i : Nat} (h : xs.length ≤ i) :
    arrRead arr xs i = .error (.index arr i) := by
  simp [arrRead, List.getElem?_eq_none h]

theorem arrWrite_ok_iff {arr : ArrayName} {xs ys : List α} {i : Nat} {v : α} :
    arrWrite arr xs i v = .ok ys ↔ i < xs.length ∧ ys = xs.set i v := by
  unfold arrWrite; split <;> simp_all [eq_comm]

/-- A read after a write: the written element is the new value, every other one is as before (R57). -/
theorem arrRead_arrWrite {arr : ArrayName} {xs ys : List α} {i k : Nat} {v : α}
    (h : arrWrite arr xs i v = .ok ys) :
    arrRead arr ys k = if k = i then .ok v else arrRead arr xs k := by
  obtain ⟨hi, rfl⟩ := arrWrite_ok_iff.1 h
  unfold arrRead
  by_cases hk : k = i
  · subst hk; simp [hi]
  · simp [hk, List.getElem?_set_ne (Ne.symm hk)]

/-! ### Blocks -/

theorem memRead_ok_iff {arr : ArrayName} {xs ys : List α} {lo n : Nat} :
    memRead arr xs lo n = .ok ys ↔ (n = 0 ∨ lo + n ≤ xs.length) ∧ ys = (xs.drop lo).take n := by
  unfold memRead; split <;> simp_all [eq_comm]

theorem memRead_inside {arr : ArrayName} {xs : List α} {lo n : Nat} (h : lo + n ≤ xs.length) :
    memRead arr xs lo n = .ok ((xs.drop lo).take n) := memRead_ok_iff.2 ⟨.inr h, rfl⟩

/-- A block read gives `n` elements, the ones from `lo` on (R12). -/
theorem memRead_spec {arr : ArrayName} {xs ys : List α} {lo n : Nat} (h : memRead arr xs lo n = .ok ys) :
    ys.length = n ∧ ∀ k, k < n → ys[k]? = xs[lo + k]? := by
  obtain ⟨hb, rfl⟩ := memRead_ok_iff.1 h
  constructor
  · simp; omega
  · intro k hk; simp [List.getElem?_drop, hk]

theorem memReadBelow_inside {arr : ArrayName} {xs : List α} {hi n : Nat} (h1 : n ≤ hi) (h2 : hi ≤ xs.length) :
    memReadBelow arr xs hi n = .ok ((xs.drop (hi - n)).take n) := by
  unfold memReadBelow; rw [if_pos h1, memRead_inside (by omega)]

theorem memReadBelow_spec {arr : ArrayName} {xs ys : List α} {hi n : Nat}
    (h : memReadBelow arr xs hi n = .ok ys) :
    n ≤ hi ∧ ys.length = n ∧ ∀ k, k < n → ys[k]? = xs[hi - n + k]? := by
  unfold memReadBelow at h
  split at h
  · exact ⟨‹_›, memRead_spec h⟩
  · cases h

theorem memReadBelow_underflow {arr : ArrayName} {xs : List α} {hi n : Nat} (h : hi < n) :
    memReadBelow arr xs hi n = .error (.index arr ((hi : Int) - n)) := by
  unfold memReadBelow; rw [if_neg (by omega)]

theorem memWrite_inside {arr : ArrayName} {xs vs : List α} {lo : Nat} (h : lo + vs.length ≤ xs.length) :
    memWrite arr xs lo vs = .ok (xs.take lo ++ vs ++ xs.drop (lo + vs.length)) := by
  unfold memWrite
  by_cases hv : vs = []
  · simp [hv]
  · rw [if_neg hv, if_pos h]

/-- What a block write does: the length stays, the written elements are the new values, and every other
element is as before (R12, R57). -/
theorem memWrite_spec {arr : ArrayName} {xs vs ys : List α} {lo : Nat} (h : memWrite arr xs lo vs = .ok ys) :
    ys.length = xs.length ∧
      ∀ i, ys[i]? = if lo ≤ i ∧ i < lo + vs.length then vs[i - lo]? else xs[i]? := by
  unfold memWrite at h
  split at h
  · next hv =>
    cases h; subst hv
    exact ⟨rfl, fun i => by rw [if_neg (by simp)]⟩
  · split at h
    · next hb =>
      cases h
      refine ⟨by simp; omega, fun i => ?_⟩
      by_cases h1 : i < lo
      · rw [if_neg (by omega), List.append_assoc, List.getElem?_append_left (by simp; omega)]
        simp [h1]
      · by_cases h2 : i < lo + vs.length
        · rw [if_pos ⟨by omega, h2⟩, List.getElem?_append_left (by simp; omega),
            List.getElem?_append_right (by simp; omega)]
          simp [Nat.min_eq_left (show lo ≤ xs.length by omega)]
        · rw [if_neg (by omega), List.getElem?_append_right (by simp; omega), List.getElem?_drop]
          congr 1; simp; omega
    · cases h

theorem memWrite_length {arr : ArrayName} {xs vs ys : List α} {lo : Nat} (h : memWrite arr xs lo vs = .ok ys) :
    ys.length = xs.length := (memWrite_spec h).1

theorem memWriteBelow_inside {arr : ArrayName} {xs vs : List α} {hi : Nat} (h1 : vs.length ≤ hi)
    (h2 : hi ≤ xs.length) :
    memWriteBelow arr xs hi vs = .ok (xs.take (hi - vs.length) ++ vs ++ xs.drop hi) := by
  unfold memWriteBelow
  rw [if_pos h1, memWrite_inside (by omega), Nat.sub_add_cancel h1]

theorem memWriteBelow_spec {arr : ArrayName} {xs vs ys : List α} {hi : Nat}
    (h : memWriteBelow arr xs hi vs = .ok ys) :
    vs.length ≤ hi ∧ ys.length = xs.length ∧
      ∀ i, ys[i]? = if hi - vs.length ≤ i ∧ i < hi then vs[i - (hi - vs.length)]? else xs[i]? := by
  unfold memWriteBelow at h
  split at h
  · next hb =>
    have := memWrite_spec h
    rw [Nat.sub_add_cancel hb] at this
    exact ⟨hb, this⟩
  · cases h

/-- Values of `saved_tail`: every element read was written, and the values are the elements (R29). -/
theorem written_ok_iff {i : Nat} {xs : List (Option (FpOf F))} {vs : List (FpOf F)} :
    written i xs = .ok vs ↔ xs = vs.map some := by
  induction xs generalizing i vs with
  | nil => cases vs <;> simp [written]
  | cons x xs ih =>
    cases x with
    | none => cases vs <;> simp [written]
    | some v =>
      simp only [written]
      cases hw : written (i + 1) xs with
      | ok ws =>
        have := (ih (i := i + 1) (vs := ws)).1 hw
        subst this
        cases vs with
        | nil => simp
        | cons w vs => simp [List.map_inj_right]
      | error e =>
        cases vs with
        | nil => simp
        | cons w vs =>
          simp only [List.map_cons, List.cons.injEq, Option.some.injEq, reduceCtorEq, false_iff, not_and]
          rintro - rfl
          rw [(ih (i := i + 1)).2 rfl] at hw
          cases hw

/-! ### The lengths of R37 item 1 -/

theorem Memory.wf_iff (m : Memory P) :
    m.wf = true ↔ m.history.length = 390 ∧ m.pitchBuffer.length = 390 ∧ m.savedTail.length = 30 := by
  simp [Memory.wf, and_assoc]

theorem Memory.cleared_wf : (Memory.cleared : Memory P).wf = true := by
  refine (Memory.wf_iff _).2 ⟨?_, ?_, ?_⟩ <;> exact List.length_replicate ..

theorem freeMemory_wf (k : Nat) : (freeMemory k : Memory P).wf = true := by simp [Memory.wf, freeMemory]

theorem setHistory_wf {s : StateOf P} {h : List Sample} (hs : s.mem.wf = true) (hl : h.length = s.mem.history.length) :
    (s.setHistory h).mem.wf = true := by
  simp_all [Memory.wf_iff]

theorem setPitchBuffer_wf {s : StateOf P} {p : List (FP P)} (hs : s.mem.wf = true)
    (hl : p.length = s.mem.pitchBuffer.length) : (s.setPitchBuffer p).mem.wf = true := by
  simp_all [Memory.wf_iff]

theorem setSavedTail_wf {s : StateOf P} {t : List (Option (FP P))} (hs : s.mem.wf = true)
    (hl : t.length = s.mem.savedTail.length) : (s.setSavedTail t).mem.wf = true := by
  simp_all [Memory.wf_iff]

theorem commit_wf {s : StateOf P} (hs : s.mem.wf = true) (ho : s.work.obuf.length = 80) :
    (commit s).mem.wf = true := by
  simp_all [Memory.wf_iff]

theorem unspecify_wf (s : StateOf P) : (unspecify s).mem.wf = true := freeMemory_wf _

end Sys2Proof.Machine
end

