-- ==== Sys2Proof/Laws/Ops.lean ====
section
/-! SUPPORT. What each shared operation can do: reads of registers and working buffers, the outcomes of a
micro-operation and of a frame command, and the pull loop. -/

namespace Sys2Proof.Machine

variable {P : Params} {F : FpFormat}

/-! ### Registers (R29) -/

theorem readReg_ok_iff {r : WindowReg} {s : StateOf P} {v : Nat} :
    readReg r s = .ok v ↔ s.primed = true ∧ s.win.get r = some v := by
  unfold readReg
  cases s.primed <;> cases s.win.get r <;> simp

theorem readReg_of {r : WindowReg} {s : StateOf P} {v : Nat} (hp : s.primed = true) (h : s.win.get r = some v) :
    readReg r s = .ok v := readReg_ok_iff.2 ⟨hp, h⟩

theorem readReg_unprimed {r : WindowReg} {s : StateOf P} (hp : s.primed = false) :
    readReg r s = .error (.unwritten r) := by
  unfold readReg; rw [hp]

/-! ### Working buffers -/

@[simp] theorem length_overlay {α : Type} {vs old : List α} (h : vs.length ≤ old.length) :
    (overlay vs old).length = old.length := by simp [overlay]; omega

/-- The first elements are the new ones, the rest are the old ones (R99). -/
theorem overlay_get {α : Type} (vs old : List α) (i : Nat) :
    (overlay vs old)[i]? = if i < vs.length then vs[i]? else old[i]? := by
  unfold overlay
  split
  · next h => rw [List.getElem?_append_left h]
  · next h =>
    rw [List.getElem?_append_right (by omega), List.getElem?_drop]
    congr 1; omega

theorem overlay_all {α : Type} {vs old : List α} (h : old.length ≤ vs.length) : overlay vs old = vs := by
  simp [overlay, List.drop_eq_nil_of_le h]

theorem writeBuffer_ok_iff {dst : PullDst} {vs : Block} {s t : StateOf P} :
    writeBuffer dst vs s = .ok t ↔
      vs.length ≤ (s.work.buffer dst).length ∧
        t = { s with work := s.work.setBuffer dst (overlay vs (s.work.buffer dst)) } := by
  unfold writeBuffer; split <;> simp_all [eq_comm]

theorem readBuffer_ok_iff {dst : PullDst} {n : Nat} {s : StateOf P} {b : Block} :
    readBuffer dst n s = .ok b ↔ n ≤ (s.work.buffer dst).length ∧ b = (s.work.buffer dst).take n := by
  unfold readBuffer; split <;> simp_all [eq_comm]

theorem Work.wf_iff (w : Work P) :
    w.wf = true ↔ w.obuf.length = 80 ∧ w.tmp.length = 30 ∧ w.synth.length = 80 := by
  simp [Work.wf, and_assoc]

theorem Work.buffer_length {w : Work P} (h : w.wf = true) (dst : PullDst) : (w.buffer dst).length = dst.capacity := by
  obtain ⟨h1, h2, h3⟩ := (Work.wf_iff w).1 h
  cases dst <;> simp [Work.buffer, PullDst.capacity, *]

theorem Work.setBuffer_wf {w : Work P} (h : w.wf = true) {dst : PullDst} {b : Block} (hb : b.length = dst.capacity) :
    (w.setBuffer dst b).wf = true := by
  obtain ⟨h1, h2, h3⟩ := (Work.wf_iff w).1 h
  cases dst <;> simp_all [Work.wf_iff, Work.setBuffer, PullDst.capacity]

@[simp] theorem Work.buffer_setBuffer (w : Work P) (dst : PullDst) (b : Block) : (w.setBuffer dst b).buffer dst = b := by
  cases dst <;> rfl

/-! ### Outcomes -/

/-- A micro-operation run by itself always goes on: to its own state, or through the entry of the fault it
raised (R205). -/
theorem finishMicro_cases (r : Except Violation (StateOf P)) (s : StateOf P) :
    (∃ t, r = .ok t ∧ finishMicro r s = .next t) ∨
      (∃ e, r = .error e ∧ finishMicro r s = .next (invariantEntry s)) := by
  cases r with
  | ok t => exact .inl ⟨t, rfl, rfl⟩
  | error e => exact .inr ⟨e, rfl, rfl⟩

/-- A frame command whose dispatch gave a branch always goes on. -/
theorem finishFrame_cases (b : Branch) (count : Nat) (r : Except Violation (StateOf P)) (s : StateOf P) :
    (∃ t, r = .ok t ∧ finishFrame b count r s = .next (epilogue b count t)) ∨
      (∃ e, r = .error e ∧ finishFrame b count r s = .next (invariantEntry s)) := by
  cases r with
  | ok t => exact .inl ⟨t, rfl, rfl⟩
  | error e => exact .inr ⟨e, rfl, rfl⟩

/-- The result of two checked operations in turn is the second's on the state the first left. -/
theorem Except.bind_ok_iff {ε β γ : Type} {x : Except ε β} {f : β → Except ε γ} {c : γ} :
    (x >>= f) = .ok c ↔ ∃ b, x = .ok b ∧ f b = .ok c := by
  cases x with
  | ok b => simp [bind, Except.bind]
  | error e => simp [bind, Except.bind]

/-! ### The pull loop (R134) -/

/-- One more sample moves the cursor round the window. -/
theorem advance_mod {len c : Nat} (h : c < len) : advance len c = (c + 1) % len := by
  unfold advance
  split
  · next he => rw [he, Nat.mod_self]
  · next he => rw [Nat.mod_eq_of_lt (by omega)]

theorem advance_lt {len c : Nat} (h : c < len) : advance len c < len := by
  rw [advance_mod h]; exact Nat.mod_lt _ (by omega)

/-- The pull loop inside its window: it never faults, gives the samples of the window in turn from the cursor
on, narrowed, and leaves the cursor `n` samples further round (R134, R135). -/
theorem pullFrom_inside {pb : List (FpOf F)} {start len : Nat} (hw : start + len ≤ pb.length) :
    ∀ (n c : Nat), c < len →
      ∃ vs, pullFrom pb start len n c = .ok (vs, (c + n) % len) ∧ vs.length = n ∧
        ∀ k, k < n → vs[k]? = (pb[start + (c + k) % len]?).map narrow := by
  intro n
  induction n with
  | zero => intro c hc; exact ⟨[], by simp [pullFrom, Nat.mod_eq_of_lt hc], rfl, by simp⟩
  | succ n ih =>
    intro c hc
    obtain ⟨vs, hvs, hl, hg⟩ := ih (advance len c) (advance_lt hc)
    have hin : start + c < pb.length := by omega
    refine ⟨narrow pb[start + c] :: vs, ?_, by simp [hl], ?_⟩
    · have hmod : (advance len c + n) % len = (c + (n + 1)) % len := by
        rw [advance_mod hc, Nat.mod_add_mod]; congr 1; omega
      simp only [pullFrom, bind, Except.bind, arrRead_of_get (List.getElem?_eq_getElem hin), hvs, hmod]
      rfl
    · intro k hk
      cases k with
      | zero => simp [Nat.mod_eq_of_lt hc, List.getElem?_eq_getElem hin]
      | succ k =>
        rw [List.getElem?_cons_succ, hg k (by omega), advance_mod hc, Nat.mod_add_mod]
        congr 4; omega

end Sys2Proof.Machine
end

