-- ==== Sys2Proof/Laws/Micro.lean ====
section
/-! SUPPORT. What each micro-operation gives when its registers hold values and its indices are inside the
arrays: one lemma per operation, which later proofs cite instead of unfolding it. -/

namespace Sys2Proof.Machine

variable {P : Params} {F : FpFormat}

/-! ### Blends, element by element (R94, R99) -/

@[simp] theorem length_crossFade (lw rw : Nat → FpOf F) (i : Nat) (ls rs : List (FpOf F)) :
    (crossFade lw rw i ls rs).length = min ls.length rs.length := by
  induction ls generalizing i rs with
  | nil => simp [crossFade]
  | cons l ls ih =>
    cases rs with
    | nil => simp [crossFade]
    | cons r rs => simp [crossFade, ih]

theorem crossFade_get (lw rw : Nat → FpOf F) (i k : Nat) (ls rs : List (FpOf F)) :
    (crossFade lw rw i ls rs)[k]? =
      (ls[k]?).bind fun l => (rs[k]?).map fun r => clamp (fadd (fmul l (lw (i + k))) (fmul r (rw (i + k)))) := by
  induction ls generalizing i k rs with
  | nil => simp [crossFade]
  | cons l ls ih =>
    cases rs with
    | nil => cases k <;> simp [crossFade]
    | cons r rs =>
      cases k with
      | zero => simp [crossFade]
      | succ k =>
        simp only [crossFade, List.getElem?_cons_succ, ih]
        rw [show i + 1 + k = i + (k + 1) by omega]

theorem length_blend {left right : List (FpOf F)} {n : Nat} (hl : n ≤ left.length) (hr : n ≤ right.length) :
    (blend left right n).length = n := by simp [blend]; omega

theorem length_blendS {left right : Block} {n : Nat} (hl : n ≤ left.length) (hr : n ≤ right.length) :
    (blendS F left right n).length = n := by
  simp [blendS]; rw [length_blend] <;> simpa

theorem length_reconcileBlocks {g : FpOf F} {left right : Block} {n : Nat} (hl : n ≤ left.length)
    (hr : n ≤ right.length) : (reconcileBlocks g left right n).length = n := by
  simp [reconcileBlocks]; omega

/-! ### The gain ramp, element by element (R152) -/

theorem decremented_succ (g : FpOf F) (i : Nat) : decremented g (i + 1) = fsub (decremented g i) attenIncr := by
  induction i generalizing g with
  | zero => rw [decremented, decremented, decremented]
  | succ i ih => rw [decremented, ih, ← decremented]

/-- The gain falls by one rounded subtraction per sample (R152). -/
theorem gainAt_succ (n i : Nat) : (gainAt n (i + 1) : FpOf F) = fsub (gainAt n i) attenIncr := decremented_succ ..

@[simp] theorem length_scaleBlock (g : FpOf F) (xs : Block) : (scaleBlock g xs).length = xs.length := by
  induction xs generalizing g with
  | nil => rw [scaleBlock]
  | cons x xs ih => rw [scaleBlock, List.length_cons, List.length_cons, ih]

theorem scaleBlock_get (g : FpOf F) (xs : Block) (i : Nat) :
    (scaleBlock g xs)[i]? = (xs[i]?).map fun x => truncSample (fmul (widen x) (decremented g i)) := by
  induction xs generalizing g i with
  | nil => rw [scaleBlock, List.getElem?_nil, Option.map_none]
  | cons x xs ih =>
    rw [scaleBlock]
    cases i with
    | zero => rw [List.getElem?_cons_zero, List.getElem?_cons_zero, Option.map_some, decremented]
    | succ i =>
      rw [List.getElem?_cons_succ, List.getElem?_cons_succ, ih]
      simp only [decremented]

/-! ### Micro-operations without registers -/

theorem zeroFrame_eq (s : StateOf P) : zeroFrame s = .ok (s.setObuf silence) := rfl

theorem prime_eq (period : Nat) (s : StateOf P) :
    prime period s =
      .ok { s with win := ⟨some period, some (period / 4), some period, some (390 - period), some 0⟩,
                   primed := true } := rfl

theorem scale_eq (s : StateOf P) :
    scale s = .ok { s with work := { s.work with obuf := scaleBlock (gain0 (F := P.fpFormat) s.erasureCount) s.work.obuf,
                                                 g := decremented (gain0 s.erasureCount) s.work.obuf.length } } := rfl

theorem commitAndOut_eq (s : StateOf P) : commitAndOut s = .ok (delayOut (commit s)) := rfl

theorem widenHistory_inside {s : StateOf P} (hm : s.mem.wf = true) :
    widenHistory s = .ok (s.setPitchBuffer (s.mem.history.map widen)) := by
  obtain ⟨h1, h2, -⟩ := (Memory.wf_iff _).1 hm
  have hr : memRead .history s.mem.history 0 390 = .ok s.mem.history := by
    rw [memRead_inside (by omega)]; simp [← h1]
  have hw : memWrite .pitchBuffer s.mem.pitchBuffer 0 (s.mem.history.map widen) =
      .ok (s.mem.history.map widen) := by
    rw [memWrite_inside (by simp; omega)]
    simp [List.drop_eq_nil_of_le, h1, h2]
  simp only [widenHistory, Config.historyLen, hr, hw, bind, Except.bind, pure, Except.pure]

/-! ### The sums of the search (R112, R113) -/

theorem everySecond_get {α : Type} : ∀ (xs : List α) (k : Nat), (everySecond xs)[k]? = xs[2 * k]?
  | [], k => by simp [everySecond]
  | [x], k => by cases k <;> simp [everySecond]
  | x :: y :: rest, k => by
    cases k with
    | zero => simp [everySecond]
    | succ k => rw [everySecond, List.getElem?_cons_succ, everySecond_get rest k, Nat.mul_succ]; rfl

/-- A sum of products is the fold over the index that R112 writes. -/
theorem sumProducts_eq {n : Nat} {xs ys : List (FpOf F)} {x y : Nat → FpOf F}
    (hx : ∀ i, i < n → xs[i]? = some (x i)) (hy : ∀ i, i < n → ys[i]? = some (y i)) (hn : xs[n]? = none) :
    sumProducts xs ys = (List.range n).foldl (fun acc i => fadd acc (fmul (x i) (y i))) fzero := by
  have hz : xs.zip ys = (List.range n).map (fun i => (x i, y i)) := by
    apply List.ext_getElem?
    intro i
    rw [List.getElem?_map, List.zip, List.getElem?_zipWith]
    by_cases h : i < n
    · simp [hx i h, hy i h, h]
    · have h1 : xs[i]? = none := by rw [List.getElem?_eq_none_iff] at hn ⊢; omega
      simp [h1, h]
  rw [sumProducts, hz, List.foldl_map]

theorem lagWindow_get (ref : List (FpOf F)) (j k : Nat) :
    (lagWindow ref j)[k]? = if k < 160 then ref[j + k]? else none := by
  rw [lagWindow, List.getElem?_take, List.getElem?_drop]

theorem referenceOf_get (s : StateOf P) {k : Nat} (h : k < 280) :
    (referenceOf s)[k]? = s.mem.pitchBuffer[110 + k]? := by
  rw [referenceOf, List.getElem?_take, if_pos h, List.getElem?_drop]

theorem targetOf_get (s : StateOf P) {k : Nat} (h : k < 160) :
    (targetOf s)[k]? = s.mem.pitchBuffer[230 + k]? := by
  rw [targetOf, List.getElem?_take, if_pos h, List.getElem?_drop]

/-! ### The search (R115, R117) -/

/-- What a stage of the search leaves alone (R35): the buffers, the saved cursor and the gain. -/
structure SearchKeeps (w w' : Work P) : Prop where
  obuf : w'.obuf = w.obuf
  tmp : w'.tmp = w.tmp
  synth : w'.synth = w.synth
  saveCursor : w'.saveCursor = w.saveCursor
  g : w'.g = w.g

theorem SearchKeeps.refl (w : Work P) : SearchKeeps w w := ⟨rfl, rfl, rfl, rfl, rfl⟩

theorem SearchKeeps.trans {a b c : Work P} (h1 : SearchKeeps a b) (h2 : SearchKeeps b c) : SearchKeeps a c :=
  ⟨h2.obuf.trans h1.obuf, h2.tmp.trans h1.tmp, h2.synth.trans h1.synth, h2.saveCursor.trans h1.saveCursor,
   h2.g.trans h1.g⟩

theorem searchStart_keeps (w : Work P) (lag : Nat) (c e : FP P) : SearchKeeps w (searchStart w lag c e) :=
  ⟨rfl, rfl, rfl, rfl, rfl⟩

theorem searchStep_keeps (b : FP P → FP P → Bool) (w : Work P) (lag : Nat) (c e : FP P) :
    SearchKeeps w (searchStep b w lag c e) := by
  unfold searchStep; split <;> exact ⟨rfl, rfl, rfl, rfl, rfl⟩

/-- The best lag after a candidate is the one before it or the candidate. -/
theorem searchStep_bestLag (b : FP P → FP P → Bool) (w : Work P) (lag : Nat) (c e : FP P) :
    (searchStep b w lag c e).bestLag = w.bestLag ∨ (searchStep b w lag c e).bestLag = lag := by
  unfold searchStep; split
  · exact .inr rfl
  · exact .inl rfl

theorem searchFold_keeps (b : FP P → FP P → Bool) (c : Nat → FP P) (e : FP P → Nat → FP P) (lags : List Nat) (w : Work P) :
    SearchKeeps w (lags.foldl (fun w j => searchStep b w j (c j) (e w.energy j)) w) := by
  induction lags generalizing w with
  | nil => exact SearchKeeps.refl w
  | cons j lags ih => exact (searchStep_keeps ..).trans (ih _)

theorem searchFold_bestLag (b : FP P → FP P → Bool) (c : Nat → FP P) (e : FP P → Nat → FP P) (lags : List Nat) (w : Work P) :
    (lags.foldl (fun w j => searchStep b w j (c j) (e w.energy j)) w).bestLag = w.bestLag ∨
      (lags.foldl (fun w j => searchStep b w j (c j) (e w.energy j)) w).bestLag ∈ lags := by
  induction lags generalizing w with
  | nil => exact .inl rfl
  | cons j lags ih =>
    rcases ih (searchStep b w j (c j) (e w.energy j)) with h | h
    · rcases searchStep_bestLag b w j (c j) (e w.energy j) with h' | h'
      · exact .inl (h.trans h')
      · exact .inr (by rw [List.foldl_cons, h, h']; exact List.mem_cons_self)
    · exact .inr (List.mem_cons_of_mem _ h)

theorem coarseSearch_keeps (ref tgt : List (FP P)) (w : Work P) : SearchKeeps w (coarseSearch ref tgt w) :=
  (searchStart_keeps ..).trans (searchFold_keeps _ (corrCoarse ref tgt) (energyCoarseStep P.coarseEnter ref) _ _)

/-- The coarse winner is one of the 41 candidates (R115). -/
theorem coarseSearch_bestLag (ref tgt : List (FP P)) (w : Work P) :
    (coarseSearch ref tgt w).bestLag % 2 = 0 ∧ (coarseSearch ref tgt w).bestLag ≤ 80 := by
  have h := searchFold_bestLag fge (corrCoarse ref tgt) (energyCoarseStep P.coarseEnter ref) coarseLags
    (searchStart w 0 (corrCoarse ref tgt 0) (energyCoarseInit ref))
  have hl : ∀ j ∈ coarseLags, j % 2 = 0 ∧ j ≤ 80 := by decide
  rcases h with h | h
  · change (coarseSearch ref tgt w).bestLag = 0 at h
    rw [h]; decide
  · exact hl _ h

theorem fineSearch_keeps (ref tgt : List (FP P)) (lo hi : Nat) (w : Work P) :
    SearchKeeps w (fineSearch ref tgt lo hi w) :=
  SearchKeeps.trans (b := { w with lo := lo, hi := hi }) ⟨rfl, rfl, rfl, rfl, rfl⟩
    ((searchStart_keeps ..).trans (searchFold_keeps _ (corrFine ref tgt) (energyFineStep ref) _ _))

/-- The fine winner is one of the candidates from `lo` to `hi` (R117). -/
theorem fineSearch_bestLag (ref tgt : List (FP P)) {lo hi : Nat} (h : lo ≤ hi) (w : Work P) :
    lo ≤ (fineSearch ref tgt lo hi w).bestLag ∧ (fineSearch ref tgt lo hi w).bestLag ≤ hi := by
  have hb := searchFold_bestLag (fun a b => flt b a) (corrFine ref tgt) (energyFineStep ref)
    (List.range' (lo + 1) (hi - lo))
    (searchStart { w with lo := lo, hi := hi } lo (corrFine ref tgt lo) (energyFineInit ref lo))
  rcases hb with hb | hb
  · change (fineSearch ref tgt lo hi w).bestLag = lo at hb
    omega
  · change (fineSearch ref tgt lo hi w).bestLag ∈ _ at hb
    simp only [List.mem_range'_1] at hb
    omega

theorem readReference_inside {s : StateOf P} (hm : s.mem.wf = true) : readReference s = .ok (referenceOf s) := by
  obtain ⟨-, h2, -⟩ := (Memory.wf_iff _).1 hm
  exact memReadBelow_inside (by decide) (by rw [h2])

theorem readTarget_inside {s : StateOf P} (hm : s.mem.wf = true) : readTarget s = .ok (targetOf s) := by
  obtain ⟨-, h2, -⟩ := (Memory.wf_iff _).1 hm
  exact memReadBelow_inside (by decide) (by rw [h2])

theorem findpitchCoarse_inside {s : StateOf P} (hm : s.mem.wf = true) :
    findpitchCoarse s = .ok { s with work := coarseSearch (referenceOf s) (targetOf s) s.work } := by
  simp only [findpitchCoarse, readReference_inside hm, readTarget_inside hm, bind, Except.bind, pure, Except.pure]

/-- The samples the fine stage starts from exist for every lag a coarse stage leaves (R122). -/
theorem readFineStart_inside {s : StateOf P} (hm : s.mem.wf = true) {lo : Nat} (h : lo ≤ 120) :
    ∃ xs, readFineStart lo s = .ok xs := by
  obtain ⟨-, h2, -⟩ := (Memory.wf_iff _).1 hm
  exact ⟨_, memRead_inside (by rw [h2]; show 390 - 280 + lo + 160 ≤ 390; omega)⟩

theorem findpitchFine_inside {s : StateOf P} (hm : s.mem.wf = true) (hb : s.work.bestLag ≤ 80) :
    findpitchFine s =
      .ok { s with work := fineSearch (referenceOf s) (targetOf s) (s.work.bestLag - 1)
                             (min (s.work.bestLag + 1) 80) s.work } := by
  obtain ⟨xs, hx⟩ := readFineStart_inside hm (show s.work.bestLag - (Config.nDec - 1) ≤ 120 by omega)
  simp only [findpitchFine, readReference_inside hm, readTarget_inside hm, hx, bind, Except.bind, pure, Except.pure]
  rfl

/-! ### Micro-operations on a primed block -/

section Primed

variable {s : StateOf P} {p ov len st c : Nat}

theorem readPeriod (hp : s.primed = true) (hw : s.win = ⟨some p, some ov, some len, some st, some c⟩) :
    readReg .pitchPeriod s = .ok p := readReg_of hp (by rw [hw]; rfl)

theorem readSpan (hp : s.primed = true) (hw : s.win = ⟨some p, some ov, some len, some st, some c⟩) :
    readReg .overlapSpan s = .ok ov := readReg_of hp (by rw [hw]; rfl)

theorem readLength (hp : s.primed = true) (hw : s.win = ⟨some p, some ov, some len, some st, some c⟩) :
    readReg .periodBufferLength s = .ok len := readReg_of hp (by rw [hw]; rfl)

theorem readStart (hp : s.primed = true) (hw : s.win = ⟨some p, some ov, some len, some st, some c⟩) :
    readReg .pitchPeriodStart s = .ok st := readReg_of hp (by rw [hw]; rfl)

theorem readCursor (hp : s.primed = true) (hw : s.win = ⟨some p, some ov, some len, some st, some c⟩) :
    readReg .readCursor s = .ok c := readReg_of hp (by rw [hw]; rfl)

theorem snapshotTail_inside (hp : s.primed = true) (hw : s.win = ⟨some p, some ov, some len, some st, some c⟩)
    (hm : s.mem.wf = true) (ho : ov ≤ 30) :
    snapshotTail s =
      .ok (s.setSavedTail (((s.mem.pitchBuffer.drop (390 - ov)).take ov).map some ++ s.mem.savedTail.drop ov)) := by
  obtain ⟨-, h2, h3⟩ := (Memory.wf_iff _).1 hm
  have hlen : (((s.mem.pitchBuffer.drop (390 - ov)).take ov).map some).length = ov := by simp; omega
  have hwr := memWrite_inside (arr := .savedTail) (xs := s.mem.savedTail) (lo := 0)
    (vs := ((s.mem.pitchBuffer.drop (390 - ov)).take ov).map some) (by rw [hlen]; omega)
  rw [hlen] at hwr
  simp only [snapshotTail, readSpan hp hw, Config.historyLen,
    memReadBelow_inside (show ov ≤ 390 by omega) (show 390 ≤ s.mem.pitchBuffer.length by omega), bind,
    Except.bind, pure, Except.pure, hwr, List.take_zero, List.nil_append, Nat.zero_add]

theorem olaTail_inside (hp : s.primed = true) (hw : s.win = ⟨some p, some ov, some len, some st, some c⟩)
    (hm : s.mem.wf = true) (ho : ov ≤ 30) (hst : ov ≤ st) (hend : st ≤ 390) {left : List (FP P)}
    (hl : s.mem.savedTail.take ov = left.map some) :
    olaTail s =
      .ok (s.setPitchBuffer (s.mem.pitchBuffer.take (390 - ov) ++
        blend left ((s.mem.pitchBuffer.drop (st - ov)).take ov) ov)) := by
  obtain ⟨-, h2, h3⟩ := (Memory.wf_iff _).1 hm
  have hll : left.length = ov := by
    have := congrArg List.length hl
    simp at this; omega
  have hb : (blend left ((s.mem.pitchBuffer.drop (st - ov)).take ov) ov).length = ov :=
    length_blend (by omega) (by simp; omega)
  have hwr := memWriteBelow_inside (arr := .pitchBuffer) (xs := s.mem.pitchBuffer) (hi := 390)
    (vs := blend left ((s.mem.pitchBuffer.drop (st - ov)).take ov) ov) (by omega) (by omega)
  rw [hb] at hwr
  have hdrop : s.mem.pitchBuffer.drop 390 = [] := List.drop_eq_nil_of_le (by omega)
  have hread := memRead_inside (arr := .savedTail) (show 0 + ov ≤ s.mem.savedTail.length by omega)
  rw [List.drop_zero, hl] at hread
  have hwritten : written 0 (left.map some) = .ok left := written_ok_iff.2 rfl
  have hright := memReadBelow_inside (arr := .pitchBuffer) hst (show st ≤ s.mem.pitchBuffer.length by omega)
  rw [hdrop, List.append_nil] at hwr
  simp only [olaTail, readSpan hp hw, readStart hp hw, Config.historyLen, hread, hwritten, hright, bind, Except.bind,
    pure, Except.pure, hwr]

theorem writebackTail_inside (hp : s.primed = true) (hw : s.win = ⟨some p, some ov, some len, some st, some c⟩)
    (hm : s.mem.wf = true) (ho : ov ≤ 390) :
    writebackTail s =
      .ok (s.setHistory (s.mem.history.take (390 - ov) ++
        ((s.mem.pitchBuffer.drop (390 - ov)).take ov).map narrow)) := by
  obtain ⟨h1, h2, -⟩ := (Memory.wf_iff _).1 hm
  have hlen : (((s.mem.pitchBuffer.drop (390 - ov)).take ov).map narrow).length = ov := by simp; omega
  have hwr := memWriteBelow_inside (arr := .history) (xs := s.mem.history) (hi := 390)
    (vs := ((s.mem.pitchBuffer.drop (390 - ov)).take ov).map narrow) (by omega) (by omega)
  have hdrop : s.mem.history.drop 390 = [] := List.drop_eq_nil_of_le (by omega)
  rw [hlen, hdrop, List.append_nil] at hwr
  simp only [writebackTail, readSpan hp hw, Config.historyLen,
    memReadBelow_inside ho (show 390 ≤ s.mem.pitchBuffer.length by omega), bind, Except.bind, pure, Except.pure, hwr]

/-- PULL of no sample does nothing (R134). -/
theorem pull_zero (dst : PullDst) (s : StateOf P) : pull dst 0 s = .ok s := by simp [pull]

theorem pull_inside (hp : s.primed = true) (hw : s.win = ⟨some p, some ov, some len, some st, some c⟩)
    (hm : s.mem.wf = true) (hc : c < len) (hend : st + len ≤ 390) {dst : PullDst} {n : Nat} (hn : n ≠ 0)
    (hbuf : n ≤ (s.work.buffer dst).length) :
    ∃ vs : Block, vs.length = n ∧
      (∀ k, k < n → vs[k]? = (s.mem.pitchBuffer[st + (c + k) % len]?).map narrow) ∧
      pull dst n s =
        .ok ({ s with work := s.work.setBuffer dst (overlay vs (s.work.buffer dst)) }.setCursor ((c + n) % len)) := by
  obtain ⟨-, h2, -⟩ := (Memory.wf_iff _).1 hm
  obtain ⟨vs, hvs, hl, hg⟩ := pullFrom_inside (pb := s.mem.pitchBuffer) (start := st) (len := len) (by omega) n c hc
  refine ⟨vs, hl, hg, ?_⟩
  unfold pull
  rw [if_neg hn]
  simp only [readStart hp hw, readCursor hp hw, readLength hp hw, hvs, bind, Except.bind, pure, Except.pure,
    writeBuffer, hl, if_pos hbuf]

theorem grow_inside (hp : s.primed = true) (hw : s.win = ⟨some p, some ov, some len, some st, some c⟩)
    (hlen : len + p ≤ 390) :
    grow s = .ok { s with win := ⟨some p, some ov, some (len + p), some (390 - (len + p)), some c⟩ } := by
  simp only [grow, readLength hp hw, readPeriod hp hw, Config.historyLen, bind, Except.bind, if_pos hlen, pure,
    Except.pure, hw]

theorem restoreCursor_inside (hp : s.primed = true)
    (hw : s.win = ⟨some p, some ov, some len, some st, some c⟩) (hpos : 0 < p) :
    restoreCursor s = .ok (s.setCursor (s.work.saveCursor % p)) := by
  simp only [restoreCursor, readPeriod hp hw, bind, Except.bind, pure, Except.pure, cursorMod,
    if_neg (show p ≠ 0 by omega)]

theorem saveCursor_inside (hp : s.primed = true) (hw : s.win = ⟨some p, some ov, some len, some st, some c⟩) :
    saveCursor s = .ok { s with work := { s.work with saveCursor := c } } := by
  simp only [saveCursor, readCursor hp hw, bind, Except.bind, pure, Except.pure]

theorem olaFrame_inside (hp : s.primed = true) (hw : s.win = ⟨some p, some ov, some len, some st, some c⟩)
    (ht : ov ≤ s.work.tmp.length) (ho : ov ≤ s.work.obuf.length) :
    olaFrame s =
      .ok (s.setObuf (overlay (blendS P.fpFormat (s.work.tmp.take ov) (s.work.obuf.take ov) ov) s.work.obuf)) := by
  have hb : (blendS P.fpFormat (s.work.tmp.take ov) (s.work.obuf.take ov) ov).length = ov :=
    length_blendS (by simp; omega) (by simp; omega)
  have h1 : readBuffer .tmp ov s = .ok (s.work.tmp.take ov) := readBuffer_ok_iff.2 ⟨ht, rfl⟩
  have h2 : readBuffer .obuf ov s = .ok (s.work.obuf.take ov) := readBuffer_ok_iff.2 ⟨ho, rfl⟩
  simp only [olaFrame, readSpan hp hw, bind, Except.bind, h1, h2]
  exact writeBuffer_ok_iff.2 ⟨by rw [hb]; exact ho, rfl⟩

end Primed

theorem reconcileBlend_inside {s : StateOf P} {n : Nat} (hsy : n ≤ s.work.synth.length) (ho : n ≤ s.work.obuf.length) :
    reconcileBlend n s =
      .ok (s.setObuf (overlay (reconcileBlocks (reconcileGain (F := P.fpFormat) s.erasureCount) (s.work.synth.take n)
        (s.work.obuf.take n) n) s.work.obuf)) := by
  have hb : (reconcileBlocks (reconcileGain (F := P.fpFormat) s.erasureCount) (s.work.synth.take n) (s.work.obuf.take n) n).length = n :=
    length_reconcileBlocks (by simp; omega) (by simp; omega)
  have h1 : readBuffer .synth n s = .ok (s.work.synth.take n) := readBuffer_ok_iff.2 ⟨hsy, rfl⟩
  have h2 : readBuffer .obuf n s = .ok (s.work.obuf.take n) := readBuffer_ok_iff.2 ⟨ho, rfl⟩
  simp only [reconcileBlend, bind, Except.bind, h1, h2]
  exact writeBuffer_ok_iff.2 ⟨by rw [hb]; exact ho, rfl⟩

end Sys2Proof.Machine
end

