-- ==== Sys2Proof/Laws/Commands.lean ====
section
/-! SUPPORT. What a frame command does around its branch: dispatch on a block without a fault, the end of the
command, and that every instruction goes on. -/

namespace Sys2Proof.Machine

variable {P : Params} {F : FpFormat}

/-! ### Dispatch (R166) -/

theorem concealBranch_zero : concealBranch 0 = .onset := rfl

theorem concealBranch_extend {n : Nat} (h1 : 1 ≤ n) (h2 : n ≤ 2) : concealBranch n = .extend := by
  unfold concealBranch; rw [if_neg (by omega), if_pos (by omega)]

theorem concealBranch_steady {n : Nat} (h3 : 3 ≤ n) (h5 : n ≤ 5) : concealBranch n = .steady := by
  unfold concealBranch; rw [if_neg (by omega), if_neg (by omega), if_neg (by show ¬ 5 < n; omega)]

theorem concealBranch_mute {n : Nat} (h6 : 6 ≤ n) : concealBranch n = .mute := by
  unfold concealBranch; rw [if_neg (by omega), if_neg (by omega), if_pos (by show 5 < n; omega)]

/-- CONCEAL on a block without a fault: its branch, then the epilogue (R169, R175). -/
theorem execConceal_running {s : StateOf P} (hf : s.fault = .none) :
    execConceal s =
      finishFrame (concealBranch s.erasureCount) (countAfter P s.erasureCount)
        (runConceal (concealBranch s.erasureCount) s) s := by
  unfold execConceal
  simp only [dispatch, hf, if_true]
  unfold concealBranch; split_ifs <;> rfl

/-- ACCEPT on a block without a fault: its branch, then the epilogue (R176, R177). -/
theorem execAccept_running {s : StateOf P} (hf : s.fault = .none) (frame : Block) :
    execAccept frame s =
      finishFrame (acceptBranch s.erasureCount) 0
        (runAccept (acceptBranch s.erasureCount) (s.setObuf frame)) s := by
  unfold execAccept
  simp only [dispatch, hf, if_true]
  unfold acceptBranch; split_ifs <;> rfl

/-! ### The end of a command (R131, R143) -/

/-- The delayed frame is the end of the frame before and the start of this one (R143). -/
theorem delayedFrame_commit {h : List Sample} {raw : Block} (hh : h.length = 390) :
    delayedFrame (h.drop 80 ++ raw) = h.drop 360 ++ raw.take 50 := by
  show List.take 80 (List.drop 280 (h.drop 80 ++ raw)) = _
  rw [List.drop_append_of_le_length (by simp; omega), List.drop_drop, List.take_append]
  simp [hh]

/-! ### Every instruction goes on -/

theorem finishMicro_goes_on (r : Except Violation (StateOf P)) (s : StateOf P) : ∃ t, finishMicro r s = .next t := by
  cases r <;> exact ⟨_, rfl⟩

theorem finishFrame_goes_on (b : Branch) (count : Nat) (r : Except Violation (StateOf P)) (s : StateOf P) :
    ∃ t, finishFrame b count r s = .next t := by
  cases r <;> exact ⟨_, rfl⟩

theorem execConceal_goes_on (s : StateOf P) : ∃ t, execConceal s = .next t := by
  unfold execConceal
  split
  · exact ⟨_, rfl⟩
  · exact ⟨_, rfl⟩
  · exact finishFrame_goes_on ..

theorem execAccept_goes_on (frame : Block) (s : StateOf P) : ∃ t, execAccept frame s = .next t := by
  unfold execAccept
  split
  · exact ⟨_, rfl⟩
  · exact ⟨_, rfl⟩
  · exact finishFrame_goes_on ..

/-- No instruction stops: each takes a next state, an entry of a fault included (R200, R205). -/
theorem exec_goes_on (i : Instr) (s : State) : ∃ t, exec i s = .next t := by
  cases i with
  | accept frame => exact execAccept_goes_on frame s
  | conceal => exact execConceal_goes_on s
  | construct => exact ⟨_, rfl⟩
  | reserved =>
    show ∃ t, execReserved s = .next t
    unfold execReserved
    split <;> exact ⟨_, rfl⟩
  | idle => exact ⟨_, rfl⟩
  | widenHistory => exact finishMicro_goes_on (Machine.widenHistory s) s
  | findpitchCoarse => exact finishMicro_goes_on (Machine.findpitchCoarse s) s
  | findpitchFine => exact finishMicro_goes_on (Machine.findpitchFine s) s
  | prime period => exact finishMicro_goes_on (Machine.prime period s) s
  | snapshotTail => exact finishMicro_goes_on (Machine.snapshotTail s) s
  | olaTail => exact finishMicro_goes_on (Machine.olaTail s) s
  | writebackTail => exact finishMicro_goes_on (Machine.writebackTail s) s
  | pull dst n => exact finishMicro_goes_on (Machine.pull dst n s) s
  | grow => exact finishMicro_goes_on (Machine.grow s) s
  | restoreCursor => exact finishMicro_goes_on (Machine.restoreCursor s) s
  | olaFrame => exact finishMicro_goes_on (Machine.olaFrame s) s
  | scale => exact finishMicro_goes_on (Machine.scale s) s
  | zeroFrame => exact finishMicro_goes_on (Machine.zeroFrame s) s
  | reconcileBlend olen => exact finishMicro_goes_on (Machine.reconcileBlend olen s) s
  | commitAndOut => exact finishMicro_goes_on (Machine.commitAndOut s) s

end Sys2Proof.Machine
end

