-- ==== Sys2Proof/Machine/Configured.lean ====
section
/-! DEFINITION. The machine for any parameters of R9 (00_scope.md): `FPFMT`, `W_EC` and `COARSE_ENTER` are its
argument (U2, U8, U9 of 93_implementation_defined.md). The machine of the fixed names is this one at the defaults
(Laws/Configured.lean). -/

namespace Sys2Proof.Machine

variable {P : Params}

/-- What an instruction does, for any parameters: the same meanings that `exec` calls. -/
def execConfigured (i : Instr) (s : StateOf P) : Host.Outcome (StateOf P) Fault Refusal :=
  match i with
  | .accept frame => execAccept frame s
  | .conceal => execConceal s
  | .construct => execConstruct s
  | .reserved => execReserved s
  | .idle => execIdle s
  | .widenHistory => execWidenHistory s
  | .findpitchCoarse => execFindpitchCoarse s
  | .findpitchFine => execFindpitchFine s
  | .prime period => execPrime period s
  | .snapshotTail => execSnapshotTail s
  | .olaTail => execOlaTail s
  | .writebackTail => execWritebackTail s
  | .pull dst n => execPull dst n s
  | .grow => execGrow s
  | .restoreCursor => execRestoreCursor s
  | .olaFrame => execOlaFrame s
  | .scale => execScale s
  | .zeroFrame => execZeroFrame s
  | .reconcileBlend olen => execReconcileBlend olen s
  | .commitAndOut => execCommitAndOut s

/-- One step, for any parameters. -/
def stepConfigured (s : StateOf P) : Host.Outcome (StateOf P) Fault Refusal := stepBy execConfigured s

/-- The machine for given parameters (R9). -/
def configured (P : Params) : Host.Core where
  State := StateOf P
  Fault := Fault
  Refusal := Refusal
  step := stepConfigured
  reset := State.initial P

end Sys2Proof.Machine
end

