-- ==== Sys2Proof/Laws/Configured.lean ====
section
/-! SUPPORT. The machine of the fixed names is the configured machine at the defaults of R9 (00_scope.md). -/

namespace Sys2Proof.Machine

theorem execConfigured_standard (i : Instr) (s : State) : execConfigured i s = exec i s := by
  cases i <;> rfl

theorem stepConfigured_standard (s : State) : stepConfigured s = step s := by
  have h : (execConfigured : Instr → State → _) = exec := funext fun i => funext fun s => execConfigured_standard i s
  rw [stepConfigured, h, step]

theorem configured_standard : configured Params.standard = Sys2Proof.core := by
  rw [configured, Sys2Proof.core, State.reset, show stepConfigured = step from funext stepConfigured_standard]

end Sys2Proof.Machine
end

