-- ==== Sys2Proof/Laws/PerInstr.lean ====
section
/-! SUPPORT. A statement for every instruction, one lemma per constructor: the bits that tell the instructions
apart are the ones the table gives (R75, R78, 30_encoding.md). -/

namespace Sys2Proof.Laws

/-- The opcode bits of a word, as spec/opcode_table.json masks them: two bits of a command word, four of a
micro-operation word. -/
def opcodeBits : CodeWord → Nat
  | .command w => w.toNat % 4
  | .micro w => w.toNat % 16

/-- The match value of each row of spec/opcode_table.json. -/
def matchValue : Instr → Nat
  | .accept _ => 0
  | .conceal => 1
  | .construct => 2
  | .reserved => 3
  | .idle => 0
  | .widenHistory => 1
  | .findpitchCoarse => 2
  | .findpitchFine => 3
  | .prime _ => 4
  | .snapshotTail => 5
  | .olaTail => 6
  | .writebackTail => 7
  | .pull _ _ => 8
  | .grow => 9
  | .restoreCursor => 10
  | .olaFrame => 11
  | .scale => 12
  | .zeroFrame => 13
  | .reconcileBlend _ => 14
  | .commitAndOut => 15

theorem ofNat_mod_four (n x : Nat) (h : 2 ≤ n) : (BitVec.ofNat n x).toNat % 4 = x % 4 := by
  rw [BitVec.toNat_ofNat]
  exact Nat.mod_mod_of_dvd _ (Nat.pow_dvd_pow 2 h)

theorem opcodeBits_command (op bus : Nat) (h : op < 4) : opcodeBits (.command (commandWord op bus)) = op := by
  rw [opcodeBits, commandWord, ofNat_mod_four _ _ (by decide)]
  omega

theorem opcodeBits_micro (code dst len : Nat) (h : code < 16) :
    opcodeBits (.micro (microWord code dst len)) = code := by
  simp only [opcodeBits, microWord, BitVec.toNat_ofNat]
  omega

namespace OpcodeBits

/-- The encoded word has the opcode bits of the instruction's row. -/
def Statement (i : Instr) : Prop := opcodeBits (encode i) = matchValue i

theorem accept (frame : Block) : Statement (.accept frame) := opcodeBits_command _ _ (by decide)
theorem conceal : Statement .conceal := opcodeBits_command _ _ (by decide)
theorem construct : Statement .construct := opcodeBits_command _ _ (by decide)
theorem reserved : Statement .reserved := opcodeBits_command _ _ (by decide)
theorem idle : Statement .idle := opcodeBits_micro _ _ _ (by decide)
theorem widenHistory : Statement .widenHistory := opcodeBits_micro _ _ _ (by decide)
theorem findpitchCoarse : Statement .findpitchCoarse := opcodeBits_micro _ _ _ (by decide)
theorem findpitchFine : Statement .findpitchFine := opcodeBits_micro _ _ _ (by decide)
theorem prime (period : Nat) : Statement (.prime period) := opcodeBits_micro _ _ _ (by decide)
theorem snapshotTail : Statement .snapshotTail := opcodeBits_micro _ _ _ (by decide)
theorem olaTail : Statement .olaTail := opcodeBits_micro _ _ _ (by decide)
theorem writebackTail : Statement .writebackTail := opcodeBits_micro _ _ _ (by decide)
theorem pull (dst : PullDst) (n : Nat) : Statement (.pull dst n) := opcodeBits_micro _ _ _ (by decide)
theorem grow : Statement .grow := opcodeBits_micro _ _ _ (by decide)
theorem restoreCursor : Statement .restoreCursor := opcodeBits_micro _ _ _ (by decide)
theorem olaFrame : Statement .olaFrame := opcodeBits_micro _ _ _ (by decide)
theorem scale : Statement .scale := opcodeBits_micro _ _ _ (by decide)
theorem zeroFrame : Statement .zeroFrame := opcodeBits_micro _ _ _ (by decide)
theorem reconcileBlend (olen : Nat) : Statement (.reconcileBlend olen) := opcodeBits_micro _ _ _ (by decide)
theorem commitAndOut : Statement .commitAndOut := opcodeBits_micro _ _ _ (by decide)

end OpcodeBits

end Sys2Proof.Laws
end

