-- ==== Sys2Proof/Tests/Slice0.lean ====
section
/-! SUPPORT. Tests: the well-formedness checks, words written out from the encoding tables, the vectors of
95_test_vectors.md and 96_test_programs.md on small states, and for every statement with hypotheses a state that
meets them. -/

open Sys2Proof Sys2Proof.Machine Sys2Proof.Formula

namespace Sys2Proof.Tests

-- One theorem at a time: the threads that wait for the kernel's evaluations would pass the memory limit.
set_option Elab.async false

/-! ### Small states -/

/-- `int16` samples. -/
def samples (xs : List Int) : Block := xs.map (BitVec.ofInt 16)

/-- `n` copies of a sample. -/
def flat (n : Nat) (x : Int) : Block := List.replicate n (BitVec.ofInt 16 x)

/-- The frame `[100, 101, ..., 179]` (96_test_programs.md 3.3). -/
def rampFrame : Block := (List.range 80).map (fun i => BitVec.ofNat 16 (100 + i))

/-- A silent burst: `count` lost frames, period `p`, a window of `k` periods, cursor `c`. -/
def burst (count p k c : Nat) : State :=
  { State.reset with
    mem := { Memory.cleared (P := Params.standard) with savedTail := List.replicate 30 (some (0#_ : FP)) }
    primed := true
    erasureCount := count
    win := ⟨some p, some (p / 4), some (k * p), some (390 - k * p), some c⟩ }

/-- A primed block whose window registers hold any values. -/
def windowed (p ov len start c : Nat) : State :=
  { State.reset with primed := true, win := ⟨some p, some ov, some len, some start, some c⟩ }

/-- A block with a recorded fault. -/
def faulted (f : FaultCode) : State := { State.reset with fault := f }

/-- Reset with what the host presents. -/
def offered (inputs : List HostInput) : State := { State.reset with inbox := inputs }

/-- Reset with a micro-operation in the sequencer. -/
def sequenced (phase : BitVec 4) : State := { State.reset with phase := phase }

/-- A value of the state after an outcome. -/
def after {P : Params} {α : Type} (o : Host.Outcome (StateOf P) Fault Refusal) (f : StateOf P → α) : Option α :=
  match o with
  | .next t => some (f t)
  | .fault _ => none
  | .refused _ => none

/-! ### Well-formedness: each check refuses an ill-formed term -/

theorem test_illformed_short_frame : (Instr.accept (List.replicate 79 0#16)).wellFormed = false := by decide
theorem test_illformed_period_low : (Instr.prime 39).wellFormed = false := by decide
theorem test_illformed_period_high : (Instr.prime 121).wellFormed = false := by decide
theorem test_illformed_pull : (Instr.pull .tmp 31).wellFormed = false := by decide
theorem test_illformed_olen : (Instr.reconcileBlend 81).wellFormed = false := by decide

/-! ### Words written out from R72, R74, R75 and R78 -/

theorem test_decode_idle : decode (.micro 0b0000000000000#13) = .ok .idle := by decide +kernel
theorem test_decode_widen_history : decode (.micro 0b0000000000001#13) = .ok .widenHistory := by decide +kernel
theorem test_decode_findpitch_coarse : decode (.micro 0b0000000000010#13) = .ok .findpitchCoarse := by decide +kernel
theorem test_decode_findpitch_fine : decode (.micro 0b0000000000011#13) = .ok .findpitchFine := by decide +kernel
theorem test_decode_snapshot_tail : decode (.micro 0b0000000000101#13) = .ok .snapshotTail := by decide +kernel
theorem test_decode_ola_tail : decode (.micro 0b0000000000110#13) = .ok .olaTail := by decide +kernel
theorem test_decode_writeback_tail : decode (.micro 0b0000000000111#13) = .ok .writebackTail := by decide +kernel
theorem test_decode_grow : decode (.micro 0b0000000001001#13) = .ok .grow := by decide +kernel
theorem test_decode_restore_cursor : decode (.micro 0b0000000001010#13) = .ok .restoreCursor := by decide +kernel
theorem test_decode_ola_frame : decode (.micro 0b0000000001011#13) = .ok .olaFrame := by decide +kernel
theorem test_decode_scale : decode (.micro 0b0000000001100#13) = .ok .scale := by decide +kernel
theorem test_decode_zero_frame : decode (.micro 0b0000000001101#13) = .ok .zeroFrame := by decide +kernel
theorem test_decode_commit_and_out : decode (.micro 0b0000000001111#13) = .ok .commitAndOut := by decide +kernel
/-- Lag 80 is period 40. -/
theorem test_decode_prime : decode (.micro 0b1010000000100#13) = .ok (.prime 40) := by decide +kernel
/-- 30 samples to `tmp`. -/
theorem test_decode_pull : decode (.micro 0b0011110011000#13) = .ok (.pull .tmp 30) := by decide +kernel
/-- A window of 80. -/
theorem test_decode_reconcile_blend : decode (.micro 0b1010000001110#13) = .ok (.reconcileBlend 80) := by
  decide +kernel
theorem test_decode_conceal : decode (.command 1#1282) = .ok .conceal := by decide +kernel
theorem test_decode_construct : decode (.command 2#1282) = .ok .construct := by decide +kernel
theorem test_decode_reserved : decode (.command 3#1282) = .ok .reserved := by decide +kernel
/-- The command word of program 3.3, command 2 (96_test_programs.md). -/
theorem test_decode_accept :
    decode (.command
      0x002cc02c802c402c002bc02b802b402b002ac02a802a402a0029c029802940290028c028802840280027c027802740270026c026802640260025c025802540250024c024802440240023c023802340230022c022802240220021c021802140210020c02080204020001fc01f801f401f001ec01e801e401e001dc01d801d401d001cc01c801c401c001bc01b801b401b001ac01a801a401a0019c019801940190#1282) =
      .ok (.accept rampFrame) := by decide +kernel
theorem test_refuses_stray_operand : decode (.micro 0b0000000011001#13) = .error .strayOperand := by decide +kernel
theorem test_refuses_reserved_destination :
    decode (.micro 0b0000000111000#13) = .error .reservedDestination := by decide +kernel
theorem test_refuses_long_pull : decode (.micro 0b0011111011000#13) = .error .lengthTooLong := by decide +kernel
theorem test_refuses_large_lag : decode (.micro 0b1010001000100#13) = .error .lagTooLarge := by decide +kernel

/-! ### Vectors of 95_test_vectors.md 2.1, 2.2, 2.6 and of R92, R94 -/

theorem test_widen_values :
    [0, 1, -1, 32767, -32768, 12345, -3].map (fun k => (widen (BitVec.ofInt 16 k) : FP)) =
      [0x00000000#32, 0x3f800000#32, 0xbf800000#32, 0x46fffe00#32, 0xc7000000#32, 0x4640e400#32, 0xc0400000#32] := by
  decide +kernel
/-- 1.5, -1.5, 997.5, -997.5, 32767.5, -32768.5, 1e9, -1e9, both infinities, a NaN, -0.0. -/
theorem test_narrow_values :
    [0x3fc00000#32, 0xbfc00000#32, 0x44796000#32, 0xc4796000#32, 0x46ffff00#32, 0xc7000080#32, 0x4e6e6b28#32,
      0xce6e6b28#32, 0x7f800000#32, 0xff800000#32, 0x7fc00000#32, 0x80000000#32].map (narrow (F := FpFormat.binary32)) =
      samples [1, -1, 997, -997, 32767, -32768, 32767, -32768, 32767, -32768, 0, 0] := by decide +kernel
/-- `blend([10,10,10], [20,20,20], 3)` of R94: the written order of operations shows. -/
theorem test_blend_order :
    blend (F := FpFormat.binary32) [fp 10, fp 10, fp 10] [fp 20, fp 20, fp 20] 3 = [0x41200000#32, 0x41555555#32, 0x41855556#32] := by
  decide +kernel
/-- `blend_s([7]*10, [-7]*10, 10)` of R95. -/
theorem test_blendS_truncates :
    blendS FpFormat.binary32 (flat 10 7) (flat 10 (-7)) 10 = samples [7, 5, 4, 2, 1, 0, -1, -2, -4, -5] := by decide +kernel
/-- The table of 2.6.1. -/
theorem test_olen :
    [(1, 10), (2, 10), (3, 10), (4, 10), (3, 15), (2, 17), (3, 17), (9, 20)].map (fun q => olenOf q.1 q.2) =
      [10, 42, 74, 80, 79, 49, 80, 80] := by decide

/-! ### One step of each instruction -/

/-- From reset, ACCEPT `[100..179]` (R176): 30 zeros, then 100..149; STATUS 0. -/
theorem test_accept_pass :
    after (exec (.accept rampFrame) State.reset)
      (fun t => (t.rsp.frame, t.rsp.raw.take 1, t.rsp.status)) =
      some (flat 30 0 ++ rampFrame.take 50, samples [100], 0x00000000#32) := by decide +kernel
/-- Program 3.1, command 3: RECONCILE after two lost frames. -/
theorem test_accept_reconcile :
    after (exec (.accept silence) (burst 2 41 2 37)) (fun t => (t.rsp.status, t.win.readCursor)) =
      some (0x0005A900#32, some 79) := by decide +kernel
/-- Program 3.1, command 1: ONSET on silence. -/
theorem test_conceal_onset :
    after (exec .conceal State.reset) (fun t => (t.rsp.status, t.win.readCursor, t.win.overlapSpan)) =
      some (0x0001A901#32, some 39, some 10) := by decide +kernel
/-- Program 3.1, command 2: EXTEND. -/
theorem test_conceal_extend :
    after (exec .conceal (burst 1 41 1 39)) (fun t => (t.rsp.status, t.win)) =
      some (0x0002A902#32, ⟨some 41, some 10, some 82, some 308, some 37⟩) := by decide +kernel
/-- R168: from a faulted block, STATUS `0x00060000`. -/
theorem test_construct :
    after (exec .construct (faulted .illegalCmd)) (fun t => (t.rsp.status, t.fault, t.rsp.valid)) =
      some (0x00060000#32, .none, true) := by decide +kernel
/-- R203 and R33: FAULT 1 in bits 20..19, BRANCH 7 in bits 18..16. -/
theorem test_reserved :
    after (exec .reserved State.reset) (fun t => t.rsp.status) = some 0x000F0000#32 := by decide +kernel
theorem test_idle : exec .idle (burst 1 40 1 0) = .next (burst 1 40 1 0) := rfl
/-- R132: -30 becomes `0xC1F00000`. -/
theorem test_widen_history :
    after (exec .widenHistory (State.reset.setHistory (flat 389 0 ++ samples [-30])))
      (fun t => t.mem.pitchBuffer[389]?) = some (some 0xC1F00000#32) := by decide +kernel
/-- Vector 2.3.1: an all-zero buffer, coarse lag 80. -/
theorem test_findpitch_coarse :
    after (exec .findpitchCoarse State.reset) (fun t => t.work.bestLag) = some 80 := by decide +kernel
/-- Vector 2.3.1: then fine lag 79. -/
theorem test_findpitch_fine :
    after (exec .findpitchFine { State.reset with work := { Work.zeroed with bestLag := 80 } })
      (fun t => (t.work.bestLag, t.work.lo, t.work.hi)) = some (79, 79, 80) := by decide +kernel
/-- Vector 2.3.4: a step, with negative scores; coarse score `447.2135925292969` at lag 80. -/
theorem test_findpitch_step :
    after (exec .findpitchCoarse
        (State.reset.setPitchBuffer (List.replicate 290 (fp 100) ++ List.replicate 100 (fp (-100)))))
      (fun t => (t.work.bestLag, t.work.bestScore)) = some (80, 0x43df9b57#32) := by decide +kernel
/-- PRIME(97) of R136. -/
theorem test_prime :
    after (exec (.prime 97) State.reset) (fun t => (t.win, t.primed)) =
      some (⟨some 97, some 24, some 97, some 293, some 0⟩, true) := by decide +kernel

/-- The tail of the examples of R138, R140 and R141. -/
def tailExample : List Int := [-103, -83, -62, -42, -22, -2, 19, 39, 59, 79]
/-- The samples before the window in those examples. -/
def beforeExample : List Int := [-113, -93, -72, -52, -32, -12, 9, 29, 49, 69]
/-- A block primed with period 40 that holds those samples. -/
def tailState : State :=
  { burst 1 40 1 0 with
    mem := { Memory.cleared (P := Params.standard) with
      pitchBuffer := List.replicate 340 (0#_ : FP) ++ beforeExample.map fp ++ List.replicate 30 0#_ ++ tailExample.map fp
      savedTail := tailExample.map (fun k => some (fp k : FP)) ++ List.replicate 20 none } }

theorem test_snapshot_tail :
    after (exec .snapshotTail tailState) (fun t => (t.mem.savedTail.take 10, t.mem.savedTail.drop 10)) =
      some (tailExample.map (fun k => some (fp k : FP)), List.replicate 20 none) := by decide +kernel
theorem test_ola_tail :
    after (exec .olaTail tailState) (fun t => t.mem.pitchBuffer.drop 380) =
      some ([-103, -84, -64, -45, -26, -7, 13, 32, 51, 70].map (fun k => (fp k : FP))) := by decide +kernel
/-- R141: `-30.000001907348633` is written as -30. -/
theorem test_writeback_tail :
    after (exec .writebackTail
        ((burst 1 40 1 0).setPitchBuffer (List.replicate 389 0#_ ++ [0xC1F00001#32])))
      (fun t => t.mem.history.drop 388) = some (samples [0, -30]) := by decide +kernel
/-- R134: `L = 41`, `start = 349`, cursor 0, 80 samples: cursor 39. The window holds its own indices. -/
theorem test_pull_wraps :
    after (exec (.pull .obuf 80) ((burst 1 41 1 0).setPitchBuffer ((List.range 390).map (fun i => fp i))))
      (fun t => (t.win.readCursor, (t.work.obuf.drop 39).take 3)) =
      some (some 39, samples [388, 389, 349]) := by decide +kernel
/-- 2.4: `L = 40`, cursor 30, 15 samples: cursor 5. -/
theorem test_pull_cursor :
    after (exec (.pull .tmp 15) (burst 1 40 1 30)) (fun t => t.win.readCursor) = some (some 5) := by decide +kernel
/-- R137: `P = 80`. -/
theorem test_grow :
    after (exec .grow (burst 1 80 1 0)) (fun t => (t.win.periodBufferLength, t.win.pitchPeriodStart)) =
      some (some 160, some 230) := by decide +kernel
/-- R142: 95 modulo 60. -/
theorem test_restore_cursor :
    after (exec .restoreCursor { burst 2 60 2 5 with work := { Work.zeroed with saveCursor := 95 } })
      (fun t => t.win.readCursor) = some (some 35) := by decide +kernel
/-- The example of R97. -/
theorem test_ola_frame :
    after (exec .olaFrame
        { burst 1 40 1 0 with
          work := { Work.zeroed with
            tmp := samples [90, 110, 130, 150, 171, 191, 211, 231, 252, 272] ++ flat 20 0
            obuf := samples [80, 100, 120, 140, 161, 181, 201, 221, 242, 262] ++ flat 70 5 } })
      (fun t => t.work.obuf.take 12) =
      some (samples [90, 109, 128, 147, 167, 186, 205, 224, 244, 263, 5, 5]) := by decide +kernel
/-- 2.5: all 1000 with `n = 1`, and the gain after the 80th decrement. -/
theorem test_scale_first :
    after (exec .scale ((burst 1 40 1 0).setObuf (flat 80 1000)))
      (fun t => (t.work.obuf.take 5, t.work.obuf.drop 78, t.work.g)) =
      some (samples [1000, 997, 995, 992, 990], samples [805, 802], 0x3f4cccd0#32) := by decide +kernel
/-- 2.5: all 1000 with `n = 5`. -/
theorem test_scale_last :
    after (exec .scale ((burst 5 40 3 0).setObuf (flat 80 1000)))
      (fun t => (t.work.obuf.take 5, t.work.obuf.drop 78)) =
      some (samples [199, 197, 195, 192, 190], samples [5, 2]) := by decide +kernel
theorem test_zero_frame :
    after (exec .zeroFrame (State.reset.setObuf rampFrame)) (fun t => t.work.obuf) = some (flat 80 0) := by
  decide +kernel
/-- The second example of R154: `count = 2`, `olen = 42`. -/
theorem test_reconcile_blend :
    after (exec (.reconcileBlend 42)
        { burst 2 40 2 0 with work := { Work.zeroed with synth := flat 80 1000, obuf := flat 80 (-1000) } })
      (fun t => (t.work.obuf.take 4, t.work.obuf.drop 42)) =
      some (samples [800, 757, 714, 671], flat 38 (-1000)) := by decide +kernel
/-- R131 from reset. -/
theorem test_commit_and_out :
    after (exec .commitAndOut (State.reset.setObuf rampFrame)) (fun t => (t.mem.history, t.rsp.frame)) =
      some (flat 310 0 ++ rampFrame, flat 30 0 ++ rampFrame.take 50) := by decide +kernel

/-! ### Other values of the parameters (R9) -/

/-- A `pitch_buffer` of zeros but for `ref[161]` = 100 (R111). -/
def spike (P : Params) : StateOf P :=
  (State.initial P).setPitchBuffer (List.replicate 271 (fp 0) ++ fp 100 :: List.replicate 118 (fp 0))

/-- R114 by hand, `COARSE_ENTER` = 161: `ref[161]` enters at the first step and never leaves, so the energy ends
at 10000. -/
theorem test_coarse_enter_161 :
    after (execConfigured .findpitchCoarse (spike Params.standard)) (fun t => t.work.energy) =
      some 0x461c4000#32 := by decide +kernel
/-- R114 by hand, `COARSE_ENTER` = 160: only `ref[160]`, `ref[162]`, ... enter, so the energy stays zero. -/
theorem test_coarse_enter_160 :
    after (execConfigured .findpitchCoarse (spike ⟨.binary32, 8, 160⟩)) (fun t => t.work.energy) =
      some 0#32 := by decide +kernel
/-- `W_EC` = 3 (R28): the count stops at 7. -/
theorem test_count_of_three_bits :
    after (execConfigured .conceal { State.initial ⟨.binary32, 3, 161⟩ with erasureCount := 7 })
      (fun t => t.erasureCount) = some 7 := by decide +kernel
/-- `FPFMT` = binary64: 1.0, -3.0 and `ATTENFAC`, the binary64 number nearest to 0.2. -/
theorem test_binary64 :
    [widen 1#16, widen (BitVec.ofInt 16 (-3)), attenFac (F := .binary64)] =
      [0x3FF0000000000000#64, 0xC008000000000000#64, 0x3FC999999999999A#64] := by decide +kernel

/-! ### The output ports (R52, R70, R231) -/

/-- After ACCEPT `[100..179]`: lane 30 of `rsp_frame` and lane 79 of `rsp_raw`; STATUS 0. -/
theorem test_ports :
    after (exec (.accept rampFrame) State.reset) (fun t =>
      ((ports t).rspFrame.extractLsb' 480 16, (ports t).rspRaw.extractLsb' 1264 16, (ports t).rspStatus,
        (ports t).cmdReady)) = some (100#16, 179#16, 0#32, true) := by decide +kernel
/-- `rst` holds `cmd_ready` at 0 in its cycle. -/
theorem test_cmd_ready_under_rst : (ports (offered [.rst])).cmdReady = false := by decide +kernel

/-! ### How a word comes to run (log 2) -/

/-- The word the next step takes. -/
def fetched (s : State) : Option CodeWord :=
  match fetch s with
  | .resetNow _ => none
  | .word c _ => some c

/-- The row of SCALE as the first micro-operation after reset. -/
theorem test_fetch_scale : fetched (State.reset.withFetchWord 8 12) = some (.micro 12#13) := by decide +kernel
/-- The row of CONCEAL as the first command after reset. -/
theorem test_fetch_conceal : fetched (State.reset.withFetchWord 1288 1) = some (.command 1#1282) := by decide +kernel

/-! ### The states above meet the invariant -/

theorem reset_inv : Machine.Inv State.reset where
  memory := Memory.cleared_wf
  buffers := by decide
  idle := rfl
  noOperand := rfl
  count := by decide
  frameBuses := ⟨rfl, rfl⟩
  registers := fun _ => ⟨fun _ => ⟨rfl, rfl⟩, fun h => by cases h⟩

theorem offered_inv (inputs : List HostInput) : Machine.Inv (offered inputs) :=
  ⟨Memory.cleared_wf, reset_inv.buffers, rfl, rfl, reset_inv.count, ⟨rfl, rfl⟩,
    fun _ => ⟨fun _ => ⟨rfl, rfl⟩, fun h => by cases h⟩⟩

theorem offered_steps (w : CommandWord) : ∃ t, step (offered [.command w]) = .next t :=
  exec_goes_on (decodeCommand w) (takeCommand (offered [.command w]) [])

theorem burst_wf (count p k c : Nat) : (burst count p k c).mem.wf = true :=
  (Memory.wf_iff _).2 ⟨List.length_replicate, List.length_replicate, List.length_replicate⟩

theorem burst_work_wf (count p k c : Nat) : (burst count p k c).work.wf = true := by
  show Work.zeroed.wf = true
  decide

theorem burst_holds (count p k c : Nat) :
    windowHolds (burst count p k c) p (p / 4) (k * p) (390 - k * p) c := ⟨rfl, rfl⟩

theorem burst_tail {count p k c i : Nat} (h : i < 30) :
    ∃ v, (burst count p k c).mem.savedTail[i]? = some (some v) :=
  ⟨0#_, by show (List.replicate 30 (some (0#_ : FP)))[i]? = _; rw [List.getElem?_replicate, if_pos h]⟩

theorem burst_inv {count p k c : Nat} (hp : 40 ≤ p) (hp' : p ≤ 120) (hc : c < k * p) (h1 : 1 ≤ count)
    (h2 : count ≤ 255) (hk : k = min count 3) : Machine.Inv (burst count p k c) where
  memory := burst_wf ..
  buffers := burst_work_wf ..
  idle := rfl
  noOperand := rfl
  count := h2
  frameBuses := ⟨rfl, rfl⟩
  registers := fun _ =>
    { whenUnprimed := fun h => by cases h
      whenPrimed := fun _ => ⟨p, k, c,
        { periodLow := hp, periodHigh := hp', periodsLow := by omega, periodsHigh := by omega
          cursorInside := hc, registers := rfl
          tailWritten := fun i hi => burst_tail (by omega)
          afterOne := fun h => by simp only [burst] at h; omega
          afterTwo := fun h => by simp only [burst] at h; omega
          afterMore := fun h => by simp only [burst] at h; omega }⟩ }

theorem reset_in_range : ValuesInRange State.reset := by
  intro _
  constructor
  · intro x hx
    have : x = 0#_ := List.eq_of_mem_replicate hx
    subst this
    decide +kernel
  · intro x hx
    have := List.eq_of_mem_replicate hx
    cases this

theorem burst_in_range (count p k c : Nat) : ValuesInRange (burst count p k c) := by
  intro _
  constructor
  · intro x hx
    have : x = 0#_ := List.eq_of_mem_replicate hx
    subst this
    decide +kernel
  · intro x hx
    have : some x = some 0#_ := List.eq_of_mem_replicate hx
    cases this
    decide +kernel

/-! ### The search on zeros -/

theorem zero_plus_square : fadd (fp 0) (fmul (fp 0) (fp 0)) = (fp 0 : FP) := by decide +kernel

theorem zero_minus_square : fsub (fp 0) (fmul (fp 0) (fp 0)) = (fp 0 : FP) := by decide +kernel

theorem zero_score : Fp.isNaN (scoreAt (fp 0) (fp 0)) = false := by decide +kernel

theorem reset_get (k : Nat) : State.reset.mem.pitchBuffer.getD k (fp 0) = fp 0 := by
  have h : (fp 0 : FP) = 0#_ := by decide +kernel
  show (List.replicate 390 (0#_ : FP)).getD k (fp 0) = fp 0
  rw [h, List.getD_eq_getElem?_getD, List.getElem?_replicate]
  split <;> rfl

theorem zero_sum (n : Nat) : sumOf n (fun _ => fp 0) (fun _ => fp 0) = fp 0 := by
  unfold sumOf
  induction n with
  | zero => rfl
  | succ n ih => rw [List.range_succ, List.foldl_append, ih, List.foldl_cons, List.foldl_nil, zero_plus_square]

theorem reset_coarse_energy (n : Nat) : coarseEnergyAt State.reset n = fp 0 := by
  induction n with
  | zero => simp only [coarseEnergyAt, Formula.refAt, reset_get, zero_sum]
  | succ n ih => simp only [coarseEnergyAt, Formula.refAt, reset_get, ih, zero_minus_square, zero_plus_square]

theorem reset_fine_energy (lo n : Nat) : fineEnergyAt State.reset lo n = fp 0 := by
  induction n with
  | zero => simp only [fineEnergyAt, Formula.refAt, reset_get, zero_sum]
  | succ n ih => simp only [fineEnergyAt, Formula.refAt, reset_get, ih, zero_minus_square, zero_plus_square]

/-! ### Witnesses: each statement's hypotheses can be met, clause by clause -/

theorem wit_DecodeAndEncodeAgree :
    [Instr.accept rampFrame, .conceal, .construct, .reserved, .idle, .widenHistory, .findpitchCoarse, .findpitchFine,
      .prime 40, .prime 120, .snapshotTail, .olaTail, .writebackTail, .pull .obuf 80, .pull .tmp 30, .pull .synth 80,
      .grow, .restoreCursor, .olaFrame, .scale, .zeroFrame, .reconcileBlend 80, .commitAndOut].all
      (fun i => i.wellFormed) = true := by decide +kernel
theorem wit_MicroWordsHaveOneMeaning :
    decode (.micro 0b1010000000100#13) = .ok (.prime 40) ∧ decode (.micro 0b0000000000100#13) = .ok (.prime 120) ∧
      decode (.micro 0b0000000001000#13) = .ok (.pull .obuf 0) := by decide +kernel
theorem wit_FrameLanesOfTheCommandWord : rampFrame.length = 80 := by decide +kernel
theorem wit_OpcodeMap :
    (0#1282).extractLsb' 0 2 = 0#2 ∧ (1#1282).extractLsb' 0 2 = 1#2 ∧ (2#1282).extractLsb' 0 2 = 2#2 ∧
      (3#1282).extractLsb' 0 2 = 3#2 := by decide +kernel
theorem wit_StepRunsTheOfferedCommand :
    (offered [.command 1#1282]).phase = 0#4 ∧ (offered [.command 1#1282]).inbox = .command 1#1282 :: [] ∧
      decode (.command 1#1282) = .ok .conceal := by decide +kernel
theorem wit_StepRunsTheMicroOperation :
    (∀ rest, (sequenced 12#4).inbox ≠ .rst :: rest) ∧ (sequenced 12#4).phase ≠ 0#4 ∧
      decode (.micro ((sequenced 12#4).operand ++ (sequenced 12#4).phase)) = .ok .scale :=
  ⟨(by intro _ h; cases h), by decide, by decide +kernel⟩
theorem wit_RstHasPriority : (offered [.rst]).inbox = .rst :: [] := rfl
theorem wit_IdleStepChangesNothing :
    State.reset.inbox = [] ∧ State.reset.phase = 0#4 ∧ State.reset.operand = 0#9 := ⟨rfl, rfl, rfl⟩
theorem wit_ResetLeavesTheStatedValues :
    (offered [.rst]).inbox = .rst :: [] ∧ ∃ t, exec .construct State.reset = .next t ∧ t.inbox = [] :=
  ⟨rfl, _, rfl, rfl⟩
theorem wit_EveryStepKeepsTheInvariant :
    Machine.Inv (offered [.command 0#1282]) ∧ ∃ t, step (offered [.command 0#1282]) = .next t :=
  ⟨offered_inv _, offered_steps _⟩
/-- The same inside a burst, with an IDLE step. -/
theorem wit_EveryStepKeepsTheInvariant_primed :
    Machine.Inv (burst 255 120 3 359) ∧ ∃ t, step (burst 255 120 3 359) = .next t :=
  ⟨burst_inv (by decide) (by decide) (by decide) (by decide) (by decide) (by decide), _, rfl⟩
theorem wit_NoStepRaisesInvariantFault :
    Machine.Inv (burst 3 40 3 0) ∧ (burst 3 40 3 0).fault ≠ .invariant :=
  ⟨burst_inv (by decide) (by decide) (by decide) (by decide) (by decide) (by decide), by decide⟩
theorem wit_PitchBufferStaysInRange :
    Machine.Inv (burst 1 40 1 39) ∧ ValuesInRange (burst 1 40 1 39) ∧ ∃ t, step (burst 1 40 1 39) = .next t :=
  ⟨burst_inv (by decide) (by decide) (by decide) (by decide) (by decide) (by decide), burst_in_range 1 40 1 39, _, rfl⟩
theorem wit_StatusWordFields :
    State.reset.primed = false ∧ (burst 1 120 1 0).primed = true ∧ (burst 1 120 1 0).win.pitchPeriod = some 120 :=
  ⟨rfl, rfl, rfl⟩
/-- A fault; then the counts 0, 1, 2, 3, 5 and 6 at the edges of the rows. -/
theorem wit_DispatchTable :
    FaultCode.illegalCmd ≠ .none ∧ (0 : Nat) = 0 ∧ 1 ≤ 1 ∧ (1 ≤ 2 ∧ 2 ≤ 2) ∧ (3 ≤ 3 ∧ 3 ≤ 5) ∧ (3 ≤ 5 ∧ 5 ≤ 5) ∧ 6 ≤ 6 := by
  decide
theorem wit_CommandsMoveTheNamedState :
    (Machine.Inv State.reset ∧ State.reset.fault = .none ∧ silence.length = 80) ∧
      (Machine.Inv (burst 255 40 3 119) ∧ (burst 255 40 3 119).fault = .none) :=
  ⟨⟨reset_inv, rfl, by decide⟩, burst_inv (by decide) (by decide) (by decide) (by decide) (by decide) (by decide), rfl⟩
theorem wit_PassCommitsTheFrame :
    State.reset.fault = .none ∧ State.reset.erasureCount = 0 ∧ State.reset.mem.wf = true ∧ rampFrame.length = 80 :=
  ⟨rfl, rfl, Memory.cleared_wf, by decide +kernel⟩
theorem wit_ReconcileBlendsTheFrame :
    Machine.Inv (burst 1 40 1 39) ∧ (burst 1 40 1 39).fault = .none ∧ 1 ≤ (burst 1 40 1 39).erasureCount ∧
      silence.length = 80 ∧ windowHolds (burst 1 40 1 39) 40 10 40 350 39 :=
  ⟨burst_inv (by decide) (by decide) (by decide) (by decide) (by decide) (by decide), rfl, by decide, by decide,
    burst_holds 1 40 1 39⟩
/-- The same with the longest burst and window. -/
theorem wit_ReconcileBlendsTheFrame_long :
    Machine.Inv (burst 255 120 3 359) ∧ (burst 255 120 3 359).fault = .none ∧
      1 ≤ (burst 255 120 3 359).erasureCount ∧ windowHolds (burst 255 120 3 359) 120 30 360 30 359 :=
  ⟨burst_inv (by decide) (by decide) (by decide) (by decide) (by decide) (by decide), rfl, by decide,
    burst_holds 255 120 3 359⟩
theorem wit_OnsetPrimesAndPlays :
    Machine.Inv State.reset ∧ State.reset.fault = .none ∧ State.reset.erasureCount = 0 := ⟨reset_inv, rfl, rfl⟩
theorem wit_ExtendGrowsTheWindow :
    (Machine.Inv (burst 1 40 1 0) ∧ (burst 1 40 1 0).fault = .none ∧ windowHolds (burst 1 40 1 0) 40 10 40 350 0) ∧
      (Machine.Inv (burst 2 120 2 239) ∧ (burst 2 120 2 239).fault = .none ∧
        windowHolds (burst 2 120 2 239) 120 30 240 150 239) :=
  ⟨⟨burst_inv (by decide) (by decide) (by decide) (by decide) (by decide) (by decide), rfl, burst_holds 1 40 1 0⟩,
    burst_inv (by decide) (by decide) (by decide) (by decide) (by decide) (by decide), rfl, burst_holds 2 120 2 239⟩
theorem wit_SteadyRepeatsTheWindow :
    (Machine.Inv (burst 3 40 3 0) ∧ (burst 3 40 3 0).fault = .none ∧ windowHolds (burst 3 40 3 0) 40 10 120 270 0) ∧
      (Machine.Inv (burst 5 120 3 359) ∧ (burst 5 120 3 359).fault = .none ∧
        windowHolds (burst 5 120 3 359) 120 30 360 30 359) :=
  ⟨⟨burst_inv (by decide) (by decide) (by decide) (by decide) (by decide) (by decide), rfl, burst_holds 3 40 3 0⟩,
    burst_inv (by decide) (by decide) (by decide) (by decide) (by decide) (by decide), rfl, burst_holds 5 120 3 359⟩
theorem wit_MuteEmitsSilence :
    (burst 6 40 3 0).fault = .none ∧ 6 ≤ (burst 6 40 3 0).erasureCount ∧ (burst 6 40 3 0).mem.wf = true :=
  ⟨rfl, by decide, burst_wf ..⟩
theorem wit_SilentHistoryGivesSilence :
    Machine.Inv State.reset ∧ State.reset.fault = .none ∧ State.reset.erasureCount = 0 ∧
      State.reset.mem.history = List.replicate 390 0#16 := ⟨reset_inv, rfl, rfl, rfl⟩
theorem wit_ReservedOpcodeIsIllegal : State.reset.fault = .none := rfl
theorem wit_FaultedBlockRefuses :
    (faulted .illegalCmd).fault ≠ .none ∧ (faulted .invariant).fault ≠ .none ∧
      ((∃ frame, Instr.accept silence = .accept frame) ∧ Instr.conceal = .conceal ∧ Instr.reserved = .reserved) :=
  ⟨by decide, by decide, ⟨_, rfl⟩, rfl, rfl⟩
/-- An IDLE step, a refused ACCEPT, a CONSTRUCT and a cycle of `rst`. -/
theorem wit_FaultIsStickyUntilConstruct :
    [[], [.command 0#1282], [.command 2#1282], [.rst]].all (fun inputs =>
      after (step { faulted .illegalCmd with inbox := inputs }) (fun _ => true) == some true) = true ∧
      (faulted .illegalCmd).phase = 0#4 ∧ (faulted .illegalCmd).operand = 0#9 ∧ (faulted .illegalCmd).fault ≠ .none := by
  decide +kernel
theorem wit_UnprimedReadsFault : State.reset.primed = false ∧ (1 : Nat) ≠ 0 := ⟨rfl, by decide⟩
/-- One state for each clause, all outside the invariant; each index is the first one outside its array. -/
theorem wit_IndexOutsideTheArrayFaults :
    (windowHolds (windowed 40 10 381 9 0) 40 10 381 9 0 ∧ 9 < 10) ∧
      (windowHolds (windowed 124 31 124 266 0) 124 31 124 266 0 ∧ (windowed 124 31 124 266 0).mem.wf = true ∧
        (windowed 124 31 124 266 0).work.wf = true ∧ 30 < 31) ∧
      (windowHolds (windowed 40 1 40 391 0) 40 1 40 391 0 ∧ (windowed 40 1 40 391 0).mem.wf = true ∧ 390 < 391 ∧
        1 ≠ 0) ∧
      (windowHolds (windowed 40 391 40 350 0) 40 391 40 350 0 ∧ (windowed 40 391 40 350 0).mem.wf = true ∧
        390 < 391) ∧
      (windowHolds (windowed 40 10 41 350 0) 40 10 41 350 0 ∧ 40 < 41 ∧ 0 < 41 ∧
        (windowed 40 10 41 350 0).mem.pitchBuffer.length ≤ 350 + (0 + 40) % 41) ∧
      (windowHolds (windowed 40 10 40 350 40) 40 10 40 350 40 ∧ 0 < 1 ∧ 40 ≤ 40 ∧
        (windowed 40 10 40 350 40).mem.pitchBuffer.length ≤ 350 + (40 + 0)) ∧
      (windowHolds (windowed 40 10 351 39 0) 40 10 351 39 0 ∧ 390 < 351 + 40) ∧
      (State.reset.mem.wf = true ∧ 122 ≤ { Work.zeroed (P := Params.standard) with bestLag := 122 }.bestLag) := by
  have hw : Work.wf (Work.zeroed (P := Params.standard)) = true := by decide
  have hl : State.reset.mem.pitchBuffer.length = 390 := List.length_replicate
  exact ⟨⟨⟨rfl, rfl⟩, by decide⟩, ⟨⟨rfl, rfl⟩, Memory.cleared_wf, hw, by decide⟩,
    ⟨⟨rfl, rfl⟩, Memory.cleared_wf, by decide, by decide⟩, ⟨⟨rfl, rfl⟩, Memory.cleared_wf, by decide⟩,
    ⟨⟨rfl, rfl⟩, by decide, by decide, Nat.le_of_eq hl⟩, ⟨⟨rfl, rfl⟩, by decide, by decide, Nat.le_of_eq hl⟩,
    ⟨⟨rfl, rfl⟩, by decide⟩, Memory.cleared_wf, by decide⟩
theorem wit_WidenHistoryRefreshesThePitchBuffer : State.reset.mem.wf = true := Memory.cleared_wf
/-- At reset no score is a NaN either. -/
theorem wit_CoarseSearchKeepsTheLatestBest :
    State.reset.mem.wf = true ∧ ∀ m, m ≤ 40 → Fp.isNaN (coarseScoreAt State.reset m) = false := by
  refine ⟨Memory.cleared_wf, fun m _ => ?_⟩
  simp only [coarseScoreAt, corrCoarseAt, Formula.refAt, tgtAt, reset_get, zero_sum, reset_coarse_energy, zero_score]

/-- Coarse winners 0 and 80; no score near them is a NaN. -/
theorem wit_FineSearchKeepsTheEarliestBest :
    State.reset.mem.wf = true ∧ State.reset.work.bestLag ≤ 80 ∧
      ∀ lo m, Fp.isNaN (fineScoreAt State.reset lo m) = false := by
  refine ⟨Memory.cleared_wf, by decide, fun lo m => ?_⟩
  simp only [fineScoreAt, corrFineAt, Formula.refAt, tgtAt, reset_get, zero_sum, reset_fine_energy, zero_score]
theorem wit_PitchIsAlwaysInRange : (burst 1 40 1 0).mem.wf = true := burst_wf ..
theorem wit_SnapshotTailCopiesTheTail :
    windowHolds (burst 1 120 1 0) 120 30 120 270 0 ∧ (burst 1 120 1 0).mem.wf = true ∧ 30 ≤ 30 :=
  ⟨burst_holds 1 120 1 0, burst_wf .., by decide⟩
/-- The lowest window of all: `start = ov = 30`. -/
theorem wit_OlaTailBlendsTheTail :
    windowHolds (burst 3 120 3 0) 120 30 360 30 0 ∧ (burst 3 120 3 0).mem.wf = true ∧ 30 ≤ 30 ∧ 30 ≤ 390 ∧
      ∀ i, i < 30 → ∃ x, (burst 3 120 3 0).mem.savedTail[i]? = some (some x) :=
  ⟨burst_holds 3 120 3 0, burst_wf .., by decide, by decide, fun _ h => burst_tail h⟩
theorem wit_WritebackTailNarrowsTheTail :
    windowHolds (burst 1 43 1 0) 43 10 43 347 0 ∧ (burst 1 43 1 0).mem.wf = true ∧ 10 ≤ 390 :=
  ⟨burst_holds 1 43 1 0, burst_wf .., by decide⟩
theorem wit_PullReadsTheWindowCircularly :
    windowHolds (burst 1 40 1 39) 40 10 40 350 39 ∧ (burst 1 40 1 39).mem.wf = true ∧
      (burst 1 40 1 39).work.wf = true ∧ 39 < 40 ∧ 350 + 40 ≤ 390 ∧ 80 ≤ PullDst.obuf.capacity ∧
      30 ≤ PullDst.tmp.capacity ∧ 80 ≤ PullDst.synth.capacity ∧ 0 ≤ PullDst.tmp.capacity :=
  ⟨burst_holds 1 40 1 39, burst_wf .., burst_work_wf .., by decide, by decide, by decide, by decide, by decide, by decide⟩
theorem wit_GrowAddsOnePeriod : windowHolds (burst 2 120 2 0) 120 30 240 150 0 ∧ 240 + 120 ≤ 390 :=
  ⟨burst_holds 2 120 2 0, by decide⟩
theorem wit_RestoreCursorReducesTheSavedCursor : windowHolds (burst 2 60 2 0) 60 15 120 270 0 ∧ 0 < 60 :=
  ⟨burst_holds 2 60 2 0, by decide⟩
theorem wit_OlaFrameBlendsTheFrameStart :
    windowHolds (burst 2 120 2 0) 120 30 240 150 0 ∧ (burst 2 120 2 0).work.wf = true ∧ 30 ≤ 30 :=
  ⟨burst_holds 2 120 2 0, burst_work_wf .., by decide⟩
theorem wit_ScaledSamplesNeedNoSaturation : (1 ≤ 1 ∧ 1 ≤ 5 ∧ 0 < 80) ∧ (1 ≤ 5 ∧ 5 ≤ 5 ∧ 79 < 80) := by decide
theorem wit_ReconcileBlendFadesIntoTheFrame :
    (1 ≤ 1 ∧ 1 ≤ 5) ∧ (1 ≤ 5 ∧ 5 ≤ 5) ∧ (6 ≤ 6 ∧ 6 ≤ 255) ∧ (6 ≤ 255 ∧ 255 ≤ 255) ∧
      (burst 9 40 3 0).work.wf = true ∧ 80 ≤ 80 :=
  ⟨by decide, by decide, by decide, by decide, burst_work_wf .., by decide⟩
theorem wit_CommitAndOutShiftsTheHistory : State.reset.mem.wf = true ∧ State.reset.work.wf = true :=
  ⟨Memory.cleared_wf, by decide⟩
theorem wit_GainTableBits : (1 ≤ 1) ∧ (7 < 256 ∧ 7 ≤ 7) ∧ (255 < 256 ∧ 7 ≤ 255) := by decide
theorem wit_GainFallsMonotonically : (1 < 5 ∧ 1 ≤ 1 ∧ 0 < 80) ∧ (4 < 5 ∧ 1 ≤ 4 ∧ 79 < 80) ∧ (5 < 6 ∧ 78 < 79) := by
  decide
/-- A NaN; the next number above 32767 and +infinity; the next below -32768 and -infinity; both ends of the range. -/
theorem wit_NarrowSaturatesAndTruncates :
    Fp.isNaN (F := FpFormat.binary32) 0x7fc00000#32 = true ∧
      (flt (satHi : FP) 0x46fffe01#32 = true ∧ flt (satHi : FP) 0x7f800000#32 = true) ∧
      (flt (F := FpFormat.binary32) 0xc7000001#32 (satLo : FP) = true ∧ flt (F := FpFormat.binary32) 0xff800000#32 (satLo : FP) = true) ∧
      (Fp.isNaN (satHi : FP) = false ∧ flt (satHi : FP) satHi = false ∧ flt (satHi : FP) satLo = false) ∧
      (Fp.isNaN (satLo : FP) = false ∧ flt (satHi : FP) satLo = false ∧ flt (satLo : FP) satLo = false) := by decide +kernel
theorem wit_DelayIsExactlyThirtySamples : ∀ f ∈ [rampFrame, silence], f.length = 80 := by decide +kernel
theorem wit_WorkingRegistersAreUnobservable :
    ((∃ frame, Instr.accept silence = .accept frame ∧ frame.length = 80) ∧ Instr.conceal = .conceal ∧
      Instr.construct = .construct ∧ Instr.reserved = .reserved) ∧
      State.reset.work.wf = true ∧ (freeWork 0 : Work Params.standard).wf = true :=
  ⟨⟨⟨_, rfl, by decide⟩, rfl, rfl, rfl⟩, by decide, freeWork_wf 0⟩
theorem wit_FrameCommandsAreTheirMicroOperations :
    (Machine.Inv State.reset ∧ State.reset.fault = .none ∧ silence.length = 80) ∧
      (Machine.Inv (burst 6 40 3 0) ∧ (burst 6 40 3 0).fault = .none) :=
  ⟨⟨reset_inv, rfl, by decide⟩, burst_inv (by decide) (by decide) (by decide) (by decide) (by decide) (by decide), rfl⟩
theorem wit_OutputPortsShowTheState : rampFrame.length = 80 ∧ silence.length = 80 := by decide +kernel
theorem wit_EveryAcceptedCommandIsAnswered :
    (offered [.command 1#1282]).phase = 0#4 ∧ (offered [.command 1#1282]).inbox = .command 1#1282 :: [] := by
  decide +kernel
/-- A response to a command, and one to an `InvariantFault` of a micro-operation. -/
theorem wit_EveryAcceptedCommandIsAnswered_response :
    after (step (offered [.command 2#1282])) (fun t => t.rsp.valid) = some true ∧
      after (step (sequenced 9#4)) (fun t => t.rsp.valid) = some true ∧
      after (step (sequenced 9#4)) (fun t => t.fault) = some .invariant := by decide +kernel

end Sys2Proof.Tests
end

/-! SUPPORT. That no branch of a frame command faults between commands (R139): what the micro-operations keep of
a block inside a branch, and each branch run through. -/

namespace Sys2Proof.Machine

variable {P : Params}

/-! ### Blocks inside a branch -/

/-- The arrays and the working buffers have their lengths (R21, R22, R23, R35). -/
structure Sized (s : StateOf P) : Prop where
  memory : s.mem.wf = true
  buffers : s.work.wf = true

/-- A primed block inside a branch (R37 items 3 and 4): period `p`, window of `k` periods, cursor `c`. Unlike
`WindowOk` it says nothing of `erasure_count` and `saved_tail`, which a branch has still to bring up to date. -/
structure PrimedBlock (s : StateOf P) (p k c : Nat) : Prop extends Sized s where
  primed : s.primed = true
  registers : s.win = ⟨some p, some (p / 4), some (k * p), some (390 - k * p), some c⟩
  periodLow : 40 ≤ p
  periodHigh : p ≤ 120
  periodsHigh : k ≤ 3
  cursorInside : c < k * p

/-- The first `n` elements of `saved_tail` hold values (R29). -/
def TailWritten {α : Type} (tail : List (Option α)) (n : Nat) : Prop := ∃ left : List α, tail.take n = left.map some

theorem tailWritten_of_get {α : Type} {tail : List (Option α)} {n : Nat} (hn : n ≤ tail.length)
    (h : ∀ i, i < n → ∃ v, tail[i]? = some (some v)) : TailWritten tail n := by
  have hsome : ∀ x ∈ tail.take n, x.isSome = true := by
    intro x hx
    obtain ⟨i, hi, rfl⟩ := List.mem_take_iff_getElem.1 hx
    obtain ⟨v, hv⟩ := h i (by omega)
    rw [List.getElem?_eq_getElem (by omega), Option.some_inj] at hv
    rw [hv]; rfl
  exact ⟨(tail.take n).pmap Option.get hsome, by simp [List.map_pmap]⟩

namespace PrimedBlock

variable {s : StateOf P} {p k c : Nat}

/-- A window of at most three periods leaves room before it for the overlap (R37 item 3). -/
theorem window_le (h : PrimedBlock s p k c) : k * p ≤ 360 :=
  Nat.mul_le_mul h.periodsHigh h.periodHigh

/-- Writing the cursor keeps the block primed if the cursor stays inside the window. -/
theorem withCursor (h : PrimedBlock s p k c) {c' : Nat} (hc : c' < k * p) : PrimedBlock (s.setCursor c') p k c' :=
  { h with
    registers := by simp [h.registers]
    cursorInside := hc }

/-- Writing `obuf` keeps the block primed if the frame's length stays. -/
theorem withObuf (h : PrimedBlock s p k c) {b : Block} (hb : b.length = 80) : PrimedBlock (s.setObuf b) p k c :=
  { h with buffers := Work.setBuffer_wf (dst := .obuf) h.buffers hb }

/-! ### The micro-operations of a primed block -/

theorem snapshotTail_ok (h : PrimedBlock s p k c) :
    ∃ t, snapshotTail s = .ok t ∧ PrimedBlock t p k c ∧ TailWritten t.mem.savedTail (p / 4) := by
  obtain ⟨-, hpb, htl⟩ := (Memory.wf_iff _).1 h.memory
  have hp := h.periodHigh
  have hlen : (((s.mem.pitchBuffer.drop (390 - p / 4)).take (p / 4)).map some).length = p / 4 := by simp; omega
  refine ⟨_, snapshotTail_inside h.primed h.registers h.memory (by omega), ?_, ?_⟩
  · exact { h with memory := setSavedTail_wf h.memory (by rw [List.length_append, hlen]; simp; omega) }
  · exact ⟨_, List.take_left' hlen⟩

theorem olaTail_ok (h : PrimedBlock s p k c) (ht : TailWritten s.mem.savedTail (p / 4)) :
    ∃ t, olaTail s = .ok t ∧ PrimedBlock t p k c ∧ t.mem.savedTail = s.mem.savedTail := by
  obtain ⟨left, hleft⟩ := ht
  obtain ⟨-, hpb, htl⟩ := (Memory.wf_iff _).1 h.memory
  have hp := h.periodHigh
  have hwin := h.window_le
  have hll : left.length = p / 4 := by
    have := congrArg List.length hleft
    simp at this; omega
  have hb := length_blend (n := p / 4) hll.ge
    (show p / 4 ≤ ((s.mem.pitchBuffer.drop (390 - k * p - p / 4)).take (p / 4)).length by simp; omega)
  refine ⟨_, olaTail_inside h.primed h.registers h.memory (by omega) (by omega) (by omega) hleft, ?_, rfl⟩
  exact { h with memory := setPitchBuffer_wf h.memory (by rw [List.length_append, hb]; simp; omega) }

theorem writebackTail_ok (h : PrimedBlock s p k c) :
    ∃ t, writebackTail s = .ok t ∧ PrimedBlock t p k c ∧ t.mem.savedTail = s.mem.savedTail := by
  obtain ⟨hh, hpb, -⟩ := (Memory.wf_iff _).1 h.memory
  have hp := h.periodHigh
  refine ⟨_, writebackTail_inside h.primed h.registers h.memory (by omega), ?_, rfl⟩
  exact { h with memory := setHistory_wf h.memory (by simp; omega) }

theorem pull_ok (h : PrimedBlock s p k c) {dst : PullDst} {n : Nat} (hn : n ≠ 0) (hcap : n ≤ dst.capacity) :
    ∃ t, pull dst n s = .ok t ∧ PrimedBlock t p k ((c + n) % (k * p)) ∧ t.mem = s.mem := by
  have hwin := h.window_le
  have hbuf : (s.work.buffer dst).length = dst.capacity := Work.buffer_length h.buffers dst
  obtain ⟨vs, hvs, -, hpull⟩ :=
    pull_inside h.primed h.registers h.memory h.cursorInside (by omega) hn (by omega : n ≤ (s.work.buffer dst).length)
  have hwritten : PrimedBlock { s with work := s.work.setBuffer dst (overlay vs (s.work.buffer dst)) } p k c :=
    { h with buffers := Work.setBuffer_wf h.buffers ((length_overlay (by omega)).trans hbuf) }
  exact ⟨_, hpull, hwritten.withCursor (Nat.mod_lt _ (Nat.zero_lt_of_lt h.cursorInside)), rfl⟩

theorem grow_ok (h : PrimedBlock s p k c) (hk : k ≤ 2) :
    ∃ t, grow s = .ok t ∧ PrimedBlock t p (k + 1) c ∧ t.mem = s.mem := by
  have hp := h.periodHigh
  have hc := h.cursorInside
  have hlen : k * p ≤ 2 * 120 := Nat.mul_le_mul hk hp
  have hsucc : (k + 1) * p = k * p + p := Nat.succ_mul k p
  refine ⟨_, grow_inside h.primed h.registers (by omega), ?_, rfl⟩
  exact { h with
    registers := by rw [hsucc]
    periodsHigh := by omega
    cursorInside := by omega }

theorem saveCursor_ok (h : PrimedBlock s p k c) :
    ∃ t, saveCursor s = .ok t ∧ PrimedBlock t p k c ∧ t.mem = s.mem :=
  ⟨_, saveCursor_inside h.primed h.registers, { h with }, rfl⟩

theorem restoreCursor_ok (h : PrimedBlock s p k c) :
    ∃ t c', restoreCursor s = .ok t ∧ PrimedBlock t p k c' ∧ t.mem = s.mem := by
  have hp := h.periodLow
  have hk : 1 ≤ k := Nat.pos_of_ne_zero fun h0 => by have := h.cursorInside; simp [h0] at this
  have hc : s.work.saveCursor % p < k * p :=
    (Nat.mod_lt _ (by omega)).trans_le (Nat.le_mul_of_pos_left p hk)
  exact ⟨_, _, restoreCursor_inside h.primed h.registers (by omega), h.withCursor hc, rfl⟩

theorem olaFrame_ok (h : PrimedBlock s p k c) :
    ∃ t, olaFrame s = .ok t ∧ PrimedBlock t p k c ∧ t.mem = s.mem := by
  obtain ⟨ho, ht, -⟩ := (Work.wf_iff _).1 h.buffers
  have hp := h.periodHigh
  have hb := length_blendS (F := P.fpFormat) (n := p / 4) (left := s.work.tmp.take (p / 4))
    (right := s.work.obuf.take (p / 4)) (by simp; omega) (by simp; omega)
  refine ⟨_, olaFrame_inside h.primed h.registers (by omega) (by omega), ?_, rfl⟩
  exact h.withObuf (by rw [length_overlay (by omega), ho])

theorem scale_ok (h : PrimedBlock s p k c) :
    ∃ t, scale s = .ok t ∧ PrimedBlock t p k c ∧ t.mem = s.mem := by
  refine ⟨_, scale_eq s, ?_, rfl⟩
  exact { h with buffers := by simpa [Work.wf_iff] using h.buffers }

theorem reconcileBlend_ok (h : PrimedBlock s p k c) {n : Nat} (hn : n ≤ 80) :
    ∃ t, reconcileBlend n s = .ok t ∧ PrimedBlock t p k c ∧ t.mem = s.mem := by
  obtain ⟨ho, -, hsy⟩ := (Work.wf_iff _).1 h.buffers
  have hb := length_reconcileBlocks (g := reconcileGain (F := P.fpFormat) s.erasureCount) (n := n)
    (left := s.work.synth.take n) (right := s.work.obuf.take n) (by simp; omega) (by simp; omega)
  refine ⟨_, reconcileBlend_inside (by omega) (by omega), ?_, rfl⟩
  exact h.withObuf (by rw [length_overlay (by omega), ho])

end PrimedBlock

/-! ### The pitch search and PRIME -/

theorem SearchKeeps.wf {w w' : Work P} (h : SearchKeeps w w') (hw : w.wf = true) : w'.wf = true := by
  simpa only [Work.wf_iff, h.obuf, h.tmp, h.synth] using hw

theorem widenHistory_ok {s : StateOf P} (h : Sized s) : ∃ t, widenHistory s = .ok t ∧ Sized t := by
  obtain ⟨hh, hpb, -⟩ := (Memory.wf_iff _).1 h.memory
  exact ⟨_, widenHistory_inside h.memory, setPitchBuffer_wf h.memory (by simp; omega), h.buffers⟩

theorem findpitchCoarse_ok {s : StateOf P} (h : Sized s) :
    ∃ t, findpitchCoarse s = .ok t ∧ Sized t ∧ t.work.bestLag ≤ 80 := by
  have hrun := findpitchCoarse_inside h.memory
  have hwf := (coarseSearch_keeps (referenceOf s) (targetOf s) s.work).wf h.buffers
  have hlag := (coarseSearch_bestLag (referenceOf s) (targetOf s) s.work).2
  -- The 41 candidates are not to be evaluated when the fields of the new state are compared.
  generalize coarseSearch (referenceOf s) (targetOf s) s.work = w at hrun hwf hlag
  exact ⟨_, hrun, ⟨h.memory, hwf⟩, hlag⟩

theorem findpitchFine_ok {s : StateOf P} (h : Sized s) (hb : s.work.bestLag ≤ 80) :
    ∃ t, findpitchFine s = .ok t ∧ Sized t ∧ t.work.bestLag ≤ 80 := by
  refine ⟨_, findpitchFine_inside h.memory hb, ⟨h.memory, (fineSearch_keeps ..).wf h.buffers⟩, ?_⟩
  have hfine := (fineSearch_bestLag (referenceOf s) (targetOf s) (lo := s.work.bestLag - 1)
    (hi := min (s.work.bestLag + 1) 80) (by omega) s.work).2
  exact hfine.trans (by omega)

theorem prime_ok {s : StateOf P} (h : Sized s) {p : Nat} (hp : 40 ≤ p) (hp' : p ≤ 120) :
    ∃ t, prime p s = .ok t ∧ PrimedBlock t p 1 0 := by
  refine ⟨_, prime_eq p s, ?_⟩
  exact { h with
    primed := rfl
    registers := by simp
    periodLow := hp
    periodHigh := hp'
    periodsHigh := by decide
    cursorInside := by omega }

/-! ### The branches -/

/-- ONSET never faults: it primes a window of one period, whatever the block held before (R170). -/
theorem onset_ok {s : StateOf P} (h : Sized s) :
    ∃ t p c, onset s = .ok t ∧ PrimedBlock t p 1 c ∧ TailWritten t.mem.savedTail (p / 4) := by
  obtain ⟨s₁, h₁, hs₁⟩ := widenHistory_ok h
  obtain ⟨s₂, h₂, hs₂, hlag₂⟩ := findpitchCoarse_ok hs₁
  obtain ⟨s₃, h₃, hs₃, hlag₃⟩ := findpitchFine_ok hs₂ hlag₂
  obtain ⟨s₄, h₄, hb₄⟩ := prime_ok hs₃ (p := pitchResult s₃)
    (by show 40 ≤ 120 - s₃.work.bestLag; omega) (by show 120 - s₃.work.bestLag ≤ 120; omega)
  obtain ⟨s₅, h₅, hb₅, htail⟩ := hb₄.snapshotTail_ok
  obtain ⟨s₆, h₆, hb₆, ht₆⟩ := hb₅.olaTail_ok htail
  obtain ⟨s₇, h₇, hb₇, ht₇⟩ := hb₆.writebackTail_ok
  obtain ⟨s₈, h₈, hb₈, hm₈⟩ := hb₇.pull_ok (dst := .obuf) (n := 80) (by decide) (by decide)
  refine ⟨s₈, _, _, ?_, hb₈, by rwa [hm₈, ht₇, ht₆]⟩
  simp only [onset, Except.bind_ok_iff]
  exact ⟨s₁, h₁, s₂, h₂, s₃, h₃, s₄, h₄, s₅, h₅, s₆, h₆, s₇, h₇, h₈⟩

/-- EXTEND never faults while the window is at most two periods long: it becomes one period longer (R172). -/
theorem extend_ok {s : StateOf P} {p k c : Nat} (h : PrimedBlock s p k c) (hk : k ≤ 2)
    (ht : TailWritten s.mem.savedTail (p / 4)) :
    ∃ t c', extend s = .ok t ∧ PrimedBlock t p (k + 1) c' ∧ t.mem.savedTail = s.mem.savedTail := by
  have hp := h.periodLow
  have hp' := h.periodHigh
  obtain ⟨s₁, h₁, hb₁, hm₁⟩ := h.saveCursor_ok
  have hspan := readSpan hb₁.primed hb₁.registers
  obtain ⟨s₂, h₂, hb₂, hm₂⟩ := hb₁.pull_ok (dst := .tmp) (n := p / 4) (by omega) (by show p / 4 ≤ 30; omega)
  obtain ⟨s₃, h₃, hb₃, hm₃⟩ := hb₂.grow_ok hk
  obtain ⟨s₄, h₄, hb₄, ht₄⟩ := hb₃.olaTail_ok (by rwa [hm₃, hm₂, hm₁])
  obtain ⟨s₅, c₅, h₅, hb₅, hm₅⟩ := hb₄.restoreCursor_ok
  obtain ⟨s₆, h₆, hb₆, hm₆⟩ := hb₅.pull_ok (dst := .obuf) (n := 80) (by decide) (by decide)
  obtain ⟨s₇, h₇, hb₇, hm₇⟩ := hb₆.olaFrame_ok
  obtain ⟨s₈, h₈, hb₈, hm₈⟩ := hb₇.scale_ok
  refine ⟨s₈, _, ?_, hb₈, by rw [hm₈, hm₇, hm₆, hm₅, ht₄, hm₃, hm₂, hm₁]⟩
  simp only [extend, Except.bind_ok_iff]
  exact ⟨s₁, h₁, p / 4, hspan, s₂, h₂, s₃, h₃, s₄, h₄, s₅, h₅, s₆, h₆, s₇, h₇, h₈⟩

/-- STEADY never faults on a primed block (R173). -/
theorem steady_ok {s : StateOf P} {p k c : Nat} (h : PrimedBlock s p k c) :
    ∃ t c', steady s = .ok t ∧ PrimedBlock t p k c' ∧ t.mem = s.mem := by
  obtain ⟨s₁, h₁, hb₁, hm₁⟩ := h.pull_ok (dst := .obuf) (n := 80) (by decide) (by decide)
  obtain ⟨s₂, h₂, hb₂, hm₂⟩ := hb₁.scale_ok
  exact ⟨s₂, _, Except.bind_ok_iff.2 ⟨s₁, h₁, h₂⟩, hb₂, hm₂.trans hm₁⟩

/-- RECONCILE never faults on a primed block (R177). -/
theorem reconcile_ok {s : StateOf P} {p k c : Nat} (h : PrimedBlock s p k c) :
    ∃ t c', reconcile s = .ok t ∧ PrimedBlock t p k c' ∧ t.mem = s.mem := by
  have hp := h.periodLow
  have hlow : olenOf s.erasureCount (p / 4) ≠ 0 := by simp only [olenOf, Config.frameSz]; omega
  have hhigh : olenOf s.erasureCount (p / 4) ≤ 80 := Nat.min_le_right ..
  obtain ⟨s₁, h₁, hb₁, hm₁⟩ := h.pull_ok (dst := .synth) hlow hhigh
  obtain ⟨s₂, h₂, hb₂, hm₂⟩ := hb₁.reconcileBlend_ok hhigh
  refine ⟨s₂, _, ?_, hb₂, hm₂.trans hm₁⟩
  simp only [reconcile, Except.bind_ok_iff]
  exact ⟨p / 4, readSpan h.primed h.registers, s₁, h₁, h₂⟩

/-! ### The block between commands -/

theorem Inv.sized {s : StateOf P} (h : Inv s) : Sized s := ⟨h.memory, h.buffers⟩

/-- Inside a burst the block is primed, and its window is that of the invariant (R37 items 2 to 4). -/
theorem Inv.primedBlock {s : StateOf P} (h : Inv s) (hf : s.fault = .none) (hn : 1 ≤ s.erasureCount) :
    ∃ p k c, WindowOk s p k c ∧ PrimedBlock s p k c := by
  have hreg : RegistersOk s := h.registers (by rw [hf]; decide)
  have hp : s.primed = true := by
    by_contra hne
    obtain ⟨hz, -⟩ := hreg.whenUnprimed (by simpa using hne)
    omega
  obtain ⟨p, k, c, hw⟩ := hreg.whenPrimed hp
  exact ⟨p, k, c, hw, h.sized, hp, hw.registers, hw.periodLow, hw.periodHigh, hw.periodsHigh, hw.cursorInside⟩

theorem WindowOk.tailWritten_take {s : StateOf P} {p k c : Nat} (h : WindowOk s p k c) (hm : s.mem.wf = true) :
    TailWritten s.mem.savedTail (p / 4) := by
  obtain ⟨-, -, htl⟩ := (Memory.wf_iff _).1 hm
  have hp := h.periodHigh
  exact tailWritten_of_get (by omega) h.tailWritten

/-- In the first two erasures the window is at most two periods long (R37 item 3). -/
theorem WindowOk.periods_le_two {s : StateOf P} {p k c : Nat} (h : WindowOk s p k c) (h1 : 1 ≤ s.erasureCount)
    (h2 : s.erasureCount ≤ 2) : k ≤ 2 := by
  rcases (by omega : s.erasureCount = 1 ∨ s.erasureCount = 2) with hn | hn
  · rw [h.afterOne hn]; decide
  · rw [h.afterTwo hn]

end Sys2Proof.Machine

/-! SUPPORT. A branch that does not fault is its micro-operations run one after another (R170, R172, R173, R174,
R177), and the statement about whole frame commands. -/

namespace Sys2Proof.Machine

/-! ### Running micro-operations -/

/-- The first micro-operation of a program, given what it does to the state it starts in. -/
theorem runMicros_cons {f : State → Instr} {rest : List (State → Instr)} {s t u : State}
    {r : Except Violation State} (hr : r = .ok t) (he : exec (f s) s = finishMicro r s)
    (ht : runMicros rest t = .next u) : runMicros (f :: rest) s = .next u := by
  rw [runMicros, he, hr, finishMicro]
  exact ht

theorem spanOf_of_readReg {P : Params} {s : StateOf P} {ov : Nat} (h : readReg .overlapSpan s = .ok ov) :
    spanOf s = ov := by
  obtain ⟨-, hget⟩ := readReg_ok_iff.1 h
  exact congrArg (Option.getD · 0) hget

/-- The save that opens EXTEND is what `branchStart` does (R172). -/
theorem branchStart_extend_of_saveCursor {s t : State} (h : saveCursor s = .ok t) : branchStart .extend s = t := by
  obtain ⟨c, hc, ht⟩ := Except.bind_ok_iff.1 h
  obtain ⟨-, hget⟩ := readReg_ok_iff.1 hc
  cases ht
  rw [branchStart, show s.win.readCursor = some c from hget, Option.getD_some]

/-- PULL changes neither `overlap_span` nor `erasure_count` (R134), so RECONCILE's second operand is its first. -/
theorem pull_frame {P : Params} {dst : PullDst} {n : Nat} {s t : StateOf P} (h : pull dst n s = .ok t) :
    spanOf t = spanOf s ∧ t.erasureCount = s.erasureCount := by
  unfold pull at h
  split at h
  · cases h; exact ⟨rfl, rfl⟩
  · simp only [Except.bind_ok_iff] at h
    obtain ⟨start, -, c, -, len, -, r, -, b, hb, ht⟩ := h
    obtain ⟨-, rfl⟩ := writeBuffer_ok_iff.1 hb
    cases ht
    exact ⟨rfl, rfl⟩

/-! ### Each branch is its micro-operations -/

theorem runMicros_onset {s u : State} (h : onset s = .ok u) : runMicros (microProgram .onset) s = .next u := by
  simp only [onset, Except.bind_ok_iff] at h
  obtain ⟨s₁, h₁, s₂, h₂, s₃, h₃, s₄, h₄, s₅, h₅, s₆, h₆, s₇, h₇, h₈⟩ := h
  exact runMicros_cons h₁ rfl <| runMicros_cons h₂ rfl <| runMicros_cons h₃ rfl <| runMicros_cons h₄ rfl <|
    runMicros_cons h₅ rfl <| runMicros_cons h₆ rfl <| runMicros_cons h₇ rfl <| runMicros_cons h₈ rfl rfl

theorem runMicros_extend {s u : State} (h : extend s = .ok u) :
    runMicros (microProgram .extend) (branchStart .extend s) = .next u := by
  simp only [extend, Except.bind_ok_iff] at h
  obtain ⟨s₁, h₁, ov, hov, s₂, h₂, s₃, h₃, s₄, h₄, s₅, h₅, s₆, h₆, s₇, h₇, h₈⟩ := h
  obtain rfl := spanOf_of_readReg hov
  rw [branchStart_extend_of_saveCursor h₁]
  exact runMicros_cons h₂ rfl <| runMicros_cons h₃ rfl <| runMicros_cons h₄ rfl <| runMicros_cons h₅ rfl <|
    runMicros_cons h₆ rfl <| runMicros_cons h₇ rfl <| runMicros_cons h₈ rfl rfl

theorem runMicros_steady {s u : State} (h : steady s = .ok u) : runMicros (microProgram .steady) s = .next u := by
  obtain ⟨s₁, h₁, h₂⟩ := Except.bind_ok_iff.1 h
  exact runMicros_cons h₁ rfl <| runMicros_cons h₂ rfl rfl

theorem runMicros_mute {s u : State} (h : mute s = .ok u) : runMicros (microProgram .mute) s = .next u :=
  runMicros_cons (r := zeroFrame s) h rfl rfl

theorem runMicros_reconcile {s u : State} (h : reconcile s = .ok u) :
    runMicros (microProgram .reconcile) s = .next u := by
  simp only [reconcile, Except.bind_ok_iff] at h
  obtain ⟨ov, hov, s₁, h₁, h₂⟩ := h
  obtain rfl := spanOf_of_readReg hov
  obtain ⟨hspan, hcount⟩ := pull_frame h₁
  rw [← hspan, ← hcount] at h₂
  exact runMicros_cons h₁ rfl <| runMicros_cons h₂ rfl rfl

/-! ### The branch that dispatch chooses -/

/-- Between commands the branch of CONCEAL ends without a fault, as its micro-operations do (R139, R166). -/
theorem concealBranch_runs {s : State} (hi : Inv s) (hf : s.fault = .none) :
    ∃ u, runConceal (concealBranch s.erasureCount) s = .ok u ∧
      runMicros (microProgram (concealBranch s.erasureCount)) (branchStart (concealBranch s.erasureCount) s) =
        .next u := by
  rcases Nat.eq_zero_or_pos s.erasureCount with h0 | h1
  · rw [h0, concealBranch_zero]
    obtain ⟨u, -, -, hu, -⟩ := onset_ok hi.sized
    exact ⟨u, hu, runMicros_onset hu⟩
  obtain ⟨p, k, c, hw, hb⟩ := hi.primedBlock hf h1
  rcases (by omega : s.erasureCount ≤ 2 ∨ (3 ≤ s.erasureCount ∧ s.erasureCount ≤ 5) ∨ 6 ≤ s.erasureCount)
    with h2 | ⟨h3, h5⟩ | h6
  · rw [concealBranch_extend h1 h2]
    obtain ⟨u, -, hu, -⟩ := extend_ok hb (hw.periods_le_two h1 h2) (hw.tailWritten_take hi.memory)
    exact ⟨u, hu, runMicros_extend hu⟩
  · rw [concealBranch_steady h3 h5]
    obtain ⟨u, -, hu, -⟩ := steady_ok hb
    exact ⟨u, hu, runMicros_steady hu⟩
  · rw [concealBranch_mute h6]
    have hu : mute s = .ok (s.setObuf silence) := zeroFrame_eq s
    exact ⟨_, hu, runMicros_mute hu⟩

/-- Between commands the branch of ACCEPT ends without a fault, as its micro-operations do (R139, R166). -/
theorem acceptBranch_runs {s : State} (hi : Inv s) (hf : s.fault = .none) {frame : Block}
    (hframe : frame.length = 80) :
    ∃ u, runAccept (acceptBranch s.erasureCount) (s.setObuf frame) = .ok u ∧
      runMicros (microProgram (acceptBranch s.erasureCount))
        (branchStart (acceptBranch s.erasureCount) (s.setObuf frame)) = .next u := by
  rcases Nat.eq_zero_or_pos s.erasureCount with h0 | h1
  · rw [show acceptBranch s.erasureCount = .pass from if_pos h0]
    exact ⟨_, rfl, rfl⟩
  · rw [show acceptBranch s.erasureCount = .reconcile from if_neg (by omega)]
    obtain ⟨p, k, c, -, hb⟩ := hi.primedBlock hf h1
    obtain ⟨u, -, hu, -⟩ := reconcile_ok (hb.withObuf hframe)
    exact ⟨u, hu, runMicros_reconcile hu⟩

/-- The end of a frame command is COMMIT_AND_OUT with the new count and branch, then the response (R175, R176). -/
theorem finishFrame_ok (b : Branch) (count : Nat) (s u : State) :
    ∃ v, exec .commitAndOut { u with erasureCount := count, lastBranch := b } = .next v ∧
      finishFrame b count (.ok u) s = .next (respond v) := ⟨_, rfl, rfl⟩

/-- Settles O57: no branch faults between commands, a branch that does not fault is its micro-operations, and the
end of the command is COMMIT_AND_OUT and the response. -/
theorem frameCommandsAreTheirMicroOperations : Obligations.FrameCommandsAreTheirMicroOperations := by
  intro s hi hf
  constructor
  · obtain ⟨u, hu, hmicros⟩ := concealBranch_runs hi hf
    obtain ⟨v, hv, hend⟩ := finishFrame_ok (concealBranch s.erasureCount) (min (s.erasureCount + 1) 255) s u
    refine ⟨u, v, hmicros, hv, ?_⟩
    calc execConceal s
      _ = finishFrame _ (countAfter _ s.erasureCount) (runConceal _ s) s := execConceal_running hf
      _ = .next (respond v) := by rw [hu]; exact hend
  · intro frame hframe
    obtain ⟨u, hu, hmicros⟩ := acceptBranch_runs hi hf hframe
    obtain ⟨v, hv, hend⟩ := finishFrame_ok (acceptBranch s.erasureCount) 0 s u
    refine ⟨u, v, hmicros, hv, ?_⟩
    calc execAccept frame s
      _ = finishFrame _ 0 (runAccept _ (s.setObuf frame)) s := execAccept_running hf frame
      _ = .next (respond v) := by rw [hu, hend]

end Sys2Proof.Machine

/-! SUPPORT. The bit patterns of the floating-point constants (R7). -/

namespace Sys2Proof.Machine

theorem corrMinPower_bits : (corrMinPower : FP) = 0x437A0000#32 := by decide
theorem attenFac_bits : (attenFac : FP) = 0x3E4CCCCD#32 := by decide
theorem satHi_bits : (satHi : FP) = 0x46FFFE00#32 := by decide
theorem satLo_bits : (satLo : FP) = 0xC7000000#32 := by decide

/-- `ATTENINCR` comes from the already rounded `ATTENFAC` (R7). -/
theorem attenIncr_eq : (attenIncr : FP) = fdiv attenFac (fp 80) := rfl

theorem fp_eighty_bits : (fp 80 : FP) = 0x42A00000#32 := by decide

theorem attenIncr_bits : (attenIncr : FP) = 0x3B23D70A#32 := by
  rw [attenIncr_eq, attenFac_bits, fp_eighty_bits]
  decide

/-- Settles O49: each constant rounds to its pattern, and `ATTENINCR` is one division of rounded values. -/
theorem floatConstantBits : Obligations.FloatConstantBits :=
  ⟨attenIncr_eq, corrMinPower_bits, attenFac_bits, attenIncr_bits, satHi_bits, satLo_bits⟩

end Sys2Proof.Machine

/-! SUPPORT. What one step can do: the next thing fetched, and the four host commands. -/

namespace Sys2Proof.Machine

/-! ### The word the block takes -/

/-- With no `rst` presented, the sequencer's word is run when it is not IDLE (R35, R78). -/
theorem stepBy_of_phase {s : State} (hrst : ∀ rest, s.inbox ≠ .rst :: rest) (hphase : s.phase ≠ 0#4) {i : Instr}
    (hi : decode (.micro (sequencerWord s)) = .ok i) : step s = exec i (takeMicro s) := by
  have hfetch : fetch s = .word (.micro (sequencerWord s)) (takeMicro s) := by
    unfold fetch
    split
    · next rest hin => exact absurd hin (hrst rest)
    · exact if_neg hphase
    · rfl
  simp only [step, stepBy, hfetch, hi]

theorem decode_idleWord : decode (.micro (0#9 ++ 0#4)) = .ok .idle := by decide

/-- What a step of an IDLE block is: a cycle of `rst`, the command offered, or IDLE itself (R71, R165, R231). -/
theorem step_idle_cases {s t : State} (hphase : s.phase = 0#4) (hoperand : s.operand = 0#9) (h : step s = .next t) :
    (∃ rest, s.inbox = .rst :: rest ∧ t = afterRst s rest) ∨
    (∃ w rest, s.inbox = .command w :: rest ∧ exec (decodeCommand w) (takeCommand s rest) = .next t) ∨
    (s.inbox = [] ∧ t = takeMicro s) := by
  unfold step stepBy fetch at h
  cases hin : s.inbox with
  | nil =>
    simp only [hin, sequencerWord, hphase, hoperand, decode_idleWord] at h
    cases h
    exact .inr (.inr ⟨rfl, rfl⟩)
  | cons input rest =>
    cases input with
    | rst =>
      simp only [hin] at h
      cases h
      exact .inl ⟨rest, rfl, rfl⟩
    | command w =>
      simp only [hin, hphase, if_true, decode] at h
      exact .inr (.inl ⟨w, rest, rfl, h⟩)

/-! ### The command of a command word -/

@[simp] theorem length_unpackLanes (n bus : Nat) : (unpackLanes n bus).length = n := by
  induction n generalizing bus with
  | zero => rfl
  | succ n ih => rw [unpackLanes, List.length_cons, ih]

/-- A command word is one of the four commands, and its frame has 80 samples (R72, R75). -/
theorem decodeCommand_cases (w : CommandWord) :
    (∃ frame, decodeCommand w = .accept frame ∧ frame.length = 80) ∨ decodeCommand w = .conceal ∨
      decodeCommand w = .construct ∨ decodeCommand w = .reserved := by
  unfold decodeCommand
  split
  · exact .inl ⟨_, rfl, length_unpackLanes ..⟩
  · exact .inr (.inl rfl)
  · exact .inr (.inr (.inl rfl))
  · exact .inr (.inr (.inr rfl))

/-! ### Commands on a faulted block (R206) -/

variable {P : Params} {s : StateOf P}

theorem execAccept_faulted (hf : s.fault ≠ .none) (frame : Block) : execAccept frame s = .next (refuse s) := by
  simp only [execAccept, dispatch, if_neg hf]

theorem execConceal_faulted (hf : s.fault ≠ .none) : execConceal s = .next (refuse s) := by
  simp only [execConceal, dispatch, if_neg hf]

theorem execReserved_faulted (hf : s.fault ≠ .none) : execReserved s = .next (refuse s) := by
  simp only [execReserved, dispatch, if_neg hf]

theorem execReserved_running (hf : s.fault = .none) : execReserved s = .next (faultEntry .illegalCmd s) := by
  simp only [execReserved, dispatch, if_pos hf]

/-- What a command on a faulted block does: CONSTRUCT runs, every other one is refused. -/
theorem exec_command_faulted {s t : State} {w : CommandWord} (hf : s.fault ≠ .none)
    (h : exec (decodeCommand w) s = .next t) :
    (decodeCommand w = .construct ∧ t = respondSilence (construct s)) ∨ t = refuse s := by
  rcases decodeCommand_cases w with ⟨frame, hw, -⟩ | hw | hw | hw <;> rw [hw] at h
  · exact .inr (Host.Outcome.next.inj (h.symm.trans (execAccept_faulted hf frame)))
  · exact .inr (Host.Outcome.next.inj (h.symm.trans (execConceal_faulted hf)))
  · exact .inl ⟨hw, (Host.Outcome.next.inj h).symm⟩
  · exact .inr (Host.Outcome.next.inj (h.symm.trans (execReserved_faulted hf)))

/-- Settles O7: the sequencer's word is fetched, and the last response is dropped. -/
theorem stepRunsTheMicroOperation : Obligations.StepRunsTheMicroOperation := by
  intro s i hrst hphase hi
  exact ⟨freeResponse s.freeIdx, s.freeIdx + 1, rfl, stepBy_of_phase hrst hphase hi⟩

/-- Settles O29: a step of an IDLE block that is no `rst` and no CONSTRUCT is IDLE or a refusal. -/
theorem faultIsStickyUntilConstruct : Obligations.FaultIsStickyUntilConstruct := by
  intro s t hphase hoperand hf h
  rcases step_idle_cases hphase hoperand h with ⟨rest, hin, rfl⟩ | ⟨w, rest, hin, hexec⟩ | ⟨-, rfl⟩
  · exact .inr ⟨rfl, .inl ⟨rest, hin⟩⟩
  · rcases exec_command_faulted (s := takeCommand s rest) hf hexec with ⟨hw, rfl⟩ | rfl
    · exact .inr ⟨rfl, .inr ⟨w, rest, hin, congrArg Except.ok hw⟩⟩
    · exact .inl rfl
  · exact .inl rfl

end Sys2Proof.Machine

/-! SUPPORT. The STATUS word, and the entry of an `InvariantFault` of a micro-operation that reads an unprimed block. -/

namespace Sys2Proof.Machine

/-! ### STATUS (R33) -/

variable {P : Params}

theorem statusPeriod_unprimed {s : StateOf P} (hp : s.primed = false) : statusPeriod s = 0#7 := by
  simp only [statusPeriod, hp]

theorem statusPeriod_primed {s : StateOf P} (hp : s.primed = true) {p : Nat} (hw : s.win.pitchPeriod = some p) :
    statusPeriod s = BitVec.ofNat 7 p := by
  simp only [statusPeriod, hp, hw]

/-- The response of a command carries the STATUS after it: `respond` writes nothing that STATUS shows (R178). -/
theorem respond_status (s : StateOf P) : (respond s).rsp.status = statusWord (respond s) := rfl

/-- The fields of a word laid out as STATUS is: eleven zeros, then fields of 2, 3, 1, 7 and 8 bits. -/
theorem statusLayout_fields (f : BitVec 2) (b : BitVec 3) (pr : BitVec 1) (p : BitVec 7) (c : BitVec 8)
    {w : BitVec 32} (hw : w = 0#11 ++ f ++ b ++ pr ++ p ++ c) :
    w.extractLsb' 0 8 = c ∧ w.extractLsb' 8 7 = p ∧ w.extractLsb' 15 1 = pr ∧ w.extractLsb' 16 3 = b ∧
      w.extractLsb' 19 2 = f ∧ w.extractLsb' 21 11 = 0#11 := by
  subst hw
  simp (disch := omega) only [BitVec.extractLsb'_append_eq_of_le, BitVec.extractLsb'_append_eq_of_add_le,
    Nat.reduceSub, BitVec.extractLsb'_eq_self, and_self]

/-- Settles O16: STATUS is the concatenation of its fields. -/
theorem statusWordFields : Obligations.StatusWordFields := by
  intro s
  obtain ⟨hcount, hperiod, hprimed, hbranch, hfault, hzero⟩ := statusLayout_fields s.fault.code s.lastBranch.code
    (BitVec.ofBool s.primed) (statusPeriod s) (statusCount s) (w := statusWord s) rfl
  refine ⟨hcount, fun hp => ?_, fun p hp hw => ?_, ?_, ?_, ?_, hzero, by decide, respond_status s⟩
  · rw [hperiod, statusPeriod_unprimed hp]
  · rw [hperiod, statusPeriod_primed hp hw]
  · rw [hprimed]
    cases s.primed <;> rfl
  · rw [hbranch]
    cases s.lastBranch <;> rfl
  · rw [hfault]
    cases s.fault <;> rfl

/-! ### Reads of an unprimed block (R29, R204, R205) -/

/-- What the host sees of the entry of an `InvariantFault` (R205). -/
theorem invariantEntry_entersInvariantFault (s : State) :
    Formula.entersInvariantFault s (invariantEntry s) :=
  ⟨rfl, rfl, ⟨rfl, rfl, rfl, rfl⟩, rfl, rfl, rfl, freeWork_wf _⟩

/-- A micro-operation that starts with a read of a window register, on an unprimed block. -/
theorem finishMicro_readReg_unprimed {s : State} (hp : s.primed = false) (r : WindowReg)
    (rest : Nat → Except Violation State) :
    finishMicro (readReg r s >>= rest) s = .next (invariantEntry s) := by
  rw [readReg_unprimed hp]
  rfl

/-- Settles O30: each of these micro-operations starts with a read of a window register. -/
theorem unprimedReadsFault : Obligations.UnprimedReadsFault := by
  intro s i hp hi
  refine ⟨invariantEntry s, ?_, invariantEntry_entersInvariantFault s⟩
  rcases hi with rfl | rfl | rfl | rfl | rfl | rfl | ⟨dst, n, hn, rfl⟩
  case inr.inr.inr.inr.inr.inr =>
    calc exec (.pull dst n) s
      _ = finishMicro (pull dst n s) s := rfl
      _ = .next (invariantEntry s) := by
        rw [pull, if_neg hn]
        exact finishMicro_readReg_unprimed hp .pitchPeriodStart _
  all_goals exact finishMicro_readReg_unprimed hp _ _

end Sys2Proof.Machine

/-! SUPPORT. The invariant and the ranges at reset (R37, R232). -/

namespace Sys2Proof.Machine

variable {P : Params}

/-- A block whose window registers nothing has written, outside a burst (R37 item 2). -/
theorem RegistersOk.of_unwritten {s : StateOf P} (hp : s.primed = false) (hc : s.erasureCount = 0)
    (hw : s.win = Window.unwritten) : RegistersOk s where
  whenUnprimed _ := ⟨hc, hw⟩
  whenPrimed h := absurd (hp.symm.trans h) (by decide)

theorem Work.zeroed_wf : (Work.zeroed : Work P).wf = true := by
  refine (Work.wf_iff _).2 ⟨?_, ?_, ?_⟩ <;> exact List.length_replicate ..

/-- What `rst` leaves meets the invariant, whatever the block held (R230, R232). -/
theorem afterRst_inv (s : StateOf P) (rest : List HostInput) : Inv (afterRst s rest) where
  memory := Memory.cleared_wf
  buffers := Work.zeroed_wf
  idle := rfl
  noOperand := rfl
  count := Nat.zero_le _
  frameBuses := ⟨List.length_replicate .., List.length_replicate ..⟩
  registers _ := RegistersOk.of_unwritten rfl rfl rfl

/-- Settles O11: the reset state is what `rst` leaves with nothing presented. -/
theorem resetMeetsTheInvariant : Obligations.ResetMeetsTheInvariant := afterRst_inv State.reset []

/-- The elements of `pitch_buffer` and the written ones of `saved_tail` are in range (R22, R37 item 5). -/
def Memory.InRange (m : Memory P) : Prop :=
  (∀ x ∈ m.pitchBuffer, inRange x = true) ∧ ∀ x, some x ∈ m.savedTail → inRange x = true

theorem Memory.InRange.valuesInRange {s : StateOf P} (h : s.mem.InRange) : ValuesInRange s := fun _ => h

theorem inRange_zero : inRange (0#_ : FP) = true := by decide

/-- The arrays after CONSTRUCT or `rst` are in range: zeros, and a tail that nothing has written. -/
theorem Memory.cleared_inRange : (Memory.cleared : Memory Params.standard).InRange := by
  constructor
  · intro x hx
    rw [List.eq_of_mem_replicate hx]
    exact inRange_zero
  · intro x hx
    cases List.eq_of_mem_replicate hx

/-- Settles O12. -/
theorem resetValuesAreInRange : Obligations.ResetValuesAreInRange := Memory.cleared_inRange.valuesInRange

end Sys2Proof.Machine

/-! SUPPORT. Every step keeps the invariant of R37: the window a branch leaves, the end of a frame command, the commands
that answer with zero frames, and the step. -/

namespace Sys2Proof.Machine

variable {P : Params} {s : StateOf P}

/-! ### The window a branch leaves -/

/-- The number of periods of the window that the count calls for (R37 item 3). -/
structure PeriodsFor (count k : Nat) : Prop where
  afterOne : count = 1 → k = 1
  afterTwo : count = 2 → k = 2
  afterMore : 3 ≤ count → k = 3

/-- Outside a burst any window will do. -/
theorem PeriodsFor.zero (k : Nat) : PeriodsFor 0 k := ⟨nofun, nofun, nofun⟩

theorem TailWritten.get {α : Type} {tail : List (Option α)} {n : Nat} (h : TailWritten tail n) (hn : n ≤ tail.length)
    {i : Nat} (hi : i < n) : ∃ v, tail[i]? = some (some v) := by
  obtain ⟨left, hleft⟩ := h
  have hlen : left.length = n := by
    have := congrArg List.length hleft
    simp at this; omega
  refine ⟨left[i], ?_⟩
  calc tail[i]?
    _ = (tail.take n)[i]? := (List.getElem?_take_of_lt hi).symm
    _ = some (some left[i]) := by rw [hleft, List.getElem?_map, List.getElem?_eq_getElem, Option.map_some]

/-- A primed block is one of the invariant when `saved_tail` is written and the count calls for its window. -/
theorem PrimedBlock.windowOk {p k c : Nat} (h : PrimedBlock s p k c) (ht : TailWritten s.mem.savedTail (p / 4))
    (hk : PeriodsFor s.erasureCount k) : WindowOk s p k c := by
  obtain ⟨-, -, htl⟩ := (Memory.wf_iff _).1 h.memory
  have hp := h.periodHigh
  exact { hk with
    periodLow := h.periodLow
    periodHigh := hp
    periodsLow := Nat.pos_of_ne_zero fun h0 => by have := h.cursorInside; simp [h0] at this
    periodsHigh := h.periodsHigh
    cursorInside := h.cursorInside
    registers := h.registers
    tailWritten := fun i hi => ht.get (by omega) hi }

theorem WindowOk.registersOk {p k c : Nat} (h : WindowOk s p k c) (hp : s.primed = true) : RegistersOk s where
  whenUnprimed hne := absurd (hp.symm.trans hne) (by decide)
  whenPrimed _ := ⟨p, k, c, h⟩

/-! ### The end of a command -/

theorem length_delayedFrame {h : List Sample} (hh : h.length = 390) : (delayedFrame h).length = 80 := by
  simp [delayedFrame, hh]
  decide

/-- The window of a block is as good after the epilogue as before, with the new count (R175, R176). -/
theorem PrimedBlock.epilogue_registersOk {p k c : Nat} (h : PrimedBlock s p k c)
    (ht : TailWritten s.mem.savedTail (p / 4)) {count : Nat} (hk : PeriodsFor count k) (b : Branch) :
    RegistersOk (epilogue b count s) := by
  obtain ⟨ho, -, -⟩ := (Work.wf_iff _).1 h.buffers
  have hend : PrimedBlock (epilogue b count s) p k c :=
    { h with memory := commit_wf h.memory ho, buffers := freeWork_wf _ }
  exact (hend.windowOk ht hk).registersOk h.primed

/-- The epilogue of a frame command leaves the invariant if it leaves its registers (R131, R143, R175, R178). -/
theorem epilogue_inv {b : Branch} {count : Nat} (h : Sized s) (hcount : count ≤ P.countMax)
    (hreg : RegistersOk (epilogue b count s)) : Inv (epilogue b count s) := by
  obtain ⟨ho, -, -⟩ := (Work.wf_iff _).1 h.buffers
  have hm : (commit s).mem.wf = true := commit_wf h.memory ho
  obtain ⟨hh, -, -⟩ := (Memory.wf_iff _).1 hm
  exact {
    memory := hm
    buffers := freeWork_wf _
    idle := rfl
    noOperand := rfl
    count := hcount
    frameBuses := ⟨length_delayedFrame hh, ho⟩
    registers := fun _ => hreg }

/-- The end of a frame command whose branch left a primed block (R175, R176). -/
theorem PrimedBlock.finishFrame_inv {u : StateOf P} {p k c : Nat} (h : PrimedBlock u p k c)
    (ht : TailWritten u.mem.savedTail (p / 4)) {count : Nat} (hk : PeriodsFor count k) (hcount : count ≤ P.countMax)
    {r : Except Violation (StateOf P)} (hr : r = .ok u) (b : Branch) (s : StateOf P) :
    ∃ t, finishFrame b count r s = .next t ∧ Inv t :=
  ⟨epilogue b count u, by rw [hr]; rfl, epilogue_inv h.toSized hcount (h.epilogue_registersOk ht hk b)⟩

/-- A response of zero frames leaves the invariant if the block it is given has its arrays, count and registers
(R205, R206). -/
theorem respondSilence_inv (hm : s.mem.wf = true) (hcount : s.erasureCount ≤ P.countMax)
    (hreg : s.fault ≠ .invariant → RegistersOk (respondSilence s)) : Inv (respondSilence s) where
  memory := hm
  buffers := freeWork_wf _
  idle := rfl
  noOperand := rfl
  count := hcount
  frameBuses := ⟨List.length_replicate .., List.length_replicate ..⟩
  registers := hreg

/-- What the invariant says of the registers depends on the registers, the count and `saved_tail` only. -/
theorem RegistersOk.congr {t : StateOf P} (h : RegistersOk s) (hp : t.primed = s.primed) (hw : t.win = s.win)
    (hc : t.erasureCount = s.erasureCount) (hm : t.mem = s.mem) : RegistersOk t where
  whenUnprimed hne := by rw [hc, hw]; exact h.whenUnprimed (hp.symm.trans hne)
  whenPrimed hpr := by
    obtain ⟨p, k, c, hwin⟩ := h.whenPrimed (hp.symm.trans hpr)
    exact ⟨p, k, c, { hwin with
      registers := by rw [hw]; exact hwin.registers
      tailWritten := by rw [hm]; exact hwin.tailWritten
      afterOne := by rw [hc]; exact hwin.afterOne
      afterTwo := by rw [hc]; exact hwin.afterTwo
      afterMore := by rw [hc]; exact hwin.afterMore }⟩

/-! ### Commands that answer with zero frames -/

theorem refuse_inv (h : Inv s) : Inv (refuse s) :=
  respondSilence_inv h.memory h.count fun hf => (h.registers hf).congr rfl rfl rfl rfl

theorem illegalEntry_inv (h : Inv s) (hf : s.fault = .none) : Inv (faultEntry .illegalCmd s) :=
  respondSilence_inv h.memory h.count fun _ => (h.registers (by rw [hf]; decide)).congr rfl rfl rfl rfl

theorem construct_inv (s : StateOf P) : Inv (respondSilence (construct s)) :=
  respondSilence_inv Memory.cleared_wf (Nat.zero_le _) fun _ => RegistersOk.of_unwritten rfl rfl rfl

/-! ### CONCEAL and ACCEPT on a block without a fault -/

/-- CONCEAL between commands: its branch ends, and the new count calls for the window it leaves (R169, R175). -/
theorem conceal_keeps_inv {s : State} (h : Inv s) (hf : s.fault = .none) :
    ∃ t, execConceal s = .next t ∧ Inv t := by
  rw [execConceal_running hf]
  have hcount : countAfter Params.standard s.erasureCount = min (s.erasureCount + 1) 255 := rfl
  have hmax : countAfter Params.standard s.erasureCount ≤ Params.standard.countMax := Nat.min_le_right ..
  rcases Nat.eq_zero_or_pos s.erasureCount with h0 | h1
  · rw [show concealBranch s.erasureCount = .onset by rw [h0]; rfl]
    obtain ⟨u, p, c, hu, hb, ht⟩ := onset_ok h.sized
    exact hb.finishFrame_inv ht ⟨by omega, by omega, by omega⟩ hmax hu _ s
  obtain ⟨p, k, c, hw, hb⟩ := h.primedBlock hf h1
  have ht := hw.tailWritten_take h.memory
  have hone := hw.afterOne
  have htwo := hw.afterTwo
  have hmore := hw.afterMore
  rcases (by omega : s.erasureCount ≤ 2 ∨ (3 ≤ s.erasureCount ∧ s.erasureCount ≤ 5) ∨ 6 ≤ s.erasureCount)
    with h2 | ⟨h3, h5⟩ | h6
  · rw [concealBranch_extend h1 h2]
    obtain ⟨u, c', hu, hb', htail⟩ := extend_ok hb (hw.periods_le_two h1 h2) ht
    exact hb'.finishFrame_inv (by rwa [htail]) ⟨by omega, by omega, by omega⟩ hmax hu _ s
  · rw [concealBranch_steady h3 h5]
    obtain ⟨u, c', hu, hb', hmem⟩ := steady_ok hb
    exact hb'.finishFrame_inv (by rwa [hmem]) ⟨by omega, by omega, by omega⟩ hmax hu _ s
  · rw [concealBranch_mute h6]
    have hsilent := hb.withObuf (b := silence) (List.length_replicate ..)
    exact hsilent.finishFrame_inv ht ⟨by omega, by omega, by omega⟩ hmax (zeroFrame_eq s) _ s

/-- ACCEPT between commands: the burst is over, and the window stays as it is (R176, R177). -/
theorem accept_keeps_inv {s : State} (h : Inv s) (hf : s.fault = .none) {frame : Block} (hframe : frame.length = 80) :
    ∃ t, execAccept frame s = .next t ∧ Inv t := by
  rw [execAccept_running hf]
  rcases Nat.eq_zero_or_pos s.erasureCount with h0 | h1
  · rw [show acceptBranch s.erasureCount = .pass from if_pos h0]
    have hsized : Sized (s.setObuf frame) := ⟨h.memory, Work.setBuffer_wf (dst := .obuf) h.buffers hframe⟩
    have hreg : RegistersOk s := h.registers (by rw [hf]; decide)
    refine ⟨_, rfl, epilogue_inv hsized (Nat.zero_le _) ?_⟩
    exact {
      whenUnprimed := fun hp => ⟨rfl, (hreg.whenUnprimed hp).2⟩
      whenPrimed := fun hp => by
        obtain ⟨p, k, c, hw⟩ := hreg.whenPrimed hp
        exact ⟨p, k, c, { PeriodsFor.zero k, hw with }⟩ }
  · rw [show acceptBranch s.erasureCount = .reconcile from if_neg (by omega)]
    obtain ⟨p, k, c, hw, hb⟩ := h.primedBlock hf h1
    obtain ⟨u, c', hu, hb', hmem⟩ := reconcile_ok (hb.withObuf hframe)
    have ht : TailWritten u.mem.savedTail (p / 4) := by
      rw [hmem]
      exact hw.tailWritten_take h.memory
    exact hb'.finishFrame_inv ht (PeriodsFor.zero k) (Nat.zero_le _) hu _ s

/-! ### The step -/

/-- Every command keeps the invariant (R169, R176, R168, R203, R206). -/
theorem exec_command_inv {s t : State} (h : Inv s) {w : CommandWord} (hexec : exec (decodeCommand w) s = .next t) :
    Inv t := by
  suffices hsuff : ∃ t', exec (decodeCommand w) s = .next t' ∧ Inv t' by
    obtain ⟨t', ht', hinv⟩ := hsuff
    cases hexec.symm.trans ht'
    exact hinv
  by_cases hf : s.fault = .none
  · rcases decodeCommand_cases w with ⟨frame, hw, hframe⟩ | hw | hw | hw <;> rw [hw]
    · exact accept_keeps_inv h hf hframe
    · exact conceal_keeps_inv h hf
    · exact ⟨_, rfl, construct_inv s⟩
    · exact ⟨_, execReserved_running hf, illegalEntry_inv h hf⟩
  · refine ⟨t, hexec, ?_⟩
    rcases exec_command_faulted hf hexec with ⟨-, rfl⟩ | rfl
    · exact construct_inv s
    · exact refuse_inv h

theorem length_freeResponse (k : Nat) :
    (freeResponse k).frame.length = 80 ∧ (freeResponse k).raw.length = 80 := by simp [freeResponse]

/-- Taking the offered command keeps the invariant: the buses of a dropped response still have 80 lanes (R73). -/
theorem takeCommand_inv (h : Inv s) (rest : List HostInput) : Inv (takeCommand s rest) :=
  { h with
    frameBuses := length_freeResponse _
    registers := fun hf => (h.registers hf).congr rfl rfl rfl rfl }

theorem takeMicro_inv (h : Inv s) : Inv (takeMicro s) :=
  { h with
    idle := rfl
    noOperand := rfl
    frameBuses := length_freeResponse _
    registers := fun hf => (h.registers hf).congr rfl rfl rfl rfl }

/-- Settles O13: a cycle of `rst`, a command, or IDLE, and each keeps the invariant. -/
theorem everyStepKeepsTheInvariant : Obligations.EveryStepKeepsTheInvariant := by
  intro s t h hstep
  rcases step_idle_cases h.idle h.noOperand hstep with ⟨rest, -, rfl⟩ | ⟨w, rest, -, hexec⟩ | ⟨-, rfl⟩
  · exact afterRst_inv s rest
  · exact exec_command_inv (takeCommand_inv h rest) hexec
  · exact takeMicro_inv h

end Sys2Proof.Machine

/-! SUPPORT. Floating-point patterns, for any format (R10, R12): the magnitude a pattern stands for, and the pattern a
rounding gives. -/

namespace Sys2Proof.Machine.Fp

variable {F : FpFormat}

/-! ### The magnitude of a pattern -/

theorem magnitude_subnormal {m : Nat} (h : m / 2 ^ F.fracBits = 0) : magnitude F m = m := if_pos h

theorem magnitude_normal {m : Nat} (h : m / 2 ^ F.fracBits ≠ 0) :
    magnitude F m = (2 ^ F.fracBits + m % 2 ^ F.fracBits) * 2 ^ (m / 2 ^ F.fracBits - 1) := if_neg h

theorem magnitude_lt (F : FpFormat) (m : Nat) : magnitude F m < 2 ^ F.fracBits * 2 ^ (m / 2 ^ F.fracBits) := by
  have hB : 0 < 2 ^ F.fracBits := Nat.two_pow_pos _
  by_cases h : m / 2 ^ F.fracBits = 0
  · rw [magnitude_subnormal h, h, pow_zero, mul_one]
    exact (Nat.div_eq_zero_iff.1 h).resolve_left hB.ne'
  · have hmod : m % 2 ^ F.fracBits < 2 ^ F.fracBits := Nat.mod_lt _ hB
    obtain ⟨e, he⟩ := Nat.exists_eq_succ_of_ne_zero h
    calc magnitude F m
      _ = (2 ^ F.fracBits + m % 2 ^ F.fracBits) * 2 ^ e := by rw [magnitude_normal h, he]; rfl
      _ < (2 ^ F.fracBits * 2) * 2 ^ e := Nat.mul_lt_mul_of_pos_right (by omega) (Nat.two_pow_pos e)
      _ = 2 ^ F.fracBits * 2 ^ (m / 2 ^ F.fracBits) := by rw [he, Nat.pow_succ, mul_assoc, mul_comm 2]

theorem le_magnitude {m : Nat} (h : m / 2 ^ F.fracBits ≠ 0) :
    2 ^ F.fracBits * 2 ^ (m / 2 ^ F.fracBits - 1) ≤ magnitude F m := by
  rw [magnitude_normal h]
  exact Nat.mul_le_mul_right _ (Nat.le_add_right ..)

/-- The magnitude bits order the magnitudes. -/
theorem magnitude_strictMono (F : FpFormat) : StrictMono (magnitude F) := by
  intro m n h
  have hq : m / 2 ^ F.fracBits ≤ n / 2 ^ F.fracBits := Nat.div_le_div_right h.le
  rcases hq.lt_or_eq with hlt | heq
  · calc magnitude F m
      _ < 2 ^ F.fracBits * 2 ^ (m / 2 ^ F.fracBits) := magnitude_lt F m
      _ ≤ 2 ^ F.fracBits * 2 ^ (n / 2 ^ F.fracBits - 1) :=
        Nat.mul_le_mul_left _ (Nat.pow_le_pow_right (by decide) (Nat.le_sub_one_of_lt hlt))
      _ ≤ magnitude F n := le_magnitude (Nat.ne_zero_of_lt hlt)
  · by_cases h0 : n / 2 ^ F.fracBits = 0
    · rwa [magnitude_subnormal h0, magnitude_subnormal (heq.trans h0)]
    · have hmod : m % 2 ^ F.fracBits < n % 2 ^ F.fracBits := by
        have hm := Nat.div_add_mod m (2 ^ F.fracBits)
        have hn := Nat.div_add_mod n (2 ^ F.fracBits)
        rw [heq] at hm
        omega
      rw [magnitude_normal h0, magnitude_normal (heq.trans_ne h0), heq]
      exact Nat.mul_lt_mul_of_pos_right (by omega) (Nat.two_pow_pos _)

/-! ### Patterns -/

theorem infBits_lt (F : FpFormat) : infBits F < 2 ^ magWidth F := by
  rw [infBits, magWidth, Nat.pow_add]
  exact Nat.mul_lt_mul_of_pos_right (Nat.sub_lt (Nat.two_pow_pos _) Nat.one_pos) (Nat.two_pow_pos _)

theorem toNat_pack {neg : Bool} {m : Nat} (h : m ≤ infBits F) :
    (pack F neg m).toNat = (if neg then 2 ^ magWidth F else 0) + m := by
  have hinf := infBits_lt F
  have hwidth : 2 ^ F.width = 2 ^ magWidth F + 2 ^ magWidth F := by
    rw [← Nat.two_mul, ← Nat.pow_succ', magWidth, FpFormat.width]
    congr 1
    omega
  rw [pack, BitVec.toNat_ofNat]
  refine Nat.mod_eq_of_lt ?_
  split <;> omega

theorem magBits_pack {neg : Bool} {m : Nat} (h : m ≤ infBits F) : magBits (pack F neg m) = m := by
  have hinf := infBits_lt F
  rw [magBits, toNat_pack h]
  cases neg
  · simpa using Nat.mod_eq_of_lt (by omega)
  · simpa using Nat.mod_eq_of_lt (by omega)

theorem signBit_pack {neg : Bool} {m : Nat} (h : m ≤ infBits F) : signBit (pack F neg m) = neg := by
  have hinf := infBits_lt F
  rw [signBit, toNat_pack h]
  cases neg
  · simpa using by omega
  · simp

theorem decode_of_magBits_lt {x : BitVec F.width} (h : magBits x < infBits F) :
    decode x = .fin (signBit x) (magnitude F (magBits x)) := by
  rw [decode, if_neg (by omega), if_neg (by omega)]

/-- A pattern that stands for a number is its sign and magnitude bits, which are below those of infinity. -/
theorem decode_fin_iff {x : BitVec F.width} {neg : Bool} {mag : Nat} :
    decode x = .fin neg mag ↔ magBits x < infBits F ∧ signBit x = neg ∧ magnitude F (magBits x) = mag := by
  constructor
  · intro h
    have hlt : magBits x < infBits F := by
      by_contra hge
      rw [decode] at h
      split at h
      · cases h
      · rw [if_pos (by omega)] at h
        cases h
    rw [decode_of_magBits_lt hlt] at h
    cases h
    exact ⟨hlt, rfl, rfl⟩
  · rintro ⟨hlt, rfl, rfl⟩
    exact decode_of_magBits_lt hlt

theorem isNaN_of_decode_fin {x : BitVec F.width} {neg : Bool} {mag : Nat} (h : decode x = .fin neg mag) :
    isNaN x = false := by
  obtain ⟨hlt, -, -⟩ := decode_fin_iff.1 h
  exact decide_eq_false (by omega)

/-! ### Rounding -/

/-- The exponent field a number of bounded size rounds to: one more for a carry out of the significand. -/
theorem roundBits_le {p q c : Nat} (h : p / q < 2 ^ (F.fracBits + 1 + c)) :
    roundBits F p q ≤ (c + 2) * 2 ^ F.fracBits := by
  have hexp : (p / q).log2 - F.fracBits ≤ c := by
    by_cases h0 : p / q = 0
    · simp [h0]
    · have := (Nat.log2_lt h0).2 h
      omega
  have hsig : p / (q * 2 ^ ((p / q).log2 - F.fracBits)) < 2 ^ (F.fracBits + 1) := by
    rw [← Nat.div_div_eq_div_mul, Nat.div_lt_iff_lt_mul (Nat.two_pow_pos _), ← Nat.pow_add]
    exact Nat.lt_log2_self.trans_le (Nat.pow_le_pow_right (by decide) (by omega))
  have hmul : ((p / q).log2 - F.fracBits) * 2 ^ F.fracBits ≤ c * 2 ^ F.fracBits := Nat.mul_le_mul_right _ hexp
  rw [Nat.pow_succ] at hsig
  rw [roundBits, Nat.add_mul]
  split <;> omega

/-- The bits of a significand with its leading one, placed on an exponent field. -/
theorem magnitude_of_significand {e m : Nat} (hlow : 2 ^ F.fracBits ≤ m) (hhigh : m < 2 * 2 ^ F.fracBits) :
    magnitude F (e * 2 ^ F.fracBits + m) = m * 2 ^ e := by
  have hsplit : e * 2 ^ F.fracBits + m = (m - 2 ^ F.fracBits) + 2 ^ F.fracBits * (e + 1) := by
    rw [Nat.mul_succ, mul_comm (2 ^ F.fracBits)]
    omega
  have hfrac : m - 2 ^ F.fracBits < 2 ^ F.fracBits := by omega
  have hquot : (e * 2 ^ F.fracBits + m) / 2 ^ F.fracBits = e + 1 := by
    rw [hsplit, Nat.add_mul_div_left _ _ (Nat.two_pow_pos _), Nat.div_eq_of_lt hfrac, Nat.zero_add]
  have hrem : (e * 2 ^ F.fracBits + m) % 2 ^ F.fracBits = m - 2 ^ F.fracBits := by
    rw [hsplit, Nat.add_mul_mod_self_left, Nat.mod_eq_of_lt hfrac]
  rw [magnitude_normal (by omega), hquot, hrem, Nat.add_sub_cancel' hlow, Nat.add_sub_cancel]

/-- The bits of a number that is its significand `n * 2 ^ a` on the exponent `n.log2 + e`: nothing is cut off. -/
theorem roundBits_exact {n a e : Nat} (h0 : n ≠ 0) (hlog : F.fracBits = n.log2 + a) :
    roundBits F (n * 2 ^ a * 2 ^ (n.log2 + e)) 1 = (n.log2 + e) * 2 ^ F.fracBits + n * 2 ^ a := by
  have hlog2 : (n * 2 ^ a * 2 ^ (n.log2 + e)).log2 = n.log2 + (a + (n.log2 + e)) := by
    rw [mul_assoc, ← Nat.pow_add, Nat.log2_eq_iff (by positivity), Nat.pow_add, Nat.add_right_comm,
      Nat.pow_add 2 (n.log2 + 1)]
    exact ⟨Nat.mul_le_mul_right _ (Nat.log2_self_le h0),
      Nat.mul_lt_mul_of_pos_right Nat.lt_log2_self (Nat.two_pow_pos _)⟩
  have hexp : (n * 2 ^ a * 2 ^ (n.log2 + e)).log2 - F.fracBits = n.log2 + e := by omega
  have hpos : 0 < 2 ^ (n.log2 + e) := Nat.two_pow_pos _
  simp only [roundBits, Nat.div_one, hexp, one_mul]
  rw [Nat.mul_div_cancel _ hpos, Nat.mul_mod_left, if_neg (by omega), Nat.add_zero]

/-- An integer that fits the significand is rounded to itself, at any scale that keeps it a normal number. -/
theorem magnitude_roundBits_exact {n u : Nat} (h0 : n ≠ 0) (hn : n < 2 ^ (F.fracBits + 1)) (hu : F.fracBits ≤ u) :
    magnitude F (roundBits F (n * 2 ^ u) 1) = n * 2 ^ u := by
  obtain ⟨a, ha⟩ := Nat.exists_eq_add_of_le (Nat.lt_succ_iff.1 ((Nat.log2_lt h0).2 hn))
  obtain ⟨e, he⟩ := Nat.exists_eq_add_of_le hu
  have hscale : n * 2 ^ u = n * 2 ^ a * 2 ^ (n.log2 + e) := by
    rw [he, ha, mul_assoc, ← Nat.pow_add]
    congr 2
    omega
  have hfrac : 2 ^ F.fracBits = 2 ^ n.log2 * 2 ^ a := by rw [ha, Nat.pow_add]
  have hlow : 2 ^ F.fracBits ≤ n * 2 ^ a := hfrac ▸ Nat.mul_le_mul_right _ (Nat.log2_self_le h0)
  have hhigh : n * 2 ^ a < 2 * 2 ^ F.fracBits := by
    rw [hfrac, ← mul_assoc, ← Nat.pow_succ']
    exact Nat.mul_lt_mul_of_pos_right Nat.lt_log2_self (Nat.two_pow_pos a)
  rw [hscale, roundBits_exact h0 ha, magnitude_of_significand hlow hhigh]

end Sys2Proof.Machine.Fp

/-! SUPPORT. Numbers of the default format that stay far from infinity: no operation on them gives a NaN (R12, R121). -/

namespace Sys2Proof.Machine

/-! ### Integers (R91) -/

theorem unit_standard : Fp.unit Params.standard.fpFormat = 2 ^ 149 := by decide

theorem infBits_standard : Fp.infBits Params.standard.fpFormat = 255 * 2 ^ 23 := by decide

/-- An integer that fits the significand is held exactly (R91). -/
theorem decode_fp {n : Int} (hn : n.natAbs < 2 ^ 24) :
    Fp.decode (fp n : FP) = .fin (decide (n < 0)) (n.natAbs * 2 ^ 149) := by
  have hfinite : Fp.roundBits Params.standard.fpFormat (n.natAbs * 2 ^ 149) 1 <
      Fp.infBits Params.standard.fpFormat := by
    have hsize : n.natAbs * 2 ^ 149 / 1 < 2 ^ (24 + 149) := by
      rw [Nat.div_one, Nat.pow_add]
      exact Nat.mul_lt_mul_of_pos_right hn (by decide)
    exact (Fp.roundBits_le (F := Params.standard.fpFormat) (c := 149) hsize).trans_lt (by decide)
  have hmag : Fp.magnitude Params.standard.fpFormat
      (Fp.roundBits Params.standard.fpFormat (n.natAbs * 2 ^ 149) 1) = n.natAbs * 2 ^ 149 := by
    by_cases h0 : n.natAbs = 0
    · rw [h0, Nat.zero_mul]; decide
    · exact Fp.magnitude_roundBits_exact h0 hn (by decide)
  rw [fp, Fp.ofInt, Fp.ofRatio, unit_standard, Nat.min_eq_left hfinite.le]
  refine Fp.decode_fin_iff.2 ⟨?_, Fp.signBit_pack hfinite.le, ?_⟩ <;> rw [Fp.magBits_pack hfinite.le]
  · exact hfinite
  · exact hmag

/-! ### Numbers with a bounded magnitude -/

/-- A number of fewer than `2 ^ a` units of the smallest positive one, whatever its sign: no NaN and no infinity. -/
def Below (a : Nat) (x : FP) : Prop := ∃ neg mag, Fp.decode x = .fin neg mag ∧ mag < 2 ^ a

theorem Below.isNaN {a : Nat} {x : FP} (h : Below a x) : Fp.isNaN x = false := by
  obtain ⟨neg, mag, hx, -⟩ := h
  exact Fp.isNaN_of_decode_fin hx

theorem Below.mono {a b : Nat} {x : FP} (h : Below a x) (hab : a ≤ b) : Below b x := by
  obtain ⟨neg, mag, hx, hmag⟩ := h
  exact ⟨neg, mag, hx, hmag.trans_le (Nat.pow_le_pow_right (by decide) hab)⟩

theorem pack_below {neg : Bool} {m c : Nat} (hm : m ≤ (c + 2) * 2 ^ 23) (hc : c ≤ 250) :
    Below (c + 25) (Fp.pack Params.standard.fpFormat neg m) := by
  have hinf := infBits_standard
  have hlt : m < Fp.infBits Params.standard.fpFormat := by omega
  have hexp : m / 2 ^ 23 ≤ c + 2 := by omega
  refine ⟨neg, Fp.magnitude Params.standard.fpFormat m, Fp.decode_fin_iff.2 ?_, ?_⟩
  · rw [Fp.magBits_pack hlt.le]
    exact ⟨hlt, Fp.signBit_pack hlt.le, rfl⟩
  · calc Fp.magnitude Params.standard.fpFormat m
      _ < 2 ^ 23 * 2 ^ (m / 2 ^ 23) := Fp.magnitude_lt Params.standard.fpFormat m
      _ ≤ 2 ^ 23 * 2 ^ (c + 2) := Nat.mul_le_mul_left _ (Nat.pow_le_pow_right (by decide) hexp)
      _ = 2 ^ (c + 25) := by rw [← Nat.pow_add]; congr 1; omega

/-- One rounding at most doubles the bound. -/
theorem ofRatio_below {neg : Bool} {p q a : Nat} (h : p / q < 2 ^ a) (ha : 24 ≤ a) (ha' : a ≤ 274) :
    Below (a + 1) (Fp.ofRatio Params.standard.fpFormat neg p q) := by
  obtain ⟨c, rfl⟩ := Nat.exists_eq_add_of_le ha
  have hbits : Fp.roundBits Params.standard.fpFormat p q ≤ (c + 2) * 2 ^ 23 := Fp.roundBits_le h
  exact (pack_below ((Nat.min_le_left ..).trans hbits) (by omega)).mono (by omega)

theorem addWith_below {op : FpOp} {flip : Bool} {x y : FP} {a : Nat} (hx : Below a x) (hy : Below a y) (ha : 24 ≤ a)
    (ha' : a ≤ 273) : Below (a + 2) (Fp.addWith op flip x y) := by
  obtain ⟨sx, mx, hdx, hmx⟩ := hx
  obtain ⟨sy, my, hdy, hmy⟩ := hy
  have hratio : ∀ {neg : Bool} {p : Nat}, p ≤ mx + my →
      Below (a + 2) (Fp.ofRatio Params.standard.fpFormat neg p 1) := fun hp =>
    ofRatio_below (by rw [Nat.div_one, Nat.pow_succ]; omega) (by omega) (by omega)
  simp only [Fp.addWith, hdx, hdy, Fp.addMagnitudes]
  split
  · exact hratio le_rfl
  split
  · exact (pack_below (c := 0) (Nat.zero_le _) (by decide)).mono (by omega)
  split
  · exact hratio (by omega)
  · exact hratio (by omega)

theorem fadd_below {x y : FP} {a : Nat} (hx : Below a x) (hy : Below a y) (ha : 24 ≤ a) (ha' : a ≤ 273) :
    Below (a + 2) (fadd x y) := addWith_below hx hy ha ha'

theorem fsub_below {x y : FP} {a : Nat} (hx : Below a x) (hy : Below a y) (ha : 24 ≤ a) (ha' : a ≤ 273) :
    Below (a + 2) (fsub x y) := addWith_below hx hy ha ha'

theorem fmul_below {x y : FP} {a b c : Nat} (hx : Below a x) (hy : Below b y) (hc : a + b = c + 149) (hlow : 24 ≤ c)
    (hhigh : c ≤ 274) : Below (c + 1) (fmul x y) := by
  obtain ⟨sx, mx, hdx, hmx⟩ := hx
  obtain ⟨sy, my, hdy, hmy⟩ := hy
  have hprod : mx * my < 2 ^ c * 2 ^ 149 := by
    rw [← Nat.pow_add, ← hc, Nat.pow_add]
    exact Nat.mul_lt_mul'' hmx hmy
  simp only [fmul, Fp.mul, hdx, hdy]
  exact ofRatio_below ((Nat.div_lt_iff_lt_mul (by decide)).2 hprod) hlow hhigh

/-- Dividing by an integer does not raise the bound by more than the rounding does. -/
theorem fdiv_fp_below {x : FP} {a n : Nat} (hx : Below a x) (hn : 1 ≤ n) (hn' : n < 2 ^ 24) (ha : 24 ≤ a)
    (ha' : a ≤ 274) : Below (a + 1) (fdiv x (fp n)) := by
  obtain ⟨sx, mx, hdx, hmx⟩ := hx
  have hpos : n * 2 ^ 149 ≠ 0 := by positivity
  have hquot : mx * 2 ^ 149 / (n * 2 ^ 149) < 2 ^ a := by
    rw [Nat.mul_div_mul_right _ _ (by decide)]
    exact (Nat.div_le_self ..).trans_lt hmx
  simp only [fdiv, Fp.div, hdx, decode_fp (n := n) hn', Int.natAbs_natCast, if_neg hpos]
  exact ofRatio_below hquot ha ha'

theorem fp_below {n : Int} {a : Nat} (hn : n.natAbs < 2 ^ a) (ha : a ≤ 24) : Below (a + 149) (fp n) := by
  refine ⟨_, _, decode_fp (hn.trans_le (Nat.pow_le_pow_right (by decide) ha)), ?_⟩
  rw [Nat.pow_add]
  exact Nat.mul_lt_mul_of_pos_right hn (by decide)

/-! ### The `int16` range (R12, R22) -/

theorem satLo_key : Fp.isNaN (satLo : FP) = false ∧ Fp.key (satLo : FP) = -0x47000000 := by decide

theorem satHi_key : Fp.isNaN (satHi : FP) = false ∧ Fp.key (satHi : FP) = 0x46FFFE00 := by decide

/-- The range in the integers that order the patterns. -/
theorem inRange_iff_key {x : FP} :
    inRange x = true ↔ Fp.isNaN x = false ∧ -0x47000000 ≤ Fp.key x ∧ Fp.key x ≤ 0x46FFFE00 := by
  simp only [inRange, fge, Fp.le, satLo_key, satHi_key, Bool.and_eq_true, Bool.not_eq_true', decide_eq_true_eq,
    true_and, and_true]
  tauto

/-- The range in numbers: at most 32767 upwards and 32768 downwards. -/
theorem inRange_iff_decode {x : FP} :
    inRange x = true ↔
      ∃ neg mag, Fp.decode x = .fin neg mag ∧ mag ≤ (if neg then 32768 else 32767) * 2 ^ 149 := by
  have hinf := infBits_standard
  have hlo : Fp.magnitude Params.standard.fpFormat 0x47000000 = 32768 * 2 ^ 149 := by decide
  have hhi : Fp.magnitude Params.standard.fpFormat 0x46FFFE00 = 32767 * 2 ^ 149 := by decide
  have hmono := Fp.magnitude_strictMono Params.standard.fpFormat
  rw [inRange_iff_key, Fp.key]
  constructor
  · rintro ⟨-, hlow, hhigh⟩
    cases hs : Fp.signBit x <;> simp only [hs, if_true, Bool.false_eq_true, if_false] at hlow hhigh
    · refine ⟨false, _, Fp.decode_fin_iff.2 ⟨by omega, hs, rfl⟩, ?_⟩
      exact hhi ▸ hmono.monotone (by omega)
    · refine ⟨true, _, Fp.decode_fin_iff.2 ⟨by omega, hs, rfl⟩, ?_⟩
      exact hlo ▸ hmono.monotone (by omega)
  · rintro ⟨neg, mag, hx, hmag⟩
    obtain ⟨-, hs, rfl⟩ := Fp.decode_fin_iff.1 hx
    refine ⟨Fp.isNaN_of_decode_fin hx, ?_⟩
    cases neg <;> simp only [hs, if_true, Bool.false_eq_true, if_false] at hmag ⊢
    · have := hmono.le_iff_le.1 (hmag.trans_eq hhi.symm)
      omega
    · have := hmono.le_iff_le.1 (hmag.trans_eq hlo.symm)
      omega

theorem below_of_inRange {x : FP} (h : inRange x = true) : Below 165 x := by
  obtain ⟨neg, mag, hx, hmag⟩ := inRange_iff_decode.1 h
  refine ⟨neg, mag, hx, hmag.trans_lt ?_⟩
  cases neg <;> decide

/-- A widened sample is in range (R91). -/
theorem inRange_widen (x : Sample) : inRange (widen x : FP) = true := by
  have hlow := x.le_toInt
  have hhigh := x.toInt_lt
  refine inRange_iff_decode.2 ⟨_, _, decode_fp (by omega), Nat.mul_le_mul_right _ ?_⟩
  by_cases h : x.toInt < 0 <;> simp only [h, decide_true, decide_false, if_true, Bool.false_eq_true, if_false] <;> omega

/-- A clamped number is in range (R12). -/
theorem inRange_clamp {t : FP} (h : Fp.isNaN t = false) : inRange (clamp t) = true := by
  unfold clamp
  split
  · decide
  split
  · decide
  · next hnot_hi hnot_lo =>
    simp only [flt, Fp.lt, satLo_key, satHi_key, h, Bool.not_false, Bool.true_and, decide_eq_true_eq, not_lt]
      at hnot_hi hnot_lo
    exact inRange_iff_key.2 ⟨h, hnot_lo, hnot_hi⟩

/-! ### Blends (R94) -/

/-- The weights of a blend are numbers (R94, R96). -/
theorem weights_below {n i : Nat} (hi : i < n) (hn : n ≤ 30) :
    Below 157 (leftWeight n i : FP) ∧ Below 157 (rightWeight n i : FP) := by
  have hnum : Below 154 (fp i : FP) := fp_below (a := 5) (by simp; omega) (by decide)
  have hright : Below 155 (rightWeight n i : FP) :=
    fdiv_fp_below hnum (by omega) (by omega) (by decide) (by decide)
  have hone : Below 155 (fp 1 : FP) := (fp_below (a := 1) (by decide) (by decide)).mono (by decide)
  exact ⟨fsub_below hone hright (by decide) (by decide), hright.mono (by decide)⟩

/-- A weighted sum of two values in range is a number, so it is clamped into the range (R94). -/
theorem inRange_weightedSum {l r lw rw : FP} (hl : inRange l = true) (hr : inRange r = true) (hlw : Below 157 lw)
    (hrw : Below 157 rw) : inRange (clamp (fadd (fmul l lw) (fmul r rw))) = true := by
  have hleft : Below 174 (fmul l lw) := fmul_below (below_of_inRange hl) hlw rfl (by decide) (by decide)
  have hright : Below 174 (fmul r rw) := fmul_below (below_of_inRange hr) hrw rfl (by decide) (by decide)
  exact inRange_clamp (fadd_below hleft hright (by decide) (by decide)).isNaN

/-- A blend of values in range is in range (R94). -/
theorem inRange_blend {left right : List FP} {n : Nat} (hn : n ≤ 30) (hl : ∀ x ∈ left, inRange x = true)
    (hr : ∀ x ∈ right, inRange x = true) : ∀ x ∈ blend left right n, inRange x = true := by
  intro x hx
  obtain ⟨i, hi⟩ := List.mem_iff_getElem?.1 hx
  rw [blend, crossFade_get, Nat.zero_add] at hi
  obtain ⟨l, hli, hrest⟩ := Option.bind_eq_some_iff.1 hi
  obtain ⟨r, hri, rfl⟩ := Option.map_eq_some_iff.1 hrest
  have hin : i < n := by
    by_contra hge
    rw [List.getElem?_take, if_neg hge] at hli
    cases hli
  obtain ⟨hlw, hrw⟩ := weights_below hin hn
  exact inRange_weightedSum (hl l (List.mem_of_mem_take (List.mem_of_getElem? hli)))
    (hr r (List.mem_of_mem_take (List.mem_of_getElem? hri))) hlw hrw

end Sys2Proof.Machine

/-! SUPPORT. The values of `pitch_buffer` and `saved_tail` stay in range (R22, R37 item 5): what each micro-operation that
goes on does to the memory, whatever the state it starts in, then the branches and the step. -/

namespace Sys2Proof.Machine

/-! ### Elements of a block read or written -/

section Arrays

variable {α : Type} {arr : ArrayName} {xs ys vs : List α} {y : α}

theorem mem_of_memRead {lo n : Nat} (h : memRead arr xs lo n = .ok ys) (hy : y ∈ ys) : y ∈ xs := by
  obtain ⟨-, rfl⟩ := memRead_ok_iff.1 h
  exact List.mem_of_mem_drop (List.mem_of_mem_take hy)

theorem mem_of_memReadBelow {hi n : Nat} (h : memReadBelow arr xs hi n = .ok ys) (hy : y ∈ ys) : y ∈ xs := by
  unfold memReadBelow at h
  split at h
  · exact mem_of_memRead h hy
  · cases h

/-- An element after a block write is a written one or an old one. -/
theorem mem_of_memWrite {lo : Nat} (h : memWrite arr xs lo vs = .ok ys) (hy : y ∈ ys) : y ∈ vs ∨ y ∈ xs := by
  obtain ⟨i, hi⟩ := List.mem_iff_getElem?.1 hy
  rw [(memWrite_spec h).2 i] at hi
  split at hi
  · exact .inl (List.mem_of_getElem? hi)
  · exact .inr (List.mem_of_getElem? hi)

theorem mem_of_memWriteBelow {hi : Nat} (h : memWriteBelow arr xs hi vs = .ok ys) (hy : y ∈ ys) : y ∈ vs ∨ y ∈ xs := by
  unfold memWriteBelow at h
  split at h
  · exact mem_of_memWrite h hy
  · cases h

end Arrays

/-! ### Micro-operations that leave the memory alone -/

section Frame

variable {P : Params} {s t : StateOf P}

theorem findpitchCoarse_mem (h : findpitchCoarse s = .ok t) : t.mem = s.mem := by
  simp only [findpitchCoarse, Except.bind_ok_iff] at h
  obtain ⟨ref, -, tgt, -, ht⟩ := h
  exact (congrArg Generic.State.mem (Except.ok.inj ht)).symm

theorem findpitchFine_mem (h : findpitchFine s = .ok t) : t.mem = s.mem := by
  simp only [findpitchFine, Except.bind_ok_iff] at h
  obtain ⟨ref, -, tgt, -, start, -, ht⟩ := h
  exact (congrArg Generic.State.mem (Except.ok.inj ht)).symm

theorem prime_mem {period : Nat} (h : prime period s = .ok t) : t.mem = s.mem := by cases h; rfl

theorem writeBuffer_mem {dst : PullDst} {vs : Block} (h : writeBuffer dst vs s = .ok t) : t.mem = s.mem := by
  obtain ⟨-, rfl⟩ := writeBuffer_ok_iff.1 h
  rfl

theorem pull_mem {dst : PullDst} {n : Nat} (h : pull dst n s = .ok t) : t.mem = s.mem := by
  unfold pull at h
  split at h
  · cases h; rfl
  · simp only [Except.bind_ok_iff] at h
    obtain ⟨start, -, c, -, len, -, r, -, u, hu, ht⟩ := h
    cases ht
    exact writeBuffer_mem (t := u) hu

theorem saveCursor_mem (h : saveCursor s = .ok t) : t.mem = s.mem := by
  obtain ⟨c, -, ht⟩ := Except.bind_ok_iff.1 h
  cases ht; rfl

theorem grow_mem (h : grow s = .ok t) : t.mem = s.mem := by
  simp only [grow, Except.bind_ok_iff] at h
  obtain ⟨len, -, period, -, ht⟩ := h
  split at ht
  · cases ht; rfl
  · cases ht

theorem restoreCursor_mem (h : restoreCursor s = .ok t) : t.mem = s.mem := by
  obtain ⟨period, -, ht⟩ := Except.bind_ok_iff.1 h
  cases ht; rfl

theorem olaFrame_mem (h : olaFrame s = .ok t) : t.mem = s.mem := by
  simp only [olaFrame, Except.bind_ok_iff] at h
  obtain ⟨ov, -, left, -, right, -, ht⟩ := h
  exact writeBuffer_mem ht

theorem scale_mem (h : scale s = .ok t) : t.mem = s.mem := by
  cases (scale_eq s).symm.trans h
  rfl

theorem reconcileBlend_mem {n : Nat} (h : reconcileBlend n s = .ok t) : t.mem = s.mem := by
  simp only [reconcileBlend, Except.bind_ok_iff] at h
  obtain ⟨left, -, right, -, ht⟩ := h
  exact writeBuffer_mem ht

end Frame

/-! ### Micro-operations that write `pitch_buffer` or `saved_tail` -/

/-- Values in range, in a `saved_tail` of at most 30 elements (R23): no overlap is longer, so its weights are numbers. -/
structure Memory.Sound (m : Memory Params.standard) : Prop where
  tailLength : m.savedTail.length ≤ 30
  values : m.InRange

variable {s t : State}

theorem widenHistory_sound (h : widenHistory s = .ok t) (hs : s.mem.Sound) : t.mem.Sound := by
  simp only [widenHistory, Except.bind_ok_iff] at h
  obtain ⟨hist, -, p, hp, ht⟩ := h
  cases ht
  refine ⟨hs.tailLength, fun x hx => ?_, hs.values.2⟩
  rcases mem_of_memWrite hp hx with hnew | hold
  · obtain ⟨sample, -, rfl⟩ := List.mem_map.1 hnew
    exact inRange_widen sample
  · exact hs.values.1 x hold

theorem snapshotTail_sound (h : snapshotTail s = .ok t) (hs : s.mem.Sound) : t.mem.Sound := by
  simp only [snapshotTail, Except.bind_ok_iff] at h
  obtain ⟨ov, -, tail, htail, saved, hsaved, ht⟩ := h
  cases ht
  refine ⟨(memWrite_length hsaved).trans_le hs.tailLength, hs.values.1, fun x hx => ?_⟩
  rcases mem_of_memWrite hsaved hx with hnew | hold
  · obtain ⟨y, hy, hxy⟩ := List.mem_map.1 hnew
    cases hxy
    exact hs.values.1 x (mem_of_memReadBelow htail hy)
  · exact hs.values.2 x hold

theorem olaTail_sound (h : olaTail s = .ok t) (hs : s.mem.Sound) : t.mem.Sound := by
  simp only [olaTail, Except.bind_ok_iff] at h
  obtain ⟨ov, -, start, -, tail, htail, left, hleft, right, hright, p, hp, ht⟩ := h
  cases ht
  have hov : ov ≤ 30 := by
    have hbound := (memRead_ok_iff.1 htail).1
    have hlen := hs.tailLength
    omega
  refine ⟨hs.tailLength, fun x hx => ?_, hs.values.2⟩
  rcases mem_of_memWriteBelow hp hx with hnew | hold
  · refine inRange_blend hov (fun l hl => ?_) (fun r hr => hs.values.1 r (mem_of_memReadBelow hright hr)) x hnew
    have hmem : some l ∈ tail := written_ok_iff.1 hleft ▸ List.mem_map_of_mem hl
    exact hs.values.2 l (mem_of_memRead htail hmem)
  · exact hs.values.1 x hold

theorem writebackTail_sound (h : writebackTail s = .ok t) (hs : s.mem.Sound) : t.mem.Sound := by
  simp only [writebackTail, Except.bind_ok_iff] at h
  obtain ⟨ov, -, tail, -, hist, -, ht⟩ := h
  cases ht
  exact ⟨hs.tailLength, hs.values⟩

/-! ### The branches -/

theorem onset_sound (h : onset s = .ok t) (hs : s.mem.Sound) : t.mem.Sound := by
  simp only [onset, Except.bind_ok_iff] at h
  obtain ⟨s₁, h₁, s₂, h₂, s₃, h₃, s₄, h₄, s₅, h₅, s₆, h₆, s₇, h₇, h₈⟩ := h
  have hs₄ : s₄.mem.Sound := by
    rw [prime_mem h₄, findpitchFine_mem h₃, findpitchCoarse_mem h₂]
    exact widenHistory_sound h₁ hs
  rw [pull_mem h₈]
  exact writebackTail_sound h₇ (olaTail_sound h₆ (snapshotTail_sound h₅ hs₄))

theorem extend_sound (h : extend s = .ok t) (hs : s.mem.Sound) : t.mem.Sound := by
  simp only [extend, Except.bind_ok_iff] at h
  obtain ⟨s₁, h₁, ov, -, s₂, h₂, s₃, h₃, s₄, h₄, s₅, h₅, s₆, h₆, s₇, h₇, h₈⟩ := h
  rw [scale_mem h₈, olaFrame_mem h₇, pull_mem h₆, restoreCursor_mem h₅]
  refine olaTail_sound h₄ ?_
  rwa [grow_mem h₃, pull_mem h₂, saveCursor_mem h₁]

theorem steady_mem (h : steady s = .ok t) : t.mem = s.mem := by
  obtain ⟨s₁, h₁, h₂⟩ := Except.bind_ok_iff.1 h
  rw [scale_mem h₂, pull_mem h₁]

theorem reconcile_mem (h : reconcile s = .ok t) : t.mem = s.mem := by
  simp only [reconcile, Except.bind_ok_iff] at h
  obtain ⟨ov, -, s₁, h₁, h₂⟩ := h
  rw [reconcileBlend_mem h₂, pull_mem h₁]

theorem runConceal_sound {b : Branch} (h : runConceal b s = .ok t) (hs : s.mem.Sound) : t.mem.Sound := by
  cases b with
  | onset => exact onset_sound h hs
  | extend => exact extend_sound h hs
  | steady => rw [steady_mem h]; exact hs
  | mute | pass | reconcile | construct | none => cases h; exact hs

theorem runAccept_mem {b : Branch} (h : runAccept b s = .ok t) : t.mem = s.mem := by
  cases b with
  | reconcile => exact reconcile_mem h
  | onset | extend | steady | mute | pass | construct | none => cases h; rfl

/-! ### The step -/

/-- The end of a frame command: a branch that goes on leaves values in range, and a fault leaves them unspecified
(R175, R176, R210). -/
theorem finishFrame_values {b : Branch} {count : Nat} {r : Except Violation State}
    (hr : ∀ u, r = .ok u → u.mem.Sound) (h : finishFrame b count r s = .next t) : ValuesInRange t := by
  rcases finishFrame_cases b count r s with ⟨u, hu, hend⟩ | ⟨e, -, hend⟩ <;> cases hend.symm.trans h
  · exact fun _ => (hr u hu).values
  · exact fun hf => absurd rfl hf

/-- Every command keeps the values in range (R168, R169, R176, R203, R206). -/
theorem exec_command_values {w : CommandWord} (hm : s.mem.wf = true) (hv : ValuesInRange s)
    (h : exec (decodeCommand w) s = .next t) : ValuesInRange t := by
  by_cases hf : s.fault = .none
  · obtain ⟨-, -, htail⟩ := (Memory.wf_iff _).1 hm
    have hs : s.mem.Sound := ⟨htail.le, hv (by rw [hf]; decide)⟩
    rcases decodeCommand_cases w with ⟨frame, hw, -⟩ | hw | hw | hw <;> rw [hw] at h
    · refine finishFrame_values (fun u hu => ?_) ((execAccept_running hf frame).symm.trans h)
      rw [runAccept_mem hu]
      exact hs
    · exact finishFrame_values (fun u hu => runConceal_sound hu hs) ((execConceal_running hf).symm.trans h)
    · cases h
      exact Memory.cleared_inRange.valuesInRange
    · cases (execReserved_running hf).symm.trans h
      exact fun _ => hs.values
  · rcases exec_command_faulted hf h with ⟨-, rfl⟩ | rfl
    · exact Memory.cleared_inRange.valuesInRange
    · exact hv

/-- Settles O15: a cycle of `rst` clears the arrays, a command keeps the range, and IDLE writes nothing. -/
theorem pitchBufferStaysInRange : Obligations.PitchBufferStaysInRange := by
  intro s t hi hv hstep
  rcases step_idle_cases hi.idle hi.noOperand hstep with ⟨rest, -, rfl⟩ | ⟨w, rest, -, hexec⟩ | ⟨-, rfl⟩
  · exact Memory.cleared_inRange.valuesInRange
  · exact exec_command_values (s := takeCommand s rest) hi.memory hv hexec
  · exact hv

end Sys2Proof.Machine

/-! SUPPORT. No command depends on the working registers or the response buses (R35, R73): two blocks that differ in these
only run side by side through every branch. -/

namespace Sys2Proof.Machine

variable {P : Params}

/-! ### Two runs side by side -/

/-- Both stop, or both go on with results in the relation `Q`. -/
inductive SameOutcome {ε α β : Type} (Q : α → β → Prop) : Except ε α → Except ε β → Prop
  | ok {a : α} {b : β} : Q a b → SameOutcome Q (.ok a) (.ok b)
  | error (e e' : ε) : SameOutcome Q (.error e) (.error e')

theorem SameOutcome.bind {ε α β γ δ : Type} {Q : α → β → Prop} {Q' : γ → δ → Prop} {x : Except ε α} {y : Except ε β}
    {f : α → Except ε γ} {g : β → Except ε δ} (h : SameOutcome Q x y)
    (hfg : ∀ a b, x = .ok a → Q a b → SameOutcome Q' (f a) (g b)) : SameOutcome Q' (x >>= f) (y >>= g) := by
  cases h with
  | ok hab => exact hfg _ _ rfl hab
  | error e e' => exact .error e e'

theorem SameOutcome.mono {ε α β : Type} {Q Q' : α → β → Prop} {x : Except ε α} {y : Except ε β} (h : SameOutcome Q x y)
    (hQ : ∀ a b, Q a b → Q' a b) : SameOutcome Q' x y := by
  cases h with
  | ok hab => exact .ok (hQ _ _ hab)
  | error e e' => exact .error e e'

theorem SameOutcome.refl {ε α : Type} (x : Except ε α) : SameOutcome Eq x x := by
  cases x with
  | ok a => exact .ok rfl
  | error e => exact .error e e

/-- Blocks that differ in the working registers and the response only; the working registers have their sizes and are in
the relation `R`. -/
inductive Twin (R : Work P → Work P → Prop) (s : StateOf P) : StateOf P → Prop
  | intro (w : Work P) (r : Response) : s.work.wf = true → w.wf = true → R s.work w →
      Twin R s { s with work := w, rsp := r }

variable {R R' : Work P → Work P → Prop} {s t : StateOf P}

theorem Twin.mono (h : Twin R s t) (hR : R s.work t.work → R' s.work t.work) : Twin R' s t := by
  obtain ⟨w, r, hs, hw, hrel⟩ := h
  exact ⟨w, r, hs, hw, hR hrel⟩

theorem Twin.rel (h : Twin R s t) : R s.work t.work := by
  obtain ⟨w, r, hs, hw, hrel⟩ := h
  exact hrel

theorem Twin.buffers (h : Twin R s t) : s.work.wf = true ∧ t.work.wf = true := by
  obtain ⟨w, r, hs, hw, hrel⟩ := h
  exact ⟨hs, hw⟩

theorem Twin.mem (h : Twin R s t) : t.mem = s.mem := by
  obtain ⟨w, r, hs, hw, hrel⟩ := h
  rfl

theorem Twin.erasureCount (h : Twin R s t) : t.erasureCount = s.erasureCount := by
  obtain ⟨w, r, hs, hw, hrel⟩ := h
  rfl

/-- New working registers on both blocks. -/
theorem Twin.withWork (h : Twin R s t) {v w : Work P} (hv : v.wf = true) (hw : w.wf = true) (hrel : R' v w) :
    Twin R' { s with work := v } { t with work := w } := by
  obtain ⟨w', r, -, -, -⟩ := h
  exact .intro (s := { s with work := v }) w r hv hw hrel

theorem Twin.withCursor (h : Twin R s t) (c : Nat) : Twin R (s.setCursor c) (t.setCursor c) := by
  obtain ⟨w, r, hs, hw, hrel⟩ := h
  exact .intro (s := s.setCursor c) w r hs hw hrel

/-- A read of anything but the working registers and the response. -/
def Oblivious {α : Type} (g : StateOf P → Except Violation α) : Prop :=
  ∀ (s : StateOf P) (w : Work P) (r : Response), g { s with work := w, rsp := r } = g s

theorem Oblivious.twin {α : Type} {g : StateOf P → Except Violation α} (hg : Oblivious g) (h : Twin R s t) :
    SameOutcome Eq (g s) (g t) := by
  obtain ⟨w, r, -, -, -⟩ := h
  rw [hg s w r]
  exact .refl _

theorem readReg_oblivious (reg : WindowReg) : Oblivious (readReg (P := P) reg) := fun _ _ _ => rfl

theorem readReference_oblivious : Oblivious (readReference (P := P)) := fun _ _ _ => rfl

theorem readTarget_oblivious : Oblivious (readTarget (P := P)) := fun _ _ _ => rfl

theorem readFineStart_oblivious (lo : Nat) : Oblivious (readFineStart (P := P) lo) := fun _ _ _ => rfl

/-! ### Micro-operations that neither read nor write the working registers -/

/-- The micro-operation does the same whatever the working registers and the response hold, and leaves them alone. -/
def Transparent (f : StateOf P → Except Violation (StateOf P)) : Prop :=
  ∀ (s : StateOf P) (w : Work P) (r : Response),
    f { s with work := w, rsp := r } = (f s).map fun t => { t with work := w, rsp := r }

theorem Transparent.twin {f : StateOf P → Except Violation (StateOf P)} (hf : Transparent f) (h : Twin R s t) :
    SameOutcome (Twin R) (f s) (f t) := by
  obtain ⟨w, r, hs, hw, hrel⟩ := h
  rw [hf s w r]
  have hself : f s = (f s).map fun t => { t with work := s.work, rsp := s.rsp } := hf s s.work s.rsp
  cases hres : f s with
  | error e => exact .error e e
  | ok u =>
    rw [hres] at hself
    have heq : u = { u with work := s.work, rsp := s.rsp } := Except.ok.inj hself
    have hu : u.work = s.work := by rw [heq]
    exact .ok ⟨w, r, hu ▸ hs, hw, hu ▸ hrel⟩

theorem Transparent.bind {α : Type} {g : StateOf P → Except Violation α}
    {k : α → StateOf P → Except Violation (StateOf P)}
    (hg : Oblivious g)
    (hk : ∀ a, Transparent (k a)) : Transparent fun s => g s >>= fun a => k a s := by
  intro s w r
  dsimp only
  rw [hg s w r]
  cases g s with
  | error e => rfl
  | ok a => exact hk a s w r

theorem widenHistory_transparent : Transparent (widenHistory (P := P)) :=
  .bind (fun _ _ _ => rfl) fun _ => .bind (fun _ _ _ => rfl) fun _ _ _ _ => rfl

theorem prime_transparent (period : Nat) : Transparent (prime (P := P) period) := fun _ _ _ => rfl

theorem snapshotTail_transparent : Transparent (snapshotTail (P := P)) :=
  .bind (fun _ _ _ => rfl) fun _ => .bind (fun _ _ _ => rfl) fun _ => .bind (fun _ _ _ => rfl) fun _ _ _ _ => rfl

theorem olaTail_transparent : Transparent (olaTail (P := P)) :=
  .bind (fun _ _ _ => rfl) fun _ => .bind (fun _ _ _ => rfl) fun _ => .bind (fun _ _ _ => rfl) fun _ =>
    .bind (fun _ _ _ => rfl) fun _ => .bind (fun _ _ _ => rfl) fun _ => .bind (fun _ _ _ => rfl) fun _ _ _ _ => rfl

theorem writebackTail_transparent : Transparent (writebackTail (P := P)) :=
  .bind (fun _ _ _ => rfl) fun _ => .bind (fun _ _ _ => rfl) fun _ => .bind (fun _ _ _ => rfl) fun _ _ _ _ => rfl

theorem grow_transparent : Transparent (grow (P := P)) :=
  .bind (fun _ _ _ => rfl) fun len => .bind (fun _ _ _ => rfl) fun period => by
    intro s w r
    dsimp only
    split <;> rfl

/-! ### Micro-operations on the working registers -/

/-- The same samples written to a working buffer of both blocks. -/
theorem writeBuffer_twin (h : Twin R s t) {dst : PullDst} {vs : Block}
    (hR : R' (s.work.setBuffer dst (overlay vs (s.work.buffer dst)))
      (t.work.setBuffer dst (overlay vs (t.work.buffer dst)))) :
    SameOutcome (Twin R') (writeBuffer dst vs s) (writeBuffer dst vs t) := by
  have hls := Work.buffer_length h.buffers.1 dst
  have hlt := Work.buffer_length h.buffers.2 dst
  unfold writeBuffer
  rw [hls, hlt]
  split
  · have hfit : ∀ {old : Block}, old.length = dst.capacity → (overlay vs old).length = dst.capacity := fun hold =>
      (length_overlay (by omega)).trans hold
    exact .ok (h.withWork (Work.setBuffer_wf h.buffers.1 (hfit hls)) (Work.setBuffer_wf h.buffers.2 (hfit hlt)) hR)
  · exact .error _ _

/-- The same samples read from a working buffer of both blocks. -/
theorem readBuffer_twin (h : Twin R s t) {dst : PullDst} {n : Nat}
    (heq : (s.work.buffer dst).take n = (t.work.buffer dst).take n) :
    SameOutcome Eq (readBuffer dst n s) (readBuffer dst n t) := by
  unfold readBuffer
  rw [Work.buffer_length h.buffers.1 dst, Work.buffer_length h.buffers.2 dst]
  split
  · exact .ok heq
  · exact .error _ _

theorem length_of_pullFrom {F : FpFormat} {pb : List (FpOf F)} {start len n c : Nat} {vs : Block × Nat}
    (h : pullFrom pb start len n c = .ok vs) : vs.1.length = n := by
  induction n generalizing c vs with
  | zero => cases h; rfl
  | succ n ih =>
    simp only [pullFrom, Except.bind_ok_iff] at h
    obtain ⟨v, -, rest, hrest, hvs⟩ := h
    cases hvs
    exact congrArg Nat.succ (ih hrest)

/-- PULL makes the first `n` samples of its destination the same, and keeps what is not about the destination
(R134, R135). -/
theorem pull_twin (h : Twin R s t) {dst : PullDst} {n : Nat}
    (hR : ∀ b b', R (s.work.setBuffer dst b) (t.work.setBuffer dst b')) :
    SameOutcome (Twin fun v w => R v w ∧ (v.buffer dst).take n = (w.buffer dst).take n)
      (pull dst n s) (pull dst n t) := by
  unfold pull
  split
  · next hn =>
    subst hn
    exact .ok (h.mono fun hrel => ⟨hrel, rfl⟩)
  refine ((readReg_oblivious _).twin h).bind fun start _ _ heq => ?_
  subst heq
  refine ((readReg_oblivious _).twin h).bind fun c _ _ heq => ?_
  subst heq
  refine ((readReg_oblivious _).twin h).bind fun len _ _ heq => ?_
  subst heq
  rw [h.mem]
  refine (SameOutcome.refl _).bind fun vs _ hvs heq => ?_
  subst heq
  have hlen := length_of_pullFrom hvs
  refine (writeBuffer_twin h ⟨hR _ _, ?_⟩).bind fun u u' _ hu => .ok (hu.withCursor vs.2)
  simp only [Work.buffer_setBuffer, overlay, List.take_left' hlen]

/-- A whole frame pulled into `obuf` leaves nothing of what it held. -/
theorem pull_frame_twin (h : Twin R s t)
    (hR : ∀ b b', R (s.work.setBuffer .obuf b) (t.work.setBuffer .obuf b')) :
    SameOutcome (Twin fun v w => R v w ∧ v.obuf = w.obuf)
      (pull .obuf Config.frameSz s) (pull .obuf Config.frameSz t) := by
  refine (pull_twin h hR).mono fun u u' hu => hu.mono fun ⟨hrel, htake⟩ => ⟨hrel, ?_⟩
  have hlu : (u.work.buffer .obuf).length ≤ Config.frameSz := (Work.buffer_length hu.buffers.1 .obuf).le
  have hlu' : (u'.work.buffer .obuf).length ≤ Config.frameSz := (Work.buffer_length hu.buffers.2 .obuf).le
  rwa [List.take_of_length_le hlu, List.take_of_length_le hlu'] at htake

theorem saveCursor_twin (h : Twin R s t) :
    SameOutcome (Twin fun v w => v.saveCursor = w.saveCursor) (saveCursor s) (saveCursor t) := by
  refine ((readReg_oblivious _).twin h).bind fun c _ _ heq => ?_
  subst heq
  exact .ok (h.withWork h.buffers.1 h.buffers.2 rfl)

theorem restoreCursor_twin (h : Twin R s t) (hsave : s.work.saveCursor = t.work.saveCursor) :
    SameOutcome (Twin R) (restoreCursor s) (restoreCursor t) := by
  refine ((readReg_oblivious _).twin h).bind fun period _ _ heq => ?_
  subst heq
  rw [hsave]
  exact .ok (h.withCursor _)

/-- OLA_FRAME reads `obuf` and the part of `tmp` that the overlap covers (R97). -/
theorem olaFrame_twin (h : Twin R s t) (htmp : s.work.tmp.take (spanOf s) = t.work.tmp.take (spanOf s))
    (hobuf : s.work.obuf = t.work.obuf) :
    SameOutcome (Twin fun v w => v.obuf = w.obuf) (olaFrame s) (olaFrame t) := by
  refine ((readReg_oblivious _).twin h).bind fun ov _ hov heq => ?_
  subst heq
  rw [spanOf_of_readReg hov] at htmp
  refine (readBuffer_twin h htmp).bind fun left _ _ heq => ?_
  subst heq
  refine (readBuffer_twin h (dst := .obuf) (congrArg (List.take ov) hobuf)).bind fun right _ _ heq => ?_
  subst heq
  exact writeBuffer_twin h (congrArg (overlay _) hobuf)

theorem scale_twin (h : Twin R s t) (hobuf : s.work.obuf = t.work.obuf) :
    SameOutcome (Twin fun v w => v.obuf = w.obuf) (scale s) (scale t) := by
  have hscaled : ∀ {w : Work P} {g g' : FP P}, w.wf = true →
      ({ w with obuf := scaleBlock g w.obuf, g := g' } : Work P).wf = true := by
    intro w g g' hw
    simpa [Work.wf_iff] using hw
  exact .ok (h.withWork (hscaled h.buffers.1) (hscaled h.buffers.2) (by rw [h.erasureCount, hobuf]))

theorem reconcileBlend_twin (h : Twin R s t) {n : Nat} (hsynth : s.work.synth.take n = t.work.synth.take n)
    (hobuf : s.work.obuf = t.work.obuf) :
    SameOutcome (Twin fun v w => v.obuf = w.obuf) (reconcileBlend n s) (reconcileBlend n t) := by
  refine (readBuffer_twin h hsynth).bind fun left _ _ heq => ?_
  subst heq
  refine (readBuffer_twin h (dst := .obuf) (congrArg (List.take n) hobuf)).bind fun right _ _ heq => ?_
  subst heq
  rw [h.erasureCount]
  exact writeBuffer_twin h (congrArg (overlay _) hobuf)

theorem withObuf_twin (h : Twin R s t) {b : Block} (hb : b.length = 80) :
    Twin (fun v w => v.obuf = w.obuf) (s.setObuf b) (t.setObuf b) :=
  h.withWork (Work.setBuffer_wf (dst := .obuf) h.buffers.1 hb) (Work.setBuffer_wf (dst := .obuf) h.buffers.2 hb) rfl

/-! ### The pitch search (R115, R117) -/

/-- What a candidate of the search reads of the candidates before it. -/
structure SameBest (v w : Work P) : Prop where
  energy : v.energy = w.energy
  bestScore : v.bestScore = w.bestScore
  bestLag : v.bestLag = w.bestLag

theorem searchStart_sameBest (v w : Work P) (lag : Nat) (c e : FP P) :
    SameBest (searchStart v lag c e) (searchStart w lag c e) := ⟨rfl, rfl, rfl⟩

theorem searchStep_sameBest {v w : Work P} (h : SameBest v w) (better : FP P → FP P → Bool) (lag : Nat) (c e : FP P) :
    SameBest (searchStep better v lag c e) (searchStep better w lag c e) := by
  unfold searchStep
  rw [h.bestScore]
  split
  · exact ⟨rfl, rfl, rfl⟩
  · exact ⟨rfl, rfl, h.bestLag⟩

theorem searchFold_sameBest (better : FP P → FP P → Bool) (c : Nat → FP P) (e : FP P → Nat → FP P) (lags : List Nat)
    {v w : Work P} (h : SameBest v w) :
    SameBest (lags.foldl (fun w j => searchStep better w j (c j) (e w.energy j)) v)
      (lags.foldl (fun w j => searchStep better w j (c j) (e w.energy j)) w) := by
  induction lags generalizing v w with
  | nil => exact h
  | cons j lags ih =>
    rw [List.foldl_cons, List.foldl_cons, h.energy]
    exact ih (searchStep_sameBest h ..)

/-- The coarse winner does not depend on the registers the search starts with (R115). -/
theorem coarseSearch_sameBest (ref tgt : List (FP P)) (v w : Work P) :
    SameBest (coarseSearch ref tgt v) (coarseSearch ref tgt w) :=
  searchFold_sameBest fge (corrCoarse ref tgt) (energyCoarseStep P.coarseEnter ref) _ (searchStart_sameBest ..)

theorem fineSearch_sameBest (ref tgt : List (FP P)) (lo hi : Nat) (v w : Work P) :
    SameBest (fineSearch ref tgt lo hi v) (fineSearch ref tgt lo hi w) :=
  searchFold_sameBest _ (corrFine ref tgt) (energyFineStep ref) _ (searchStart_sameBest ..)

theorem findpitchCoarse_twin (h : Twin R s t) :
    SameOutcome (Twin fun v w => v.bestLag = w.bestLag) (findpitchCoarse s) (findpitchCoarse t) := by
  refine (readReference_oblivious.twin h).bind fun ref _ _ heq => ?_
  subst heq
  refine (readTarget_oblivious.twin h).bind fun tgt _ _ heq => ?_
  subst heq
  have hs := (coarseSearch_keeps ref tgt s.work).wf h.buffers.1
  have ht := (coarseSearch_keeps ref tgt t.work).wf h.buffers.2
  have hlag := (coarseSearch_sameBest ref tgt s.work t.work).bestLag
  -- The 41 candidates are not to be evaluated when the fields of the new states are compared.
  generalize coarseSearch ref tgt s.work = v at hs hlag ⊢
  generalize coarseSearch ref tgt t.work = w at ht hlag ⊢
  exact .ok (h.withWork hs ht hlag)

theorem findpitchFine_twin (h : Twin R s t) (hlag : s.work.bestLag = t.work.bestLag) :
    SameOutcome (Twin fun v w => v.bestLag = w.bestLag) (findpitchFine s) (findpitchFine t) := by
  refine (readReference_oblivious.twin h).bind fun ref _ _ heq => ?_
  subst heq
  refine (readTarget_oblivious.twin h).bind fun tgt _ _ heq => ?_
  subst heq
  rw [hlag]
  refine ((readFineStart_oblivious _).twin h).bind fun _ _ _ _ => ?_
  exact .ok (h.withWork ((fineSearch_keeps ..).wf h.buffers.1) ((fineSearch_keeps ..).wf h.buffers.2)
    (fineSearch_sameBest ..).bestLag)

end Sys2Proof.Machine

/-! SUPPORT. The branches of two blocks that differ in working registers and response end with the same `obuf`, and so the
commands end in the same state (R35, R73). -/

namespace Sys2Proof.Machine

variable {P : Params} {R : Work P → Work P → Prop} {s t : StateOf P}

/-! ### What leaves `overlap_span` alone -/

theorem grow_span (h : grow s = .ok t) : spanOf t = spanOf s := by
  simp only [grow, Except.bind_ok_iff] at h
  obtain ⟨len, -, period, -, ht⟩ := h
  split at ht
  · cases ht; rfl
  · cases ht

theorem olaTail_span (h : olaTail s = .ok t) : spanOf t = spanOf s := by
  simp only [olaTail, Except.bind_ok_iff] at h
  obtain ⟨ov, -, start, -, tail, -, left, -, right, -, p, -, ht⟩ := h
  cases ht; rfl

theorem restoreCursor_span (h : restoreCursor s = .ok t) : spanOf t = spanOf s := by
  obtain ⟨period, -, ht⟩ := Except.bind_ok_iff.1 h
  cases ht; rfl

/-! ### The branches -/

theorem onset_twin (h : Twin R s t) : SameOutcome (Twin fun v w => v.obuf = w.obuf) (onset s) (onset t) := by
  refine (widenHistory_transparent.twin h).bind fun s₁ t₁ _ h₁ => ?_
  refine (findpitchCoarse_twin h₁).bind fun s₂ t₂ _ h₂ => ?_
  refine (findpitchFine_twin h₂ h₂.rel).bind fun s₃ t₃ _ h₃ => ?_
  rw [show pitchResult t₃ = pitchResult s₃ from congrArg (Config.pitchMax - ·) h₃.rel.symm]
  refine ((prime_transparent _).twin h₃).bind fun s₄ t₄ _ h₄ => ?_
  refine (snapshotTail_transparent.twin h₄).bind fun s₅ t₅ _ h₅ => ?_
  refine (olaTail_transparent.twin h₅).bind fun s₆ t₆ _ h₆ => ?_
  refine (writebackTail_transparent.twin h₆).bind fun s₇ t₇ _ h₇ => ?_
  exact (pull_frame_twin h₇ fun _ _ => h₇.rel).mono fun _ _ h₈ => h₈.mono fun hrel => hrel.2

theorem extend_twin (h : Twin R s t) : SameOutcome (Twin fun v w => v.obuf = w.obuf) (extend s) (extend t) := by
  refine (saveCursor_twin h).bind fun s₁ t₁ hs₁ h₁ => ?_
  refine ((readReg_oblivious _).twin h₁).bind fun ov _ hov heq => ?_
  subst heq
  refine (pull_twin (dst := .tmp) h₁ fun _ _ => h₁.rel).bind fun s₂ t₂ hs₂ h₂ => ?_
  refine (grow_transparent.twin h₂).bind fun s₃ t₃ hs₃ h₃ => ?_
  refine (olaTail_transparent.twin h₃).bind fun s₄ t₄ hs₄ h₄ => ?_
  refine (restoreCursor_twin h₄ h₄.rel.1).bind fun s₅ t₅ hs₅ h₅ => ?_
  refine (pull_frame_twin h₅ fun _ _ => h₅.rel).bind fun s₆ t₆ hs₆ h₆ => ?_
  have hspan : spanOf s₆ = ov := by
    rw [(pull_frame hs₆).1, restoreCursor_span hs₅, olaTail_span hs₄, grow_span hs₃, (pull_frame hs₂).1,
      spanOf_of_readReg hov]
  obtain ⟨⟨-, htmp⟩, hobuf⟩ := h₆.rel
  refine (olaFrame_twin h₆ (by rw [hspan]; exact htmp) hobuf).bind fun s₇ t₇ _ h₇ => ?_
  exact scale_twin h₇ h₇.rel

theorem steady_twin (h : Twin R s t) : SameOutcome (Twin fun v w => v.obuf = w.obuf) (steady s) (steady t) := by
  have hany : Twin (fun _ _ => True) s t := h.mono fun _ => trivial
  refine (pull_frame_twin hany fun _ _ => trivial).bind fun s₁ t₁ _ h₁ => ?_
  exact scale_twin h₁ h₁.rel.2

theorem mute_twin (h : Twin R s t) : SameOutcome (Twin fun v w => v.obuf = w.obuf) (mute s) (mute t) :=
  .ok (withObuf_twin h (List.length_replicate ..))

/-- RECONCILE blends the frame it found in `obuf` (R177). -/
theorem reconcile_twin (h : Twin (fun v w => v.obuf = w.obuf) s t) :
    SameOutcome (Twin fun v w => v.obuf = w.obuf) (reconcile s) (reconcile t) := by
  refine ((readReg_oblivious _).twin h).bind fun ov _ _ heq => ?_
  subst heq
  rw [h.erasureCount]
  refine (pull_twin (dst := .synth) h fun _ _ => h.rel).bind fun s₁ t₁ _ h₁ => ?_
  exact reconcileBlend_twin h₁ h₁.rel.2 h₁.rel.1

/-! ### The commands -/

/-- The end of a frame command writes over the response and the working registers, and keeps `obuf` in `history` and on
the buses (R131, R143, R178). -/
theorem epilogue_twin (h : Twin (fun v w => v.obuf = w.obuf) s t) (b : Branch) (count : Nat) :
    epilogue b count s = epilogue b count t := by
  obtain ⟨w, r, -, -, hobuf⟩ := h
  calc epilogue b count s
    _ = epilogue b count { s with work := { s.work with obuf := w.obuf } } := by rw [← hobuf]
    _ = epilogue b count { s with work := w, rsp := r } := rfl

theorem finishFrame_twin (h : Twin R s t) {x y : Except Violation (StateOf P)}
    (hxy : SameOutcome (Twin fun v w => v.obuf = w.obuf) x y) (b : Branch) (count : Nat) :
    finishFrame b count x s = finishFrame b count y t := by
  cases hxy with
  | ok hab => exact congrArg Host.Outcome.next (epilogue_twin hab b count)
  | error e e' =>
    obtain ⟨w, r, -, -, -⟩ := h
    rfl

/-- Dispatch gives CONCEAL these four branches only (R166). -/
theorem concealBranch_mem (n : Nat) : concealBranch n ∈ [Branch.onset, .extend, .steady, .mute] := by
  unfold concealBranch
  split_ifs <;> decide

theorem execConceal_twin (h : Twin R s t) : execConceal s = execConceal t := by
  have hfault : t.fault = s.fault := by cases h; rfl
  by_cases hf : s.fault = .none
  · rw [execConceal_running hf, execConceal_running (hfault.trans hf), h.erasureCount]
    refine finishFrame_twin h ?_ _ _
    have hb := concealBranch_mem s.erasureCount
    generalize concealBranch s.erasureCount = b at hb ⊢
    simp only [List.mem_cons, List.not_mem_nil, or_false] at hb
    rcases hb with rfl | rfl | rfl | rfl
    · exact onset_twin h
    · exact extend_twin h
    · exact steady_twin h
    · exact mute_twin h
  · rw [execConceal_faulted hf, execConceal_faulted (hfault.trans_ne hf)]
    cases h; rfl

theorem execAccept_twin (h : Twin R s t) {frame : Block} (hframe : frame.length = 80) :
    execAccept frame s = execAccept frame t := by
  have hfault : t.fault = s.fault := by cases h; rfl
  have hobuf := withObuf_twin h hframe
  by_cases hf : s.fault = .none
  · rw [execAccept_running hf, execAccept_running (hfault.trans hf), h.erasureCount]
    refine finishFrame_twin h ?_ _ _
    unfold acceptBranch
    split
    · exact .ok hobuf
    · exact reconcile_twin hobuf
  · rw [execAccept_faulted hf, execAccept_faulted (hfault.trans_ne hf)]
    cases h; rfl

theorem execReserved_twin (h : Twin R s t) : execReserved s = execReserved t := by
  obtain ⟨w, r, -, -, -⟩ := h
  by_cases hf : s.fault = .none
  · rw [execReserved_running hf, execReserved_running (s := { s with work := w, rsp := r }) hf]
    rfl
  · rw [execReserved_faulted hf, execReserved_faulted (s := { s with work := w, rsp := r }) hf]
    rfl

/-- Settles O56: two blocks that differ in the working registers and the response run every command side by side. -/
theorem workingRegistersAreUnobservable : Obligations.WorkingRegistersAreUnobservable := by
  intro s i w r hi hs hw
  have h : Twin (fun _ _ => True) s { s with work := w, rsp := r } := ⟨w, r, hs, hw, trivial⟩
  rcases hi with ⟨frame, rfl, hframe⟩ | rfl | rfl | rfl
  · exact (execAccept_twin h hframe).symm
  · exact (execConceal_twin h).symm
  · rfl
  · exact (execReserved_twin h).symm

end Sys2Proof.Machine

/-! SUPPORT. Frame buses lane by lane (R52, R72), and the output ports. -/

namespace Sys2Proof.Machine

variable {P : Params}

/-! ### Lanes of a packed frame -/

theorem packLanes_lt (b : Block) : packLanes b < 2 ^ (16 * b.length) := by
  induction b with
  | nil => exact Nat.one_pos
  | cons x xs ih =>
    have hx := x.isLt
    rw [packLanes, List.length_cons, Nat.mul_succ, Nat.add_comm, pow_add]
    omega

/-- Lane 0 is the first sample, and the higher lanes are those of the rest. -/
theorem packLanes_lane {b : Block} {i : Nat} {x : Sample} (h : b[i]? = some x) :
    packLanes b / 2 ^ (16 * i) % 2 ^ 16 = x.toNat := by
  induction b generalizing i with
  | nil => cases h
  | cons y ys ih =>
    have hy := y.isLt
    cases i with
    | zero =>
      obtain rfl : y = x := Option.some.inj h
      rw [packLanes]
      omega
    | succ i =>
      have hrest : (y.toNat + 2 ^ 16 * packLanes ys) / 2 ^ 16 = packLanes ys := by omega
      rw [packLanes, Nat.mul_succ, Nat.add_comm (16 * i), pow_add, ← Nat.div_div_eq_div_mul, hrest]
      exact ih h

/-- A block fits a word of 16 bits a sample, so the word loses no bit. -/
theorem toNat_ofNat_packLanes {b : Block} {w : Nat} (h : 16 * b.length = w) :
    (BitVec.ofNat w (packLanes b)).toNat = packLanes b := by
  subst h
  exact Nat.mod_eq_of_lt (packLanes_lt b)

theorem toNat_frameBus {b : Block} (h : b.length = 80) : (frameBus b).toNat = packLanes b :=
  toNat_ofNat_packLanes (by rw [h])

theorem frameBus_lane {b : Block} (h : b.length = 80) {i : Nat} {x : Sample} (hx : b[i]? = some x) :
    (frameBus b).extractLsb' (16 * i) 16 = x := by
  apply BitVec.eq_of_toNat_eq
  rw [BitVec.extractLsb'_toNat, toNat_frameBus h, Nat.shiftRight_eq_div_pow]
  exact packLanes_lane hx

/-! ### `cmd_ready` (R71, R231) -/

theorem rstNow_eq_false_iff {s : StateOf P} : rstNow s = false ↔ ∀ rest, s.inbox ≠ .rst :: rest := by
  unfold rstNow
  split <;> simp [*]

theorem cmdReady_iff {s : StateOf P} : cmdReady s = true ↔ s.phase = 0#4 ∧ ∀ rest, s.inbox ≠ .rst :: rest := by
  rw [← rstNow_eq_false_iff, cmdReady, Bool.and_eq_true, beq_iff_eq, Bool.not_eq_true']

/-- Settles O60: the bus is its lanes, and every output but `cmd_ready` is a field of the state. -/
theorem outputPortsShowTheState : Obligations.OutputPortsShowTheState := by
  refine ⟨fun b hb i hi => ?_, fun s => ⟨rfl, rfl, rfl, rfl, rfl, cmdReady_iff⟩⟩
  have hx : b[i]? = some b[i] := List.getElem?_eq_getElem (by omega)
  rw [hx, frameBus_lane hb hx]

end Sys2Proof.Machine

/-! SUPPORT. The bounds that an access which answers has met, and the micro-operations that fault because an index is
outside its array (R53, R204). -/

namespace Sys2Proof.Machine

variable {P : Params} {F : FpFormat}

/-! ### Accesses that answer -/

section Accesses

variable {α : Type} {arr : ArrayName} {xs ys vs : List α}

theorem memReadBelow_bounds {hi n : Nat} (h : memReadBelow arr xs hi n = .ok ys) :
    n ≤ hi ∧ (n = 0 ∨ hi ≤ xs.length) := by
  unfold memReadBelow at h
  split at h
  · obtain ⟨hbound, -⟩ := memRead_ok_iff.1 h
    omega
  · cases h

theorem memWrite_bounds {lo : Nat} (h : memWrite arr xs lo vs = .ok ys) : vs = [] ∨ lo + vs.length ≤ xs.length := by
  unfold memWrite at h
  split at h
  · exact .inl ‹_›
  · split at h
    · exact .inr ‹_›
    · cases h

end Accesses

/-! ### The cursor of a pull (R134) -/

/-- Inside the window the cursor goes round it. -/
theorem iterate_advance_inside {len c : Nat} (hc : c < len) (k : Nat) : (advance len)^[k] c = (c + k) % len := by
  induction k generalizing c with
  | zero => exact (Nat.mod_eq_of_lt hc).symm
  | succ k ih =>
    rw [Function.iterate_succ_apply, ih (advance_lt hc), advance_mod hc, Nat.mod_add_mod, Nat.add_right_comm]
    rfl

/-- Past the window the cursor only climbs. -/
theorem iterate_advance_outside {len c : Nat} (hc : len ≤ c) (k : Nat) : (advance len)^[k] c = c + k := by
  induction k generalizing c with
  | zero => rfl
  | succ k ih =>
    have hstep : advance len c = c + 1 := if_neg (by omega)
    rw [Function.iterate_succ_apply, hstep, ih (by omega)]
    omega

/-- A pull that answers has read each of its samples inside the array. -/
theorem pullFrom_bounds {pb : List (FpOf F)} {start len n c : Nat} {r : Block × Nat}
    (h : pullFrom pb start len n c = .ok r) {k : Nat} (hk : k < n) : start + (advance len)^[k] c < pb.length := by
  induction n generalizing c r k with
  | zero => omega
  | succ n ih =>
    simp only [pullFrom, Except.bind_ok_iff] at h
    obtain ⟨v, hv, r', hr', -⟩ := h
    cases k with
    | zero => exact (List.getElem?_eq_some_iff.1 (arrRead_ok_iff.1 hv)).1
    | succ k => exact ih hr' (by omega)

/-! ### Micro-operations that answer on a primed block -/

section Primed

variable {s t : StateOf P} {p ov len start c : Nat}

theorem olaTail_bounds (hp : s.primed = true) (hw : s.win = ⟨some p, some ov, some len, some start, some c⟩)
    (h : olaTail s = .ok t) :
    ov ≤ start ∧ (ov = 0 ∨ ov ≤ s.mem.savedTail.length ∧ start ≤ s.mem.pitchBuffer.length) := by
  simp only [olaTail, readSpan hp hw, readStart hp hw, Except.bind_ok_iff, Except.ok.injEq, exists_eq_left'] at h
  obtain ⟨tail, htail, left, -, right, hright, -⟩ := h
  obtain ⟨htail, -⟩ := memRead_ok_iff.1 htail
  have hright := memReadBelow_bounds hright
  omega

theorem snapshotTail_bounds (hp : s.primed = true) (hw : s.win = ⟨some p, some ov, some len, some start, some c⟩)
    (h : snapshotTail s = .ok t) : ov ≤ s.mem.savedTail.length := by
  simp only [snapshotTail, readSpan hp hw, Except.bind_ok_iff, Except.ok.injEq, exists_eq_left'] at h
  obtain ⟨tail, hread, saved, hwrite, -⟩ := h
  obtain ⟨-, hlen, -⟩ := memReadBelow_spec hread
  rcases memWrite_bounds hwrite with hnil | hle
  · simp only [List.map_eq_nil_iff] at hnil
    subst hnil
    exact hlen.symm.trans_le (Nat.zero_le _)
  · simpa [hlen] using hle

theorem writebackTail_bounds (hp : s.primed = true) (hw : s.win = ⟨some p, some ov, some len, some start, some c⟩)
    (h : writebackTail s = .ok t) : ov ≤ 390 := by
  simp only [writebackTail, readSpan hp hw, Except.bind_ok_iff, Except.ok.injEq, exists_eq_left'] at h
  obtain ⟨tail, hread, -⟩ := h
  exact (memReadBelow_bounds hread).1

theorem pull_bounds (hp : s.primed = true) (hw : s.win = ⟨some p, some ov, some len, some start, some c⟩)
    {dst : PullDst} {n : Nat} (h : pull dst n s = .ok t) {k : Nat} (hk : k < n) :
    start + (advance len)^[k] c < s.mem.pitchBuffer.length := by
  rw [pull, if_neg (by omega)] at h
  simp only [readStart hp hw, readCursor hp hw, readLength hp hw, Except.bind_ok_iff, Except.ok.injEq,
    exists_eq_left'] at h
  obtain ⟨r, hr, -⟩ := h
  exact pullFrom_bounds hr hk

theorem grow_bounds (hp : s.primed = true) (hw : s.win = ⟨some p, some ov, some len, some start, some c⟩)
    (h : grow s = .ok t) : len + p ≤ 390 := by
  simp only [grow, readLength hp hw, readPeriod hp hw, Except.bind_ok_iff, Except.ok.injEq, exists_eq_left'] at h
  split at h
  · assumption
  · cases h

theorem olaFrame_bounds (hp : s.primed = true) (hw : s.win = ⟨some p, some ov, some len, some start, some c⟩)
    (h : olaFrame s = .ok t) : ov ≤ s.work.tmp.length := by
  simp only [olaFrame, readSpan hp hw, Except.bind_ok_iff, Except.ok.injEq, exists_eq_left'] at h
  obtain ⟨left, hleft, -⟩ := h
  exact (readBuffer_ok_iff.1 hleft).1

end Primed

/-- The fine stage that answers has read its first window inside the array (R122; log 20). -/
theorem findpitchFine_bounds {s t : StateOf P} (h : findpitchFine s = .ok t) :
    110 + (s.work.bestLag - 1) + 160 ≤ s.mem.pitchBuffer.length := by
  simp only [findpitchFine, Except.bind_ok_iff] at h
  obtain ⟨-, -, -, -, xs, hxs, -⟩ := h
  exact (memRead_ok_iff.1 hxs).1.resolve_left (by decide)

/-! ### Indices outside the array -/

/-- A micro-operation that cannot answer enters `InvariantFault` (R204, R205). -/
theorem finishMicro_enters_of_not_ok {r : Except Violation State} {s : State} (h : ∀ t, r ≠ .ok t) :
    ∃ t, finishMicro r s = .next t ∧ Formula.entersInvariantFault s t := by
  rcases finishMicro_cases r s with ⟨t, ht, -⟩ | ⟨e, -, he⟩
  · exact absurd ht (h t)
  · exact ⟨_, he, invariantEntry_entersInvariantFault s⟩

/-- Settles O31: each clause denies a bound that its micro-operation has met where it answers. -/
theorem indexOutsideTheArrayFaults : Obligations.IndexOutsideTheArrayFaults := by
  constructor
  · rintro s p ov len start c ⟨hp, hw⟩
    refine ⟨fun hov => finishMicro_enters_of_not_ok fun t ht => ?_,
      fun hm hov => finishMicro_enters_of_not_ok fun t ht => ?_,
      fun hm hstart hov => finishMicro_enters_of_not_ok fun t ht => ?_,
      fun hm hov => finishMicro_enters_of_not_ok fun t ht => ?_,
      fun _ hov => finishMicro_enters_of_not_ok fun t ht => ?_,
      fun dst n k hk hc hout => finishMicro_enters_of_not_ok fun t ht => ?_,
      fun dst n k hk hc hout => finishMicro_enters_of_not_ok fun t ht => ?_,
      fun hlen => finishMicro_enters_of_not_ok fun t ht => ?_,
      fun hwork hov => finishMicro_enters_of_not_ok fun t ht => ?_⟩
    · exact absurd (olaTail_bounds hp hw ht).1 (by omega)
    · have hbound := olaTail_bounds hp hw ht
      obtain ⟨-, -, htail⟩ := (Memory.wf_iff _).1 hm
      omega
    · have hbound := olaTail_bounds hp hw ht
      obtain ⟨-, hpb, -⟩ := (Memory.wf_iff _).1 hm
      omega
    · have hbound := snapshotTail_bounds hp hw ht
      obtain ⟨-, -, htail⟩ := (Memory.wf_iff _).1 hm
      omega
    · exact absurd (writebackTail_bounds hp hw ht) (by omega)
    · have hbound := pull_bounds hp hw ht hk
      rw [iterate_advance_inside hc] at hbound
      omega
    · have hbound := pull_bounds hp hw ht hk
      rw [iterate_advance_outside hc] at hbound
      omega
    · exact absurd (grow_bounds hp hw ht) (by omega)
    · have hbound := olaFrame_bounds hp hw ht
      obtain ⟨-, htmp, -⟩ := (Work.wf_iff _).1 hwork
      omega
  · intro s hm hlag
    refine finishMicro_enters_of_not_ok fun t ht => ?_
    have hbound := findpitchFine_bounds ht
    obtain ⟨-, hpb, -⟩ := (Memory.wf_iff _).1 hm
    omega

end Sys2Proof.Machine

/-! SUPPORT. The two word formats: the fields of a command word and of a micro-operation word, and that the decoder and
the encoder are inverse to each other (R72, R74, R75, R78). -/

namespace Sys2Proof.Machine

/-! ### Lanes of a bus (R72) -/

theorem unpackLanes_get {n i : Nat} (hi : i < n) (bus : Nat) :
    (unpackLanes n bus)[i]? = some (BitVec.ofNat 16 (bus / 2 ^ (16 * i))) := by
  induction n generalizing i bus with
  | zero => omega
  | succ n ih =>
    cases i with
    | zero => rw [unpackLanes, List.getElem?_cons_zero, Nat.mul_zero, pow_zero, Nat.div_one]
    | succ i =>
      rw [unpackLanes, List.getElem?_cons_succ, ih (by omega), Nat.div_div_eq_div_mul, ← pow_add, Nat.mul_succ,
        Nat.add_comm 16]

/-- Packing loses no sample: the lanes are read back as they were put there. -/
theorem unpackLanes_packLanes (b : Block) : unpackLanes b.length (packLanes b) = b := by
  induction b with
  | nil => rfl
  | cons x xs ih =>
    have hx := x.isLt
    have hlane : BitVec.ofNat 16 (x.toNat + 2 ^ 16 * packLanes xs) = x := by
      apply BitVec.eq_of_toNat_eq
      rw [BitVec.toNat_ofNat]
      omega
    have hrest : (x.toNat + 2 ^ 16 * packLanes xs) / 2 ^ 16 = packLanes xs := by omega
    rw [packLanes, List.length_cons, unpackLanes, hlane, hrest, ih]

/-! ### Command words (R74, R75) -/

theorem opBits_eq_iff {w : CommandWord} {op : BitVec 2} : w.extractLsb' 0 2 = op ↔ w.toNat % 4 = op.toNat := by
  rw [← BitVec.toNat_inj, BitVec.extractLsb'_toNat, Nat.shiftRight_zero]

/-- The lanes of the frame field stand two bits up in the command word, above `op`. -/
theorem commandWord_lane (w : CommandWord) (i : Nat) :
    w.extractLsb' (16 * i + 2) 16 = BitVec.ofNat 16 (w.toNat / 4 / 2 ^ (16 * i)) := by
  apply BitVec.eq_of_toNat_eq
  rw [BitVec.extractLsb'_toNat, BitVec.toNat_ofNat, Nat.shiftRight_eq_div_pow, Nat.div_div_eq_div_mul,
    Nat.add_comm, pow_add, show 2 ^ 2 = 4 from rfl]

/-- Two bits and a bus of `n` bits above them fit a word of `n + 2` bits. -/
theorem toNat_ofNat_opAndBus {op bus n w : Nat} (hop : op < 4) (hbus : bus < 2 ^ n) (hw : n + 2 = w) :
    (BitVec.ofNat w (op + 4 * bus)).toNat = op + 4 * bus := by
  subst hw
  rw [BitVec.toNat_ofNat, pow_add]
  exact Nat.mod_eq_of_lt (by omega)

/-- The fields fit the word: `op` has two bits and the frame bus 80 lanes. -/
theorem toNat_commandWord {op : Nat} (hop : op < 4) {frame : Block} (h : frame.length = 80) :
    (commandWord op (packLanes frame)).toNat = op + 4 * packLanes frame :=
  toNat_ofNat_opAndBus hop (packLanes_lt frame) (by rw [h])

theorem decodeCommand_zero {w : CommandWord} (h : w.toNat % 4 = 0) :
    decodeCommand w = .accept (unpackLanes 80 (w.toNat / 4)) := by
  simp only [decodeCommand, h]

theorem decodeCommand_one {w : CommandWord} (h : w.toNat % 4 = 1) : decodeCommand w = .conceal := by
  simp only [decodeCommand, h]

theorem decodeCommand_two {w : CommandWord} (h : w.toNat % 4 = 2) : decodeCommand w = .construct := by
  simp only [decodeCommand, h]

theorem decodeCommand_three {w : CommandWord} (h : w.toNat % 4 = 3) : decodeCommand w = .reserved := by
  simp only [decodeCommand, h]

/-- The word of ACCEPT is its frame bus two bits up, with `op` 0 (R74, R75). -/
theorem toNat_acceptWord {frame : Block} (h : frame.length = 80) :
    (commandWord 0 (packLanes frame)).toNat = 4 * packLanes frame := by
  rw [toNat_commandWord (by decide) h, Nat.zero_add]

theorem decodeCommand_acceptWord {frame : Block} (h : frame.length = 80) :
    decodeCommand (commandWord 0 (packLanes frame)) = .accept frame := by
  have hword := toNat_acceptWord h
  rw [decodeCommand_zero (by omega), hword, Nat.mul_div_cancel_left _ (by decide), ← h, unpackLanes_packLanes]

/-! ### Micro-operation words (R78; operand bits: log 11) -/

/-- Fields of four, two and seven bits fit the word. -/
theorem toNat_microWord {code dst len : Nat} (hcode : code < 16) (hdst : dst < 4) (hlen : len < 128) :
    (microWord code dst len).toNat = code + 16 * dst + 64 * len := by
  rw [microWord, BitVec.toNat_ofNat]
  omega

theorem microWord_fields {code dst len : Nat} (hcode : code < 16) (hdst : dst < 4) (hlen : len < 128) :
    microCode (microWord code dst len) = code ∧ microDst (microWord code dst len) = dst ∧
      microLen (microWord code dst len) = len := by
  simp only [microCode, microDst, microLen, toNat_microWord hcode hdst hlen]
  omega

/-- A micro-operation word is made of its three fields. -/
theorem microWord_of_fields (w : MicroWord) : microWord (microCode w) (microDst w) (microLen w) = w := by
  have hw := w.isLt
  apply BitVec.eq_of_toNat_eq
  simp only [microWord, microCode, microDst, microLen, BitVec.toNat_ofNat]
  omega

theorem pullDstOf_ok_iff {n : Nat} {dst : PullDst} : pullDstOf n = .ok dst ↔ n = dst.code := by
  unfold pullDstOf
  cases dst <;> split <;> simp_all [PullDst.code]

theorem pullCode_lt (dst : PullDst) : dst.code < 4 := by cases dst <;> decide

/-- The length of every PULL that fits its destination fits the length bits. -/
theorem pullCapacity_lt (dst : PullDst) : dst.capacity < 128 := by cases dst <;> decide

theorem plainMicro_ok_iff {w : MicroWord} {i j : Instr} :
    plainMicro w i = .ok j ↔ microDst w = 0 ∧ microLen w = 0 ∧ i = j := by
  unfold plainMicro
  split <;> simp_all

theorem decodePrime_ok_iff {w : MicroWord} {j : Instr} :
    decodePrime w = .ok j ↔ microDst w = 0 ∧ microLen w ≤ 80 ∧ .prime (120 - microLen w) = j := by
  unfold decodePrime
  split_ifs <;> simp_all

theorem decodeReconcileBlend_ok_iff {w : MicroWord} {j : Instr} :
    decodeReconcileBlend w = .ok j ↔ microDst w = 0 ∧ microLen w ≤ 80 ∧ .reconcileBlend (microLen w) = j := by
  unfold decodeReconcileBlend
  split_ifs <;> simp_all

theorem decodePull_ok_iff {w : MicroWord} {j : Instr} :
    decodePull w = .ok j ↔
      ∃ dst : PullDst, microDst w = dst.code ∧ microLen w ≤ dst.capacity ∧ .pull dst (microLen w) = j := by
  simp only [decodePull, ← pullDstOf_ok_iff]
  cases pullDstOf (microDst w) with
  | error e => simp
  | ok dst =>
    by_cases hfit : microLen w ≤ dst.capacity <;> simp [hfit]

/-! ### The decoder reads back what the encoder writes -/

theorem decodeMicro_primeWord {period : Nat} (hlow : 40 ≤ period) (hhigh : period ≤ 120) :
    decodeMicro (microWord 4 0 (120 - period)) = .ok (.prime period) := by
  obtain ⟨hcode, hdst, hlen⟩ :=
    microWord_fields (code := 4) (dst := 0) (len := 120 - period) (by decide) (by decide) (by omega)
  simp only [decodeMicro, hcode, decodePrime_ok_iff, hdst, hlen]
  refine ⟨trivial, by omega, ?_⟩
  rw [Nat.sub_sub_self hhigh]

theorem decodeMicro_pullWord {dst : PullDst} {n : Nat} (hn : n ≤ dst.capacity) :
    decodeMicro (microWord 8 dst.code n) = .ok (.pull dst n) := by
  obtain ⟨hcode, hdst, hlen⟩ :=
    microWord_fields (code := 8) (by decide) (pullCode_lt dst) (hn.trans_lt (pullCapacity_lt dst))
  simp only [decodeMicro, hcode, decodePull_ok_iff, hdst, hlen]
  exact ⟨dst, rfl, hn, rfl⟩

theorem decodeMicro_reconcileBlendWord {olen : Nat} (h : olen ≤ 80) :
    decodeMicro (microWord 14 0 olen) = .ok (.reconcileBlend olen) := by
  obtain ⟨hcode, hdst, hlen⟩ :=
    microWord_fields (code := 14) (dst := 0) (len := olen) (by decide) (by decide) (by omega)
  simp only [decodeMicro, hcode, decodeReconcileBlend_ok_iff, hdst, hlen]
  exact ⟨trivial, h, trivial⟩

theorem periodOk_iff {period : Nat} : periodOk period = true ↔ 40 ≤ period ∧ period ≤ 120 := by
  rw [periodOk, Bool.and_eq_true, decide_eq_true_iff, decide_eq_true_iff]

/-- Settles O1: a frame is packed without loss, a micro-operation without operands is told by its code, and an operand
that is well formed fits its bits. -/
theorem decodeAndEncodeAgree : Obligations.DecodeAndEncodeAgree := by
  intro i hi
  cases i with
  | accept frame => exact congrArg Except.ok (decodeCommand_acceptWord (beq_iff_eq.1 hi))
  | conceal => exact congrArg Except.ok (decodeCommand_one Laws.OpcodeBits.conceal)
  | construct => exact congrArg Except.ok (decodeCommand_two Laws.OpcodeBits.construct)
  | reserved => exact congrArg Except.ok (decodeCommand_three Laws.OpcodeBits.reserved)
  | prime period =>
    obtain ⟨hlow, hhigh⟩ := periodOk_iff.1 hi
    exact decodeMicro_primeWord hlow hhigh
  | pull dst n => exact decodeMicro_pullWord (of_decide_eq_true hi)
  | reconcileBlend olen => exact decodeMicro_reconcileBlendWord (of_decide_eq_true hi)
  | idle | widenHistory | findpitchCoarse | findpitchFine | snapshotTail | olaTail | writebackTail | grow
    | restoreCursor | olaFrame | scale | zeroFrame | commitAndOut => rfl

/-! ### The encoder writes back what the decoder reads -/

/-- A word that decodes as a micro-operation without operands is that micro-operation's word. -/
theorem encode_of_plainMicro {w : MicroWord} {code : Nat} {i j : Instr} (hcode : microCode w = code)
    (hj : encode j = .micro (microWord code 0 0)) (hwf : j.wellFormed = true) (h : plainMicro w j = .ok i) :
    i.wellFormed = true ∧ encode i = .micro w := by
  obtain ⟨hdst, hlen, rfl⟩ := plainMicro_ok_iff.1 h
  exact ⟨hwf, by rw [hj, ← microWord_of_fields w, hcode, hdst, hlen]⟩

theorem encode_of_decodePrime {w : MicroWord} {i : Instr} (hcode : microCode w = 4) (h : decodePrime w = .ok i) :
    i.wellFormed = true ∧ encode i = .micro w := by
  obtain ⟨hdst, hlen, rfl⟩ := decodePrime_ok_iff.1 h
  refine ⟨periodOk_iff.2 ⟨by omega, by omega⟩, congrArg CodeWord.micro ?_⟩
  show microWord 4 0 (120 - (120 - microLen w)) = w
  rw [Nat.sub_sub_self (by omega), ← hcode, ← hdst, microWord_of_fields]

theorem encode_of_decodePull {w : MicroWord} {i : Instr} (hcode : microCode w = 8) (h : decodePull w = .ok i) :
    i.wellFormed = true ∧ encode i = .micro w := by
  obtain ⟨dst, hdst, hlen, rfl⟩ := decodePull_ok_iff.1 h
  refine ⟨decide_eq_true hlen, congrArg CodeWord.micro ?_⟩
  rw [← hcode, ← hdst, microWord_of_fields]

theorem encode_of_decodeReconcileBlend {w : MicroWord} {i : Instr} (hcode : microCode w = 14)
    (h : decodeReconcileBlend w = .ok i) : i.wellFormed = true ∧ encode i = .micro w := by
  obtain ⟨hdst, hlen, rfl⟩ := decodeReconcileBlend_ok_iff.1 h
  refine ⟨decide_eq_true hlen, congrArg CodeWord.micro ?_⟩
  rw [← hcode, ← hdst, microWord_of_fields]

/-- Settles O2: along the sixteen codes; the checks of each code are those of well-formedness, and a word is made of its
fields. -/
theorem microWordsHaveOneMeaning : Obligations.MicroWordsHaveOneMeaning := by
  intro w i h
  replace h : decodeMicro w = .ok i := h
  unfold decodeMicro at h
  split at h
  case h_5 hcode => exact encode_of_decodePrime hcode h
  case h_9 hcode => exact encode_of_decodePull hcode h
  case h_15 hcode => exact encode_of_decodeReconcileBlend hcode h
  case h_16 =>
    have hlt : microCode w < 16 := Nat.mod_lt _ (by decide)
    have hcode : microCode w = 15 := by
      simp only [imp_false] at *
      omega
    exact encode_of_plainMicro hcode rfl rfl h
  all_goals exact encode_of_plainMicro ‹_› rfl rfl h

/-- Settles O3: the word is the frame bus two bits up, and a bus read lane by lane is the frame. -/
theorem frameLanesOfTheCommandWord : Obligations.FrameLanesOfTheCommandWord := by
  intro frame hframe
  have hword := toNat_acceptWord hframe
  refine ⟨_, rfl, opBits_eq_iff.2 ?_, fun i hi => ?_⟩
  · rw [hword]
    exact Nat.mul_mod_right 4 _
  · rw [commandWord_lane, hword, Nat.mul_div_cancel_left _ (by decide), ← unpackLanes_get hi, ← hframe,
      unpackLanes_packLanes]

/-- Settles O4: one arm of the decoder per value of `op`, and ACCEPT reads the lanes above it. -/
theorem opcodeMap : Obligations.OpcodeMap := by
  intro w
  refine ⟨fun hop => ⟨unpackLanes 80 (w.toNat / 4), ?_, length_unpackLanes .., fun i hi => ?_⟩, fun hop => ?_,
    fun hop => ?_, fun hop => ?_⟩
  · exact congrArg Except.ok (decodeCommand_zero (opBits_eq_iff.1 hop))
  · rw [unpackLanes_get hi, commandWord_lane]
  · exact congrArg Except.ok (decodeCommand_one (opBits_eq_iff.1 hop))
  · exact congrArg Except.ok (decodeCommand_two (opBits_eq_iff.1 hop))
  · exact congrArg Except.ok (decodeCommand_three (opBits_eq_iff.1 hop))

/-! ### Words written out -/

/-- A word written out is decoded by naming the well-formed instruction it is the word of. -/
theorem decode_of_encode {i : Instr} {c : CodeWord} (hi : i.wellFormed = true) (hc : encode i = c) :
    decode c = .ok i := by
  rw [← hc, decodeAndEncodeAgree i hi]

/-- The word of a command without a frame is its `op`: the ignored frame field is zeros (R80). -/
theorem commandWord_zeroFrame (op : Nat) : commandWord op 0 = BitVec.ofNat 1282 op := by
  rw [commandWord, Nat.mul_zero, Nat.add_zero]

theorem packLanes_replicate_zero (n : Nat) : packLanes (List.replicate n 0#16) = 0 := by
  induction n with
  | zero => rfl
  | succ n ih => rw [List.replicate_succ, packLanes, ih]; rfl

theorem acceptWord_twoSamples :
    commandWord 0 (packLanes (2#16 :: 3#16 :: List.replicate 78 0#16)) = 4 * 0x00030002#1282 := by
  have hlanes : packLanes (2#16 :: 3#16 :: List.replicate 78 0#16) = 0x00030002 := by
    rw [packLanes, packLanes, packLanes_replicate_zero]
    rfl
  rw [commandWord, hlanes, Nat.zero_add, BitVec.ofNat_mul, BitVec.ofNat_eq_ofNat]

/-- Settles O5: each word is the encoding of what it stands for. -/
theorem writtenOutWordsDecode : Obligations.WrittenOutWordsDecode :=
  ⟨decode_of_encode (i := .conceal) rfl (congrArg CodeWord.command (commandWord_zeroFrame 1)),
    decode_of_encode (i := .construct) rfl (congrArg CodeWord.command (commandWord_zeroFrame 2)),
    decode_of_encode (i := .reserved) rfl (congrArg CodeWord.command (commandWord_zeroFrame 3)),
    decode_of_encode (by decide) (congrArg CodeWord.command acceptWord_twoSamples),
    decode_of_encode (i := .widenHistory) rfl rfl, decode_of_encode (i := .commitAndOut) rfl rfl,
    decode_of_encode (i := .scale) rfl rfl, decode_of_encode (i := .findpitchCoarse) rfl rfl⟩

/-! ### Trace lines (R80, R81) -/

/-- A command without a frame is presented as its `op` and zeros (R80). -/
theorem hostCommand_zeroFrame {i : Instr} {op : Nat} (hi : encode i = .command (commandWord op 0)) :
    hostCommand i = [.command (BitVec.ofNat 1282 op)] := by
  rw [hostCommand, hi, commandWord_zeroFrame]

/-- Settles O58: a pseudo-command is what it stands for by definition, and a frameless command is its `op`. -/
theorem tracePseudoCommands : Obligations.TracePseudoCommands := fun _ _ _ =>
  ⟨rfl, rfl, rfl, hostCommand_zeroFrame rfl, hostCommand_zeroFrame rfl, hostCommand_zeroFrame rfl, rfl⟩

end Sys2Proof.Machine

/-! SUPPORT. The host's side of a step: what is fetched, which instructions leave `rsp_valid` and the host's further
commands alone, and the answer of a command (R71, R73, R178). -/

namespace Sys2Proof.Machine

variable {P : Params} {s t : StateOf P}

/-! ### What is fetched (R71, R231) -/

theorem fetch_command {w : CommandWord} {rest : List HostInput} (hphase : s.phase = 0#4)
    (hin : s.inbox = .command w :: rest) : fetch s = .word (.command w) (takeCommand s rest) := by
  simp only [fetch, hin, hphase, if_true]

/-- `rst` first, then the command offered to an IDLE block, and else the sequencer's word. -/
theorem fetch_cases (s : StateOf P) :
    (∃ rest, fetch s = .resetNow (afterRst s rest)) ∨
    (∃ w rest, s.phase = 0#4 ∧ s.inbox = .command w :: rest ∧ fetch s = .word (.command w) (takeCommand s rest)) ∨
    fetch s = .word (.micro (sequencerWord s)) (takeMicro s) := by
  cases hin : s.inbox with
  | nil => exact .inr (.inr (by simp only [fetch, hin]))
  | cons input rest =>
    cases input with
    | rst => exact .inl ⟨rest, by simp only [fetch, hin]⟩
    | command w =>
      by_cases hphase : s.phase = 0#4
      · exact .inr (.inl ⟨w, rest, hphase, rfl, fetch_command hphase hin⟩)
      · exact .inr (.inr (by simp only [fetch, hin, if_neg hphase]))

/-- A step of an IDLE block runs the command it is offered. -/
theorem step_command {s : State} {w : CommandWord} {rest : List HostInput} (hphase : s.phase = 0#4)
    (hin : s.inbox = .command w :: rest) : step s = exec (decodeCommand w) (takeCommand s rest) := by
  simp only [step, stepBy, fetch_command hphase hin, decode]

/-- What a step that goes on was: a cycle of `rst`, the command offered to an IDLE block, or an instruction of the
sequencer. -/
theorem step_cases {s t : State} (h : step s = .next t) :
    (∃ rest, t = afterRst s rest) ∨
    (∃ w rest, s.phase = 0#4 ∧ s.inbox = .command w :: rest ∧ exec (decodeCommand w) (takeCommand s rest) = .next t) ∨
    (∃ w i, encode i = .micro w ∧ exec i (takeMicro s) = .next t) := by
  rcases fetch_cases s with ⟨rest, hfetch⟩ | ⟨w, rest, hphase, hin, -⟩ | hfetch
  · simp only [step, stepBy, hfetch] at h
    cases h
    exact .inl ⟨rest, rfl⟩
  · exact .inr (.inl ⟨w, rest, hphase, hin, (step_command hphase hin).symm.trans h⟩)
  · simp only [step, stepBy, hfetch] at h
    split at h
    · next i hi => exact .inr (.inr ⟨_, i, (microWordsHaveOneMeaning _ i hi).2, h⟩)
    · cases h

/-! ### Instructions that leave the host's side alone -/

/-- Two states with the same `rsp_valid` and the same commands still to come. -/
structure SameHostSide (s t : StateOf P) : Prop where
  rspValid : t.rsp.valid = s.rsp.valid
  inbox : t.inbox = s.inbox

theorem SameHostSide.trans {u : StateOf P} (h : SameHostSide s t) (h' : SameHostSide t u) : SameHostSide s u :=
  ⟨h'.rspValid.trans h.rspValid, h'.inbox.trans h.inbox⟩

/-- An operation from `s` that, when it goes on, leaves the host's side as it was. -/
def KeepsHostSide (s : StateOf P) (r : Except Violation (StateOf P)) : Prop := ∀ t, r = .ok t → SameHostSide s t

theorem KeepsHostSide.ok (hvalid : t.rsp.valid = s.rsp.valid) (hin : t.inbox = s.inbox) : KeepsHostSide s (.ok t) := by
  rintro u ⟨⟩
  exact ⟨hvalid, hin⟩

theorem KeepsHostSide.error (e : Violation) : KeepsHostSide s (.error e) := by
  intro t h
  cases h

/-- A read before the rest changes nothing. -/
theorem KeepsHostSide.read {α : Type} {x : Except Violation α} {f : α → Except Violation (StateOf P)}
    (hf : ∀ a, KeepsHostSide s (f a)) : KeepsHostSide s (x >>= f) := by
  intro t ht
  obtain ⟨a, -, ha⟩ := Except.bind_ok_iff.1 ht
  exact hf a t ha

/-- One operation, then another. -/
theorem KeepsHostSide.seq {x : Except Violation (StateOf P)} {f : StateOf P → Except Violation (StateOf P)}
    (hx : KeepsHostSide s x) (hf : ∀ u, KeepsHostSide u (f u)) : KeepsHostSide s (x >>= f) := by
  intro t ht
  obtain ⟨u, hu, hut⟩ := Except.bind_ok_iff.1 ht
  exact (hx u hu).trans (hf u t hut)

theorem writeBuffer_keepsHostSide (dst : PullDst) (vs : Block) (s : StateOf P) :
    KeepsHostSide s (writeBuffer dst vs s) := by
  intro t ht
  obtain ⟨-, rfl⟩ := writeBuffer_ok_iff.1 ht
  exact ⟨rfl, rfl⟩

theorem widenHistory_keepsHostSide (s : StateOf P) : KeepsHostSide s (widenHistory s) :=
  .read fun _ => .read fun _ => .ok rfl rfl

theorem findpitchCoarse_keepsHostSide (s : StateOf P) : KeepsHostSide s (findpitchCoarse s) :=
  .read fun _ => .read fun _ => .ok rfl rfl

theorem findpitchFine_keepsHostSide (s : StateOf P) : KeepsHostSide s (findpitchFine s) :=
  .read fun _ => .read fun _ => .read fun _ => .ok rfl rfl

theorem prime_keepsHostSide (period : Nat) (s : StateOf P) : KeepsHostSide s (prime period s) := .ok rfl rfl

theorem snapshotTail_keepsHostSide (s : StateOf P) : KeepsHostSide s (snapshotTail s) :=
  .read fun _ => .read fun _ => .read fun _ => .ok rfl rfl

theorem olaTail_keepsHostSide (s : StateOf P) : KeepsHostSide s (olaTail s) :=
  .read fun _ => .read fun _ => .read fun _ => .read fun _ => .read fun _ => .read fun _ => .ok rfl rfl

theorem writebackTail_keepsHostSide (s : StateOf P) : KeepsHostSide s (writebackTail s) :=
  .read fun _ => .read fun _ => .read fun _ => .ok rfl rfl

theorem pull_keepsHostSide (dst : PullDst) (n : Nat) (s : StateOf P) : KeepsHostSide s (pull dst n s) := by
  unfold pull
  split
  · exact .ok rfl rfl
  · exact .read fun _ => .read fun _ => .read fun _ => .read fun r =>
      (writeBuffer_keepsHostSide dst r.1 s).seq fun _ => .ok rfl rfl

theorem grow_keepsHostSide (s : StateOf P) : KeepsHostSide s (grow s) := by
  refine .read fun len => .read fun period => ?_
  split
  · exact .ok rfl rfl
  · exact .error _

theorem saveCursor_keepsHostSide (s : StateOf P) : KeepsHostSide s (saveCursor s) := .read fun _ => .ok rfl rfl

theorem restoreCursor_keepsHostSide (s : StateOf P) : KeepsHostSide s (restoreCursor s) :=
  .read fun _ => .ok rfl rfl

theorem olaFrame_keepsHostSide (s : StateOf P) : KeepsHostSide s (olaFrame s) :=
  .read fun _ => .read fun _ => .read fun _ => writeBuffer_keepsHostSide _ _ s

theorem scale_keepsHostSide (s : StateOf P) : KeepsHostSide s (scale s) := .ok rfl rfl

theorem zeroFrame_keepsHostSide (s : StateOf P) : KeepsHostSide s (zeroFrame s) := .ok rfl rfl

theorem reconcileBlend_keepsHostSide (n : Nat) (s : StateOf P) : KeepsHostSide s (reconcileBlend n s) :=
  .read fun _ => .read fun _ => writeBuffer_keepsHostSide _ _ s

/-- The frames go on the buses, but only `respond` raises `rsp_valid` (R143, R178). -/
theorem commitAndOut_keepsHostSide (s : StateOf P) : KeepsHostSide s (commitAndOut s) := .ok rfl rfl

/-! ### A micro-operation run by itself -/

theorem finishMicro_hostSide {r : Except Violation (StateOf P)} (hr : KeepsHostSide s r)
    (h : finishMicro r s = .next t) : SameHostSide s t ∨ t = invariantEntry s := by
  rcases finishMicro_cases r s with ⟨u, hu, hend⟩ | ⟨e, -, hend⟩ <;> cases hend.symm.trans h
  · exact .inl (hr t hu)
  · exact .inr rfl

/-- A micro-operation answers the host only by the entry of an `InvariantFault`. -/
theorem exec_micro_hostSide {s t : State} {i : Instr} {w : MicroWord} (hi : encode i = .micro w)
    (h : exec i s = .next t) : SameHostSide s t ∨ t = invariantEntry s := by
  cases i with
  | accept | conceal | construct | reserved => cases hi
  | idle => cases h; exact .inl ⟨rfl, rfl⟩
  | widenHistory => exact finishMicro_hostSide (widenHistory_keepsHostSide s) h
  | findpitchCoarse => exact finishMicro_hostSide (findpitchCoarse_keepsHostSide s) h
  | findpitchFine => exact finishMicro_hostSide (findpitchFine_keepsHostSide s) h
  | prime period => exact finishMicro_hostSide (prime_keepsHostSide period s) h
  | snapshotTail => exact finishMicro_hostSide (snapshotTail_keepsHostSide s) h
  | olaTail => exact finishMicro_hostSide (olaTail_keepsHostSide s) h
  | writebackTail => exact finishMicro_hostSide (writebackTail_keepsHostSide s) h
  | pull dst n => exact finishMicro_hostSide (pull_keepsHostSide dst n s) h
  | grow => exact finishMicro_hostSide (grow_keepsHostSide s) h
  | restoreCursor => exact finishMicro_hostSide (restoreCursor_keepsHostSide s) h
  | olaFrame => exact finishMicro_hostSide (olaFrame_keepsHostSide s) h
  | scale => exact finishMicro_hostSide (scale_keepsHostSide s) h
  | zeroFrame => exact finishMicro_hostSide (zeroFrame_keepsHostSide s) h
  | reconcileBlend olen => exact finishMicro_hostSide (reconcileBlend_keepsHostSide olen s) h
  | commitAndOut => exact finishMicro_hostSide (commitAndOut_keepsHostSide s) h

/-! ### The branches of a frame command -/

theorem onset_keepsHostSide (s : StateOf P) : KeepsHostSide s (onset s) :=
  (widenHistory_keepsHostSide s).seq fun s => (findpitchCoarse_keepsHostSide s).seq fun s =>
    (findpitchFine_keepsHostSide s).seq fun s => (prime_keepsHostSide _ s).seq fun s =>
      (snapshotTail_keepsHostSide s).seq fun s => (olaTail_keepsHostSide s).seq fun s =>
        (writebackTail_keepsHostSide s).seq fun s => pull_keepsHostSide _ _ s

theorem extend_keepsHostSide (s : StateOf P) : KeepsHostSide s (extend s) :=
  (saveCursor_keepsHostSide s).seq fun s => .read fun _ => (pull_keepsHostSide _ _ s).seq fun s =>
    (grow_keepsHostSide s).seq fun s => (olaTail_keepsHostSide s).seq fun s =>
      (restoreCursor_keepsHostSide s).seq fun s => (pull_keepsHostSide _ _ s).seq fun s =>
        (olaFrame_keepsHostSide s).seq scale_keepsHostSide

theorem steady_keepsHostSide (s : StateOf P) : KeepsHostSide s (steady s) :=
  (pull_keepsHostSide _ _ s).seq scale_keepsHostSide

theorem reconcile_keepsHostSide (s : StateOf P) : KeepsHostSide s (reconcile s) :=
  .read fun _ => (pull_keepsHostSide _ _ s).seq fun s => reconcileBlend_keepsHostSide _ s

theorem runConceal_keepsHostSide (b : Branch) (s : StateOf P) : KeepsHostSide s (runConceal b s) := by
  cases b with
  | onset => exact onset_keepsHostSide s
  | extend => exact extend_keepsHostSide s
  | steady => exact steady_keepsHostSide s
  | mute => exact zeroFrame_keepsHostSide s
  | pass | reconcile | construct | none => exact .ok rfl rfl

theorem runAccept_keepsHostSide (b : Branch) (s : StateOf P) : KeepsHostSide s (runAccept b s) := by
  cases b with
  | reconcile => exact reconcile_keepsHostSide s
  | pass | onset | extend | steady | mute | construct | none => exact .ok rfl rfl

/-! ### The answer of a command (R73, R178) -/

/-- What the host sees of a command's end: the response with the STATUS after it, an IDLE sequencer, and its further
commands as they were. -/
structure Answered (s t : StateOf P) : Prop where
  valid : t.rsp.valid = true
  status : t.rsp.status = statusWord t
  inbox : t.inbox = s.inbox
  idle : t.phase = 0#4

theorem respond_answered (h : t.inbox = s.inbox) : Answered s (respond t) := ⟨rfl, respond_status t, h, rfl⟩

theorem finishFrame_answers {r : Except Violation (StateOf P)} (hr : KeepsHostSide s r) (b : Branch) (count : Nat) :
    ∃ t, finishFrame b count r s = .next t ∧ Answered s t := by
  rcases finishFrame_cases b count r s with ⟨u, hu, hend⟩ | ⟨e, -, hend⟩
  · exact ⟨_, hend, respond_answered (hr u hu).inbox⟩
  · exact ⟨_, hend, respond_answered rfl⟩

theorem execConceal_answers (s : StateOf P) : ∃ t, execConceal s = .next t ∧ Answered s t := by
  by_cases hf : s.fault = .none
  · rw [execConceal_running hf]
    exact finishFrame_answers (runConceal_keepsHostSide _ s) _ _
  · exact ⟨_, execConceal_faulted hf, respond_answered rfl⟩

theorem execAccept_answers (frame : Block) (s : StateOf P) : ∃ t, execAccept frame s = .next t ∧ Answered s t := by
  by_cases hf : s.fault = .none
  · have hrun : KeepsHostSide s (runAccept (acceptBranch s.erasureCount) (s.setObuf frame)) := fun t ht =>
      SameHostSide.trans (t := s.setObuf frame) ⟨rfl, rfl⟩ (runAccept_keepsHostSide _ (s.setObuf frame) t ht)
    rw [execAccept_running hf]
    exact finishFrame_answers hrun _ _
  · exact ⟨_, execAccept_faulted hf frame, respond_answered rfl⟩

theorem execReserved_answers (s : StateOf P) : ∃ t, execReserved s = .next t ∧ Answered s t := by
  by_cases hf : s.fault = .none
  · exact ⟨_, execReserved_running hf, respond_answered rfl⟩
  · exact ⟨_, execReserved_faulted hf, respond_answered rfl⟩

/-- Every command goes on and answers, a refused or faulting one too (R168, R205, R206). -/
theorem exec_command_answers (w : CommandWord) (s : State) :
    ∃ t, exec (decodeCommand w) s = .next t ∧ Answered s t := by
  rcases decodeCommand_cases w with ⟨frame, hw, -⟩ | hw | hw | hw <;> rw [hw]
  · exact execAccept_answers frame s
  · exact execConceal_answers s
  · exact ⟨_, rfl, respond_answered rfl⟩
  · exact execReserved_answers s

/-- Settles O6: the command word decodes to the instruction that the step runs, and the last response is dropped. -/
theorem stepRunsTheOfferedCommand : Obligations.StepRunsTheOfferedCommand := by
  intro s w rest i hphase hin hi
  obtain rfl : decodeCommand w = i := Except.ok.inj hi
  exact ⟨freeResponse s.freeIdx, s.freeIdx + 1, rfl, step_command hphase hin⟩

/-- Settles O59: the offered command is run and answers; a step that took none leaves `rsp_valid` 0, as fetching put it,
unless it entered an `InvariantFault`. -/
theorem everyAcceptedCommandIsAnswered : Obligations.EveryAcceptedCommandIsAnswered := by
  constructor
  · intro s w rest hphase hin
    obtain ⟨t, ht, hans⟩ := exec_command_answers w (takeCommand s rest)
    exact ⟨t, (step_command hphase hin).trans ht, hans.valid, hans.status, hans.inbox, hans.idle⟩
  · intro s t hstep hvalid
    rcases step_cases hstep with ⟨rest, rfl⟩ | ⟨w, rest, hphase, hin, hexec⟩ | ⟨w, i, hi, hexec⟩
    · cases hvalid
    · obtain ⟨t', ht', hans⟩ := exec_command_answers w (takeCommand s rest)
      cases hexec.symm.trans ht'
      exact ⟨hans.status, .inl ⟨hphase, w, rest, hin⟩⟩
    · rcases exec_micro_hostSide hi hexec with hsame | rfl
      · cases hsame.rspValid.symm.trans hvalid
      · exact ⟨rfl, .inr rfl⟩

end Sys2Proof.Machine

/-! SUPPORT. `narrow` and the block cross-fade, value by value (R92, R94, R95). -/

namespace Sys2Proof.Machine

/-! ### Truncation (R92) -/

theorem toInt?_of_decode_fin {t : FP} {neg : Bool} {mag : Nat} (h : Fp.decode t = .fin neg mag) :
    Fp.toInt? t = some (if neg then - ((mag / 2 ^ 149 : Nat) : Int) else ((mag / 2 ^ 149 : Nat) : Int)) := by
  rw [Fp.toInt?, h, unit_standard]

/-- An integer that fits the significand is its own truncation. -/
theorem toInt?_fp {n : Int} (hn : n.natAbs < 2 ^ 24) : Fp.toInt? (fp n : FP) = some n := by
  rw [toInt?_of_decode_fin (decode_fp hn), Nat.mul_div_cancel _ (Nat.two_pow_pos 149)]
  simp only [decide_eq_true_eq, Option.some.injEq]
  split <;> omega

theorem natAbs_sample_lt (x : Sample) : x.toInt.natAbs < 2 ^ 24 := by
  have hlow := x.le_toInt
  have hhigh := x.toInt_lt
  omega

/-- The truncation of a value in range is an `int16`. -/
theorem toInt?_of_inRange {t : FP} (h : inRange t = true) :
    ∃ k : Int, Fp.toInt? t = some k ∧ -32768 ≤ k ∧ k ≤ 32767 := by
  obtain ⟨neg, mag, ht, hmag⟩ := inRange_iff_decode.1 h
  have hquot : mag / 2 ^ 149 ≤ if neg then 32768 else 32767 := Nat.div_le_of_le_mul (hmag.trans_eq (mul_comm ..))
  refine ⟨_, toInt?_of_decode_fin ht, ?_⟩
  generalize mag / 2 ^ 149 = q at hquot ⊢
  cases neg <;> simp only [if_true, Bool.false_eq_true, if_false] at hquot ⊢ <;> omega

/-! ### The three arms of `clamp` (R12) -/

theorem isNaN_of_flt {x y : FP} (h : flt x y = true) : Fp.isNaN x = false ∧ Fp.isNaN y = false := by
  simp only [flt, Fp.lt, Bool.and_eq_true, Bool.not_eq_true'] at h
  exact h.1

theorem clamp_above {t : FP} (h : flt satHi t = true) : clamp t = satHi := if_pos h

theorem clamp_below {t : FP} (h : flt t satLo = true) : clamp t = satLo := by
  have hnot_hi : ¬ flt satHi t = true := by
    simp only [flt, Fp.lt, satHi_key, satLo_key, Bool.and_eq_true, decide_eq_true_eq] at h ⊢
    omega
  rw [clamp, if_neg hnot_hi, if_pos h]

theorem clamp_between {t : FP} (hhi : flt satHi t = false) (hlo : flt t satLo = false) : clamp t = t := by
  rw [clamp, hhi, hlo]
  rfl

theorem clamp_of_inRange {t : FP} (h : inRange t = true) : clamp t = t := by
  obtain ⟨-, hlow, hhigh⟩ := inRange_iff_key.1 h
  refine clamp_between ?_ ?_
  · simp only [flt, Fp.lt, satHi_key, decide_eq_false (not_lt.2 hhigh), Bool.and_false]
  · simp only [flt, Fp.lt, satLo_key, decide_eq_false (not_lt.2 hlow), Bool.and_false]

/-! ### `narrow` (R92) -/

theorem narrow_nan {t : FP} (h : Fp.isNaN t = true) : narrow t = 0#16 := if_pos h

/-- A number narrows to the truncation of what it is clamped to. -/
theorem narrow_of_clamp {t c : FP} {k : Int} (ht : Fp.isNaN t = false) (hc : clamp t = c)
    (hk : Fp.toInt? c = some k) : narrow t = BitVec.ofInt 16 k := by
  rw [narrow, ht, hc, hk]
  rfl

/-- Settles O52: a NaN by itself, then the three arms of `clamp`, whose results are in range and truncate to an
`int16`. -/
theorem narrowSaturatesAndTruncates : Obligations.NarrowSaturatesAndTruncates := by
  refine fun t => ⟨narrow_nan, fun h => ?_, fun h => ?_, fun hnan hhi hlo => ?_⟩
  · exact narrow_of_clamp (k := 32767) (isNaN_of_flt h).2 (clamp_above h) (toInt?_fp (by decide))
  · exact narrow_of_clamp (k := -32768) (isNaN_of_flt h).1 (clamp_below h) (toInt?_fp (by decide))
  · have hclamp : clamp t = t := clamp_between hhi hlo
    obtain ⟨k, hk, hlow, hhigh⟩ := toInt?_of_inRange (hclamp ▸ inRange_clamp hnan)
    refine ⟨k, hk, hlow, hhigh, ?_⟩
    rw [narrow_of_clamp hnan hclamp hk, BitVec.toInt_ofInt]
    exact Int.bmod_eq_of_le (by omega) (by omega)

/-- Settles O53: a widened sample is in range, so `clamp` leaves it alone, and it is held exactly (R91). -/
theorem narrowUndoesWiden : Obligations.NarrowUndoesWiden := by
  intro x
  have hnan : Fp.isNaN (widen x : FP) = false := (inRange_iff_key.1 (inRange_widen x)).1
  have hk : Fp.toInt? (widen x : FP) = some x.toInt := toInt?_fp (natAbs_sample_lt x)
  rw [narrow_of_clamp hnan (clamp_of_inRange (inRange_widen x)) hk, BitVec.ofInt_toInt]

/-! ### Exact arithmetic on integers (R12) -/

/-- A common factor does not change what a fraction rounds to. -/
theorem Fp.roundBits_mul_cancel {F : FpFormat} (p : Nat) {q : Nat} (hq : 0 < q) :
    Fp.roundBits F (q * p) q = Fp.roundBits F p 1 := by
  have hround (r d : Nat) : q * d < 2 * (q * r) ↔ d < 2 * r := by
    rw [Nat.mul_left_comm, Nat.mul_lt_mul_left hq]
  have htie (r d : Nat) : 2 * (q * r) = q * d ↔ 2 * r = d := by
    rw [Nat.mul_left_comm, Nat.mul_right_inj hq.ne']
  simp only [Fp.roundBits, Nat.mul_div_cancel_left _ hq, Nat.div_one, one_mul, Nat.mul_div_mul_left _ _ hq,
    Nat.mul_mod_mul_left, hround, htie]

theorem fp_eq_ofRatio (n : Int) :
    (fp n : FP) = Fp.ofRatio Params.standard.fpFormat (decide (n < 0)) (n.natAbs * 2 ^ 149) 1 := by
  rw [fp, Fp.ofInt, unit_standard]

theorem fmul_of_decode_fin {x y : FP} {sx sy : Bool} {mx my : Nat} (hx : Fp.decode x = .fin sx mx)
    (hy : Fp.decode y = .fin sy my) :
    fmul x y = Fp.ofRatio Params.standard.fpFormat (sx ^^ sy) (mx * my) (2 ^ 149) := by
  rw [fmul, Fp.mul, hx, hy, unit_standard]

theorem fmul_fp_one {n : Int} (hn : n.natAbs < 2 ^ 24) : fmul (fp n) (fp 1) = (fp n : FP) := by
  have hone : Fp.decode (fp 1 : FP) = .fin false (2 ^ 149) := by decide
  rw [fmul_of_decode_fin (decode_fp hn) hone, Bool.xor_false, fp_eq_ofRatio, Fp.ofRatio, Fp.ofRatio,
    mul_comm _ (2 ^ 149), Fp.roundBits_mul_cancel _ (Nat.two_pow_pos 149), mul_comm]

/-- A product with zero is a zero, of either sign. -/
theorem decode_fmul_fp_zero {n : Int} (hn : n.natAbs < 2 ^ 24) :
    ∃ neg, Fp.decode (fmul (fp n) (fp 0) : FP) = .fin neg 0 := by
  have hzero : Fp.decode (fp 0 : FP) = .fin false 0 := by decide
  refine ⟨decide (n < 0), ?_⟩
  rw [fmul_of_decode_fin (decode_fp hn) hzero, Bool.xor_false, Nat.mul_zero]
  cases decide (n < 0) <;> decide

theorem fadd_of_decode_fin {x y : FP} {sx sy : Bool} {mx my : Nat} (hx : Fp.decode x = .fin sx mx)
    (hy : Fp.decode y = .fin sy my) : fadd x y = Fp.addMagnitudes Params.standard.fpFormat sx mx sy my := by
  simp only [fadd, Fp.add, Fp.addWith, hx, hy, Bool.xor_false]

/-- Adding a zero of either sign to an integer changes nothing. -/
theorem fadd_fp_zero {n : Int} {z : FP} {neg : Bool} (hn : n.natAbs < 2 ^ 24) (hz : Fp.decode z = .fin neg 0) :
    fadd (fp n) z = fp n := by
  rw [fadd_of_decode_fin (decode_fp hn) hz, Fp.addMagnitudes, Nat.add_zero, Nat.sub_zero, ← fp_eq_ofRatio]
  by_cases h0 : n = 0
  · subst h0
    cases neg <;> decide
  · have hpos : 0 < n.natAbs * 2 ^ 149 := Nat.mul_pos (Int.natAbs_pos.2 h0) (Nat.two_pow_pos 149)
    rw [if_neg hpos.ne', if_pos hpos, ite_self]

/-! ### Cross-fades of samples, element by element (R95) -/

theorem blendS_get {left right : Block} {n i : Nat} {x y : Sample} (hi : i < n) (hx : left[i]? = some x)
    (hy : right[i]? = some y) :
    (blendS Params.standard.fpFormat left right n)[i]? =
      some (narrow (Formula.blendAt n i (widen x) (widen y))) := by
  simp only [blendS, blend, List.getElem?_map, crossFade_get, List.getElem?_take_of_lt hi, hx, hy, Option.map_some,
    Option.bind_some, Nat.zero_add]
  rfl

/-- At offset 0 of 1 the left weight is exactly 1 and the right weight exactly 0 (R94). -/
theorem blendAt_zero_of_one {l r : Int} (hl : l.natAbs < 2 ^ 24) (hr : r.natAbs < 2 ^ 24) :
    Formula.blendAt 1 0 (fp l) (fp r) = clamp (fp l) := by
  have hright : fdiv (fp (0 : Nat)) (fp (1 : Nat)) = (fp 0 : FP) := by decide
  have hleft : fsub (fp 1) (fp 0) = (fp 1 : FP) := by decide
  obtain ⟨neg, hzero⟩ := decode_fmul_fp_zero hr
  rw [Formula.blendAt, hright, hleft, fmul_fp_one hl, fadd_fp_zero hl hzero]

/-- Settles O54: the one weighted sum is the left sample exactly. -/
theorem blendOfOneSampleIsTheLeft : Obligations.BlendOfOneSampleIsTheLeft := by
  intro l r
  have hvalue : Formula.blendAt 1 0 (widen l) (widen r) = widen l :=
    (blendAt_zero_of_one (natAbs_sample_lt l) (natAbs_sample_lt r)).trans (clamp_of_inRange (inRange_widen l))
  calc blendS Params.standard.fpFormat [l] [r] 1
    _ = [narrow (Formula.blendAt 1 0 (widen l) (widen r))] := rfl
    _ = [l] := by rw [hvalue, narrowUndoesWiden]

/-- Settles O44: the cross-fade overlays the first `ov` samples of `obuf` (R97, R99). -/
theorem olaFrameBlendsTheFrameStart : Obligations.OlaFrameBlendsTheFrameStart := by
  rintro s p ov len start c ⟨hprimed, hwin⟩ hwf hov
  obtain ⟨hobuf, htmp, -⟩ := (Work.wf_iff _).1 hwf
  have hlen : (blendS Params.standard.fpFormat (s.work.tmp.take ov) (s.work.obuf.take ov) ov).length = ov :=
    length_blendS (by simp; omega) (by simp; omega)
  refine ⟨overlay (blendS Params.standard.fpFormat (s.work.tmp.take ov) (s.work.obuf.take ov) ov) s.work.obuf,
    ?_, ?_, ?_, ?_⟩
  · exact congrArg (finishMicro · s) (olaFrame_inside hprimed hwin (by omega) (by omega))
  · rw [length_overlay (by omega), hobuf]
  · intro i x y hi hx hy
    rw [overlay_get, if_pos (by omega)]
    exact blendS_get hi ((List.getElem?_take_of_lt hi).trans hx) ((List.getElem?_take_of_lt hi).trans hy)
  · intro i hi
    rw [overlay_get, if_neg (by omega)]

end Sys2Proof.Machine

/-! SUPPORT. The two stages of the pitch search, candidate by candidate (R111 to R118): which candidate a stage
leaves as the winner, and that its registers hold the formulas of the rules. -/

namespace Sys2Proof.Machine

variable {P : Params}

/-! ### The two comparisons of the search (R12) -/

theorem fge_iff {x y : FP P} :
    fge x y = true ↔ Fp.isNaN x = false ∧ Fp.isNaN y = false ∧ Fp.key y ≤ Fp.key x := by
  simp only [fge, Fp.le, Bool.and_eq_true, Bool.not_eq_true', decide_eq_true_eq]
  tauto

theorem flt_iff {x y : FP P} :
    flt x y = true ↔ Fp.isNaN x = false ∧ Fp.isNaN y = false ∧ Fp.key x < Fp.key y := by
  simp only [flt, Fp.lt, Bool.and_eq_true, Bool.not_eq_true', decide_eq_true_eq, and_assoc]

/-- What a stage needs of the comparison that moves it to a later candidate. A NaN is never better. -/
structure SearchOrder (better : FP P → FP P → Bool) : Prop where
  trans : ∀ {x y z}, better x y = true → better y z = true → better x z = true
  over_rejected : ∀ {x y z}, better x y = true → better z y = false → Fp.isNaN z = false → better x z = true

/-- The coarse stage moves on a tie (R115). -/
theorem searchOrder_fge : SearchOrder (P := P) fge where
  trans hxy hyz := by
    obtain ⟨hx, -, hle⟩ := fge_iff.1 hxy
    obtain ⟨-, hz, hle'⟩ := fge_iff.1 hyz
    exact fge_iff.2 ⟨hx, hz, hle'.trans hle⟩
  over_rejected hxy hzy hz := by
    obtain ⟨hx, hy, hle⟩ := fge_iff.1 hxy
    rw [← Bool.not_eq_true, fge_iff, not_and, not_and, not_le] at hzy
    exact fge_iff.2 ⟨hx, hz, (hzy hz hy).le.trans hle⟩

/-- The fine stage keeps the earlier lag on a tie (R117). -/
theorem searchOrder_flt : SearchOrder (P := P) fun x y => flt y x where
  trans hxy hyz := by
    obtain ⟨-, hx, hlt⟩ := flt_iff.1 hxy
    obtain ⟨hz, -, hlt'⟩ := flt_iff.1 hyz
    exact flt_iff.2 ⟨hz, hx, hlt'.trans hlt⟩
  over_rejected hxy hzy hz := by
    obtain ⟨hy, hx, hlt⟩ := flt_iff.1 hxy
    rw [← Bool.not_eq_true, flt_iff, not_and, not_and, not_lt] at hzy
    exact flt_iff.2 ⟨hz, hx, (hzy hy hz).trans_lt hlt⟩

/-! ### The winner among the candidates so far -/

/-- Candidate `best` wins among the candidates 0 to `last`: no later one is better than it, and, where no score is a
NaN, it is better than every earlier one. -/
structure Wins (better : FP P → FP P → Bool) (score : Nat → FP P) (last best : Nat) : Prop where
  le : best ≤ last
  later : ∀ m, best < m → m ≤ last → better (score m) (score best) = false
  earlier : (∀ m, m ≤ last → Fp.isNaN (score m) = false) → ∀ m, m < best → better (score best) (score m) = true

section Wins

variable {better : FP P → FP P → Bool} {score : Nat → FP P} {last best : Nat}

theorem Wins.first (better : FP P → FP P → Bool) (score : Nat → FP P) : Wins better score 0 0 :=
  ⟨le_rfl, fun _ _ _ => by omega, fun _ _ _ => by omega⟩

theorem Wins.keep (h : Wins better score last best) (hnew : better (score (last + 1)) (score best) = false) :
    Wins better score (last + 1) best where
  le := h.le.trans last.le_succ
  later m hm hlast := by
    rcases Nat.le_succ_iff.1 hlast with hold | rfl
    · exact h.later m hm hold
    · exact hnew
  earlier hnum := h.earlier fun m hm => hnum m (hm.trans last.le_succ)

theorem Wins.replace (ho : SearchOrder better) (h : Wins better score last best)
    (hnew : better (score (last + 1)) (score best) = true) : Wins better score (last + 1) (last + 1) where
  le := le_rfl
  later m hm hlast := by omega
  earlier hnum m hm := by
    have hwin := h.earlier fun m hm => hnum m (hm.trans last.le_succ)
    rcases lt_trichotomy m best with hlt | rfl | hgt
    · exact ho.trans hnew (hwin m hlt)
    · exact hnew
    · exact ho.over_rejected hnew (h.later m hgt (by omega)) (hnum m (by omega))

end Wins

/-! ### The registers of a stage after each candidate (R115, R117) -/

/-- The candidates of a stage by number: their lags, correlations and energies. -/
structure Candidates (P : Params) where
  lag : Nat → Nat
  corr : Nat → FP P
  energy : Nat → FP P

def Candidates.score (K : Candidates P) (n : Nat) : FP P := scoreOf (K.corr n) (K.energy n)

/-- The correlator's registers when candidate `last` is done and `best` is the winner so far. -/
structure Searched (better : FP P → FP P → Bool) (K : Candidates P) (last best : Nat) (w : Work P) : Prop where
  energy : w.energy = K.energy last
  corr : w.corr = K.corr last
  score : w.score = K.score last
  j : w.j = K.lag last
  bestLag : w.bestLag = K.lag best
  bestScore : w.bestScore = K.score best
  wins : Wins better K.score last best

section Stage

variable {better : FP P → FP P → Bool} {K : Candidates P}

theorem searchStart_searched (better : FP P → FP P → Bool) (K : Candidates P) (w : Work P) :
    Searched better K 0 0 (searchStart w (K.lag 0) (K.corr 0) (K.energy 0)) :=
  ⟨rfl, rfl, rfl, rfl, rfl, rfl, Wins.first better K.score⟩

theorem searchStep_searched (ho : SearchOrder better) {last best : Nat} {w : Work P}
    (h : Searched better K last best w) :
    ∃ best', Searched better K (last + 1) best'
      (searchStep better w (K.lag (last + 1)) (K.corr (last + 1)) (K.energy (last + 1))) := by
  cases hnew : better (K.score (last + 1)) (K.score best) with
  | true =>
    refine ⟨last + 1, ?_⟩
    rw [searchStep, ← Candidates.score, h.bestScore, if_pos hnew]
    exact ⟨rfl, rfl, rfl, rfl, rfl, rfl, h.wins.replace ho hnew⟩
  | false =>
    refine ⟨best, ?_⟩
    rw [searchStep, ← Candidates.score, h.bestScore, if_neg (Bool.eq_false_iff.1 hnew)]
    exact ⟨rfl, rfl, rfl, rfl, h.bestLag, rfl, h.wins.keep hnew⟩

/-- A stage runs through its candidates in order, with the energy of each from the one before it. -/
theorem searchFold_searched (ho : SearchOrder better) {c : Nat → FP P} {e : FP P → Nat → FP P} {w : Work P} {N : Nat}
    (hc : ∀ k, k ≤ N → c (K.lag k) = K.corr k)
    (he : ∀ k, k < N → e (K.energy k) (K.lag (k + 1)) = K.energy (k + 1)) (h : Searched better K 0 0 w) :
    ∃ best, Searched better K N best
      (((List.range N).map fun k => K.lag (k + 1)).foldl
        (fun w j => searchStep better w j (c j) (e w.energy j)) w) := by
  induction N with
  | zero => exact ⟨0, h⟩
  | succ N ih =>
    obtain ⟨best, hN⟩ := ih (fun k hk => hc k (by omega)) (fun k hk => he k (by omega))
    simp only [List.range_succ, List.map_append, List.foldl_append, List.map_cons, List.map_nil, List.foldl_cons,
      List.foldl_nil, hN.energy, hc (N + 1) le_rfl, he N N.lt_succ_self]
    exact searchStep_searched ho hN

end Stage

/-- A candidate leaves the bounds of the fine stage alone. -/
theorem searchStep_lo_hi (better : FP P → FP P → Bool) (w : Work P) (lag : Nat) (c e : FP P) :
    (searchStep better w lag c e).lo = w.lo ∧ (searchStep better w lag c e).hi = w.hi := by
  unfold searchStep
  split <;> exact ⟨rfl, rfl⟩

theorem searchFold_lo_hi (better : FP P → FP P → Bool) (c : Nat → FP P) (e : FP P → Nat → FP P) (lags : List Nat)
    (w : Work P) :
    (lags.foldl (fun w j => searchStep better w j (c j) (e w.energy j)) w).lo = w.lo ∧
      (lags.foldl (fun w j => searchStep better w j (c j) (e w.energy j)) w).hi = w.hi := by
  induction lags generalizing w with
  | nil => exact ⟨rfl, rfl⟩
  | cons j lags ih =>
    obtain ⟨hlo, hhi⟩ := searchStep_lo_hi better w j (c j) (e w.energy j)
    exact ⟨(ih _).1.trans hlo, (ih _).2.trans hhi⟩

/-! ### The formulas of the rules are what the stages compute (R111 to R114, R116) -/

section Sums

variable {s : State}

theorem fzero_eq_fp : (fzero : FP) = fp 0 := by decide

theorem scoreOf_eq_scoreAt (c e : FP) : scoreOf c e = Formula.scoreAt c e := rfl

theorem referenceOf_getElem? (hm : s.mem.wf = true) {k : Nat} (hk : k < 280) :
    (referenceOf s)[k]? = some (Formula.refAt s k) := by
  obtain ⟨-, hlen, -⟩ := (Memory.wf_iff _).1 hm
  rw [referenceOf_get s hk, Formula.refAt, List.getElem?_eq_getElem (by omega), List.getD_eq_getElem]

theorem targetOf_getElem? (hm : s.mem.wf = true) {k : Nat} (hk : k < 160) :
    (targetOf s)[k]? = some (Formula.tgtAt s k) := by
  obtain ⟨-, hlen, -⟩ := (Memory.wf_iff _).1 hm
  rw [targetOf_get s hk, Formula.tgtAt, List.getElem?_eq_getElem (by omega), List.getD_eq_getElem]

theorem refAt_referenceOf (hm : s.mem.wf = true) {k : Nat} (hk : k < 280) :
    refAt (referenceOf s) k = Formula.refAt s k := by
  rw [refAt, List.getD_eq_getElem?_getD, referenceOf_getElem? hm hk, Option.getD_some]

theorem lagWindow_referenceOf (hm : s.mem.wf = true) {j k : Nat} (hj : j ≤ 80) (hk : k < 160) :
    (lagWindow (referenceOf s) j)[k]? = some (Formula.refAt s (j + k)) := by
  rw [lagWindow_get, if_pos hk, referenceOf_getElem? hm (by omega)]

theorem everySecond_lagWindow (hm : s.mem.wf = true) {j k : Nat} (hj : j ≤ 80) (hk : k < 80) :
    (everySecond (lagWindow (referenceOf s) j))[k]? = some (Formula.refAt s (j + 2 * k)) := by
  rw [everySecond_get, lagWindow_referenceOf hm hj (by omega)]

/-- Sums over a lag's window take every second sample of it, 80 in all (R112, R113). -/
theorem sumProducts_everySecond (hm : s.mem.wf = true) {j : Nat} (hj : j ≤ 80) {ys : List FP} {y : Nat → FP}
    (hy : ∀ k, k < 80 → ys[k]? = some (y k)) :
    sumProducts (everySecond (lagWindow (referenceOf s) j)) ys =
      Formula.sumOf 80 (fun k => Formula.refAt s (j + 2 * k)) y := by
  rw [sumProducts_eq (fun k hk => everySecond_lagWindow hm hj hk) hy (by rw [everySecond_get, lagWindow_get]; rfl),
    fzero_eq_fp, Formula.sumOf]

/-- Sums over a lag's window take all its 160 samples (R112, R113). -/
theorem sumProducts_lagWindow (hm : s.mem.wf = true) {j : Nat} (hj : j ≤ 80) {ys : List FP} {y : Nat → FP}
    (hy : ∀ k, k < 160 → ys[k]? = some (y k)) :
    sumProducts (lagWindow (referenceOf s) j) ys = Formula.sumOf 160 (fun k => Formula.refAt s (j + k)) y := by
  rw [sumProducts_eq (fun k hk => lagWindow_referenceOf hm hj hk) hy (by rw [lagWindow_get]; rfl), fzero_eq_fp,
    Formula.sumOf]

theorem corrCoarse_eq (hm : s.mem.wf = true) {j : Nat} (hj : j ≤ 80) :
    corrCoarse (referenceOf s) (targetOf s) j = Formula.corrCoarseAt s j :=
  sumProducts_everySecond hm hj fun k hk => by rw [everySecond_get, targetOf_getElem? hm (by omega)]

theorem corrFine_eq (hm : s.mem.wf = true) {j : Nat} (hj : j ≤ 80) :
    corrFine (referenceOf s) (targetOf s) j = Formula.corrFineAt s j :=
  sumProducts_lagWindow hm hj fun _ hk => targetOf_getElem? hm hk

theorem energyCoarseInit_eq (hm : s.mem.wf = true) :
    energyCoarseInit (referenceOf s) = Formula.coarseEnergyAt s 0 := by
  rw [energyCoarseInit, sumProducts_everySecond hm (Nat.zero_le 80) fun k hk =>
    everySecond_lagWindow hm (Nat.zero_le 80) hk]
  simp only [Nat.zero_add, Formula.coarseEnergyAt]

theorem energyFineInit_eq (hm : s.mem.wf = true) {lo : Nat} (hlo : lo ≤ 80) :
    energyFineInit (referenceOf s) lo = Formula.fineEnergyAt s lo 0 :=
  sumProducts_lagWindow hm hlo fun _ hk => lagWindow_referenceOf hm hlo hk

theorem energyCoarseStep_eq (hm : s.mem.wf = true) {n : Nat} (hn : n < 40) :
    energyCoarseStep Params.standard.coarseEnter (referenceOf s) (Formula.coarseEnergyAt s n) (2 * (n + 1)) =
      Formula.coarseEnergyAt s (n + 1) := by
  have hprev : 2 * (n + 1) - Config.nDec = 2 * n := rfl
  have henter : Params.standard.coarseEnter = 161 := rfl
  rw [energyCoarseStep, hprev, henter, energyUpdate, refAt_referenceOf hm (by omega), refAt_referenceOf hm (by omega),
    Formula.coarseEnergyAt]

theorem energyFineStep_eq (hm : s.mem.wf = true) {lo n : Nat} (hn : lo + n < 80) :
    energyFineStep (referenceOf s) (Formula.fineEnergyAt s lo n) (lo + (n + 1)) =
      Formula.fineEnergyAt s lo (n + 1) := by
  have hprev : lo + (n + 1) - 1 = lo + n := rfl
  have hlen : Config.corrLen = 160 := rfl
  rw [energyFineStep, hprev, hlen, energyUpdate, refAt_referenceOf hm (by omega), refAt_referenceOf hm (by omega),
    Formula.fineEnergyAt]

end Sums

/-! ### FINDPITCH_COARSE (R115) -/

/-- The 41 lags 0, 2, ..., 80. Proofs rewrite with the lemmas below; comparing its fields by evaluation would run the
sums. -/
def coarseCandidates (s : State) : Candidates Params.standard :=
  ⟨fun n => 2 * n, fun n => Formula.corrCoarseAt s (2 * n), Formula.coarseEnergyAt s⟩

theorem coarseCandidates_lag (s : State) (n : Nat) : (coarseCandidates s).lag n = 2 * n := rfl

theorem coarseCandidates_corr (s : State) (n : Nat) :
    (coarseCandidates s).corr n = Formula.corrCoarseAt s (2 * n) := by rw [coarseCandidates]

theorem coarseCandidates_energy (s : State) (n : Nat) :
    (coarseCandidates s).energy n = Formula.coarseEnergyAt s n := by rw [coarseCandidates]

theorem coarseCandidates_score (s : State) : (coarseCandidates s).score = Formula.coarseScoreAt s := by
  funext n
  rw [Candidates.score, coarseCandidates_corr, coarseCandidates_energy, scoreOf_eq_scoreAt, Formula.coarseScoreAt]

theorem coarseSearch_searched {s : State} (hm : s.mem.wf = true) (w : Work Params.standard) :
    ∃ n, Searched fge (coarseCandidates s) 40 n (coarseSearch (referenceOf s) (targetOf s) w) := by
  have hcorr (k : Nat) (hk : k ≤ 40) :
      corrCoarse (referenceOf s) (targetOf s) ((coarseCandidates s).lag k) = (coarseCandidates s).corr k := by
    rw [coarseCandidates_lag, coarseCandidates_corr, corrCoarse_eq hm (by omega)]
  have hstart := searchStart_searched fge (coarseCandidates s) w
  rw [← hcorr 0 (by omega), coarseCandidates_energy, ← energyCoarseInit_eq hm] at hstart
  exact searchFold_searched searchOrder_fge hcorr (fun k hk => energyCoarseStep_eq hm hk) hstart

theorem coarseSearch_lo_hi (ref tgt : List (FP P)) (w : Work P) :
    (coarseSearch ref tgt w).lo = w.lo ∧ (coarseSearch ref tgt w).hi = w.hi :=
  searchFold_lo_hi fge (corrCoarse ref tgt) (energyCoarseStep P.coarseEnter ref) coarseLags
    (searchStart w 0 (corrCoarse ref tgt 0) (energyCoarseInit ref))

theorem exec_findpitchCoarse {s : State} (hm : s.mem.wf = true) :
    exec .findpitchCoarse s = .next { s with work := coarseSearch (referenceOf s) (targetOf s) s.work } :=
  congrArg (finishMicro · s) (findpitchCoarse_inside hm)

/-- Settles O34, by the winner kept along the candidates: `Wins` for the comparison that moves on a tie. -/
theorem coarseSearchKeepsTheLatestBest : Obligations.CoarseSearchKeepsTheLatestBest := by
  intro s hm
  have hexec := exec_findpitchCoarse hm
  have hkeeps := coarseSearch_keeps (referenceOf s) (targetOf s) s.work
  obtain ⟨hlo, hhi⟩ := coarseSearch_lo_hi (referenceOf s) (targetOf s) s.work
  obtain ⟨n, henergy, hcorr, hscore, hj, hbestLag, hbestScore, hwins⟩ := coarseSearch_searched hm s.work
  rw [coarseCandidates_score] at hscore hbestScore hwins
  rw [coarseCandidates_energy] at henergy
  rw [coarseCandidates_corr] at hcorr
  -- The candidates are not to be evaluated when the registers are compared.
  generalize coarseSearch (referenceOf s) (targetOf s) s.work = w at *
  refine ⟨w, n, hexec, hwins.le, hbestLag, hbestScore, hwins.later, fun hnum m hm => ?_, henergy, hcorr,
    hscore, hj, hkeeps.obuf, hkeeps.tmp, hkeeps.synth, hkeeps.saveCursor, hkeeps.g, hlo, hhi⟩
  rcases hm.lt_or_eq with hlt | rfl
  · exact hwins.earlier hnum m hlt
  · exact fge_iff.2 ⟨hnum m hwins.le, hnum m hwins.le, le_rfl⟩

/-! ### FINDPITCH_FINE (R117) -/

/-- The lags from `lo` on, read through the lemmas below as the coarse ones are. -/
def fineCandidates (s : State) (lo : Nat) : Candidates Params.standard :=
  ⟨fun n => lo + n, fun n => Formula.corrFineAt s (lo + n), Formula.fineEnergyAt s lo⟩

theorem fineCandidates_lag (s : State) (lo n : Nat) : (fineCandidates s lo).lag n = lo + n := rfl

theorem fineCandidates_corr (s : State) (lo n : Nat) :
    (fineCandidates s lo).corr n = Formula.corrFineAt s (lo + n) := by rw [fineCandidates]

theorem fineCandidates_energy (s : State) (lo n : Nat) :
    (fineCandidates s lo).energy n = Formula.fineEnergyAt s lo n := by rw [fineCandidates]

theorem fineCandidates_score (s : State) (lo : Nat) :
    (fineCandidates s lo).score = Formula.fineScoreAt s lo := by
  funext n
  rw [Candidates.score, fineCandidates_corr, fineCandidates_energy, scoreOf_eq_scoreAt, Formula.fineScoreAt]

theorem fineSearch_searched {s : State} (hm : s.mem.wf = true) {lo hi : Nat} (hle : lo ≤ hi) (hhi : hi ≤ 80)
    (w : Work Params.standard) :
    ∃ n, Searched (fun x y => flt y x) (fineCandidates s lo) (hi - lo) n
      (fineSearch (referenceOf s) (targetOf s) lo hi w) := by
  have hlags : List.range' (lo + 1) (hi - lo) = (List.range (hi - lo)).map fun k => lo + (k + 1) := by
    rw [List.range'_eq_map_range]
    exact List.map_congr_left fun k _ => by omega
  have hcorr (k : Nat) (hk : k ≤ hi - lo) :
      corrFine (referenceOf s) (targetOf s) ((fineCandidates s lo).lag k) = (fineCandidates s lo).corr k := by
    rw [fineCandidates_lag, fineCandidates_corr, corrFine_eq hm (by omega)]
  have hstart := searchStart_searched (fun x y => flt y x) (fineCandidates s lo) { w with lo := lo, hi := hi }
  rw [← hcorr 0 (Nat.zero_le _), fineCandidates_energy, ← energyFineInit_eq hm (hle.trans hhi)] at hstart
  rw [fineSearch, hlags]
  exact searchFold_searched searchOrder_flt hcorr (fun k hk => energyFineStep_eq hm (by omega)) hstart

theorem fineSearch_lo_hi (ref tgt : List (FP P)) (lo hi : Nat) (w : Work P) :
    (fineSearch ref tgt lo hi w).lo = lo ∧ (fineSearch ref tgt lo hi w).hi = hi :=
  searchFold_lo_hi _ (corrFine ref tgt) (energyFineStep ref) (List.range' (lo + 1) (hi - lo))
    (searchStart { w with lo := lo, hi := hi } lo (corrFine ref tgt lo) (energyFineInit ref lo))

theorem exec_findpitchFine {s : State} (hm : s.mem.wf = true) (hb : s.work.bestLag ≤ 80) :
    exec .findpitchFine s = .next { s with
      work := fineSearch (referenceOf s) (targetOf s) (s.work.bestLag - 1) (min (s.work.bestLag + 1) 80) s.work } :=
  congrArg (finishMicro · s) (findpitchFine_inside hm hb)

/-- Settles O35, by the same invariant, `Wins`, for the strict comparison. -/
theorem fineSearchKeepsTheEarliestBest : Obligations.FineSearchKeepsTheEarliestBest := by
  intro s hm hb
  have hexec := exec_findpitchFine hm hb
  have hle : s.work.bestLag - 1 ≤ min (s.work.bestLag + 1) 80 := by omega
  have hhigh : min (s.work.bestLag + 1) 80 ≤ 80 := Nat.min_le_right ..
  generalize s.work.bestLag - 1 = lo at hexec hle ⊢
  generalize min (s.work.bestLag + 1) 80 = hi at hexec hle hhigh ⊢
  have hkeeps := fineSearch_keeps (referenceOf s) (targetOf s) lo hi s.work
  obtain ⟨hlo, hhi⟩ := fineSearch_lo_hi (referenceOf s) (targetOf s) lo hi s.work
  obtain ⟨n, henergy, hcorr, hscore, hj, hbestLag, hbestScore, hwins⟩ := fineSearch_searched hm hle hhigh s.work
  rw [fineCandidates_score] at hscore hbestScore hwins
  generalize fineSearch (referenceOf s) (targetOf s) lo hi s.work = w at *
  subst hlo hhi
  have hinside (m : Nat) : w.lo + m ≤ w.hi ↔ m ≤ w.hi - w.lo := by omega
  have hend : w.lo + (w.hi - w.lo) = w.hi := by omega
  rw [fineCandidates_energy] at henergy
  rw [fineCandidates_corr, hend] at hcorr
  rw [fineCandidates_lag, hend] at hj
  refine ⟨w, n, hexec, rfl, rfl, (hinside n).2 hwins.le, hbestLag, hbestScore, fun m hm hlast => ?_, fun hnum => ?_,
    henergy, hcorr, hscore, hj, hkeeps.obuf, hkeeps.tmp, hkeeps.synth, hkeeps.saveCursor, hkeeps.g⟩
  · exact hwins.later m hm ((hinside m).1 hlast)
  · exact hwins.earlier fun m hlast => hnum m ((hinside m).2 hlast)

/-! ### The two stages together (R118) -/

/-- Settles O36: the coarse lag is at most 80, so the fine stage stays inside `pitch_buffer` and its bounds. -/
theorem pitchIsAlwaysInRange : Obligations.PitchIsAlwaysInRange := by
  intro s hm
  have hcoarse := exec_findpitchCoarse hm
  obtain ⟨-, hlag⟩ := coarseSearch_bestLag (referenceOf s) (targetOf s) s.work
  generalize coarseSearch (referenceOf s) (targetOf s) s.work = w at hcoarse hlag
  have hfine := exec_findpitchFine (s := { s with work := w }) hm hlag
  obtain ⟨-, hle⟩ := fineSearch_bestLag (referenceOf { s with work := w }) (targetOf { s with work := w })
    (lo := w.bestLag - 1) (hi := min (w.bestLag + 1) 80) (by omega) w
  have hend := hle.trans (Nat.min_le_right (w.bestLag + 1) 80)
  exact ⟨_, _, hcoarse, hfine, hend, Nat.le_sub_of_add_le (Nat.add_le_add_left hend 40), Nat.sub_le 120 _⟩

end Sys2Proof.Machine

/-! SUPPORT. The micro-operations of the pitch buffer manager run by themselves, element by element (R131 to R143). -/

namespace Sys2Proof.Machine

/-! ### An array whose end is written over -/

section Splice

variable {α : Type} {xs ys : List α} {n : Nat}

theorem take_append_get_kept (hn : n ≤ xs.length) {i : Nat} (hi : i < n) : (xs.take n ++ ys)[i]? = xs[i]? := by
  rw [List.getElem?_append_left (by simp; omega), List.getElem?_take_of_lt hi]

theorem take_append_get_written (hn : n ≤ xs.length) (i : Nat) : (xs.take n ++ ys)[n + i]? = ys[i]? := by
  have hlen : (xs.take n).length = n := List.length_take_of_le hn
  rw [List.getElem?_append_right (by omega), hlen, Nat.add_sub_cancel_left]

theorem drop_take_get (lo : Nat) {i : Nat} (hi : i < n) : ((xs.drop lo).take n)[i]? = xs[lo + i]? := by
  rw [List.getElem?_take_of_lt hi, List.getElem?_drop]

end Splice

/-- An element of a cross-fade is the weighted sum of R94. -/
theorem blend_get {left right : List FP} {n i : Nat} {x y : FP} (hi : i < n) (hx : left[i]? = some x)
    (hy : right[i]? = some y) : (blend left right n)[i]? = some (Formula.blendAt n i x y) := by
  rw [blend, crossFade_get, List.getElem?_take_of_lt hi, List.getElem?_take_of_lt hi, hx, hy, Nat.zero_add]
  rfl

/-! ### WIDEN_HISTORY, the tail and its blend (R132, R138, R140, R141) -/

/-- Settles O33: all 390 elements are written over. -/
theorem widenHistoryRefreshesThePitchBuffer : Obligations.WidenHistoryRefreshesThePitchBuffer :=
  fun s hm => congrArg (finishMicro · s) (widenHistory_inside hm)

/-- Settles O38: the tail of `pitch_buffer` overlays the first elements of `saved_tail`. -/
theorem snapshotTailCopiesTheTail : Obligations.SnapshotTailCopiesTheTail := by
  rintro s p ov len start c ⟨hprimed, hwin⟩ hm hov
  obtain ⟨-, hpb, htl⟩ := (Memory.wf_iff _).1 hm
  have hexec : exec .snapshotTail s = _ := congrArg (finishMicro · s) (snapshotTail_inside hprimed hwin hm hov)
  have hlen : (((s.mem.pitchBuffer.drop (390 - ov)).take ov).map some).length = ov := by simp; omega
  have htail : ((s.mem.pitchBuffer.drop (390 - ov)).take ov).map some ++ s.mem.savedTail.drop ov =
      overlay (((s.mem.pitchBuffer.drop (390 - ov)).take ov).map some) s.mem.savedTail := by rw [overlay, hlen]
  rw [htail] at hexec
  refine ⟨_, hexec, ?_, fun i hi => ?_, fun i hi => ?_⟩
  · rw [length_overlay (by omega), htl]
  · rw [overlay_get, if_pos (by omega), List.getElem?_map, drop_take_get _ hi]
  · rw [overlay_get, if_neg (by omega)]

/-- Settles O39: the end of `pitch_buffer` is the cross-fade of `saved_tail` and the samples before the window. -/
theorem olaTailBlendsTheTail : Obligations.OlaTailBlendsTheTail := by
  rintro s p ov len start c ⟨hprimed, hwin⟩ hm hov hlow hhigh hwritten
  obtain ⟨-, hpb, htl⟩ := (Memory.wf_iff _).1 hm
  obtain ⟨left, hleft⟩ := tailWritten_of_get (by omega) hwritten
  have hlen : (blend left ((s.mem.pitchBuffer.drop (start - ov)).take ov) ov).length = ov := by
    have := congrArg List.length hleft
    exact length_blend (by simp at this; omega) (by simp; omega)
  refine ⟨_, congrArg (finishMicro · s) (olaTail_inside hprimed hwin hm hov hlow hhigh hleft), ?_, fun i hi => ?_,
    fun i x y hi hx hy => ?_⟩
  · rw [List.length_append, hlen, List.length_take]
    omega
  · exact take_append_get_kept (by omega) hi
  · have hx' : (left.map some)[i]? = some (some x) := by rw [← hleft, List.getElem?_take_of_lt hi, hx]
    rw [take_append_get_written (by omega)]
    exact blend_get hi (by simpa using hx') ((drop_take_get _ hi).trans hy)

/-- Settles O40: the end of `history` is the narrowed end of `pitch_buffer`. -/
theorem writebackTailNarrowsTheTail : Obligations.WritebackTailNarrowsTheTail := by
  rintro s p ov len start c ⟨hprimed, hwin⟩ hm hov
  obtain ⟨hh, hpb, -⟩ := (Memory.wf_iff _).1 hm
  have hexec : exec .writebackTail s = _ := congrArg (finishMicro · s) (writebackTail_inside hprimed hwin hm hov)
  rw [List.take_of_length_le (by simp; omega : (s.mem.pitchBuffer.drop (390 - ov)).length ≤ ov)] at hexec
  refine ⟨_, hexec, ?_, fun i hi => ?_, fun i hi => ?_⟩
  · simp; omega
  · exact take_append_get_kept (by omega) hi
  · obtain ⟨k, rfl⟩ := Nat.exists_eq_add_of_le hi
    rw [take_append_get_written (by omega), List.getElem?_map, List.getElem?_drop]

/-! ### The window (R136, R137, R134, R142) -/

/-- Settles O37: PRIME reads nothing, so it cannot fault. -/
theorem primeWritesTheWindow : Obligations.PrimeWritesTheWindow :=
  fun s period => congrArg (finishMicro · s) (prime_eq period s)

/-- Settles O42: the grown window has a start index, so the guard of GROW holds. -/
theorem growAddsOnePeriod : Obligations.GrowAddsOnePeriod := by
  rintro s p ov len start c ⟨hprimed, hwin⟩ hlen
  exact congrArg (finishMicro · s) (grow_inside hprimed hwin hlen)

/-- Settles O43: the period is not 0, so the remainder is not the free value of log 14. -/
theorem restoreCursorReducesTheSavedCursor : Obligations.RestoreCursorReducesTheSavedCursor := by
  rintro s p ov len start c ⟨hprimed, hwin⟩ hpos
  exact congrArg (finishMicro · s) (restoreCursor_inside hprimed hwin hpos)

@[simp] theorem Work.setBuffer_buffer {P : Params} (w : Work P) (dst : PullDst) :
    w.setBuffer dst (w.buffer dst) = w := by
  cases dst <;> rfl

/-- Settles O41: a pull of no sample leaves the cursor where it is inside the window, and any other one goes round. -/
theorem pullReadsTheWindowCircularly : Obligations.PullReadsTheWindowCircularly := by
  rintro s dst n p ov len start c ⟨hprimed, hwin⟩ hm hw hc hend hn
  rcases Nat.eq_zero_or_pos n with rfl | hpos
  · refine ⟨[], rfl, nofun, ?_⟩
    have hsame : s.win = { s.win with readCursor := some ((c + 0) % len) } := by
      rw [hwin, Nat.add_zero, Nat.mod_eq_of_lt hc]
    rw [← hsame, List.nil_append, List.drop_zero, Work.setBuffer_buffer]
    exact congrArg (finishMicro · s) (pull_zero dst s)
  · obtain ⟨vs, hlen, hget, hpull⟩ := pull_inside hprimed hwin hm hc hend hpos.ne'
      (hn.trans (Work.buffer_length hw dst).ge)
    rw [overlay, hlen] at hpull
    exact ⟨vs, hlen, hget, congrArg (finishMicro · s) hpull⟩

/-! ### COMMIT_AND_OUT (R131, R143) -/

/-- Settles O48: the delayed frame is read from the `history` that COMMIT leaves. -/
theorem commitAndOutShiftsTheHistory : Obligations.CommitAndOutShiftsTheHistory := by
  intro s hm _
  obtain ⟨hh, -, -⟩ := (Memory.wf_iff _).1 hm
  rw [← delayedFrame_commit hh]
  exact congrArg (finishMicro · s) (commitAndOut_eq s)

end Sys2Proof.Machine

/-! SUPPORT. The stream of frames without loss (R144): every ACCEPT is PASS, and the delayed frame starts with the last
30 samples of the frame before. -/

namespace Sys2Proof.Machine

/-- What the host presents for a trace of ACCEPTs (R74, R80). -/
theorem traceInputs_accepts (frames : List Block) :
    traceInputs (frames.map TraceLine.accept) = frames.map fun f => .command (commandWord 0 (packLanes f)) := by
  induction frames with
  | nil => rfl
  | cons f fs ih => exact congrArg (List.cons _) ih

/-- Outside a burst an ACCEPT is PASS: the frame is committed and put out (R166, R176). -/
theorem step_accept_pass {s : State} (hphase : s.phase = 0#4) (hf : s.fault = .none) (hc : s.erasureCount = 0)
    {f : Block} (hlen : f.length = 80) {rest : List HostInput}
    (hin : s.inbox = .command (commandWord 0 (packLanes f)) :: rest) :
    step s = .next (epilogue .pass 0 ((takeCommand s rest).setObuf f)) := by
  have hpass : acceptBranch (takeCommand s rest).erasureCount = .pass := if_pos hc
  calc step s
    _ = execAccept f (takeCommand s rest) := by rw [step_command hphase hin, decodeCommand_acceptWord hlen]; rfl
    _ = finishFrame .pass 0 (runAccept .pass ((takeCommand s rest).setObuf f)) (takeCommand s rest) := by
      rw [execAccept_running (s := takeCommand s rest) hf, hpass]
    _ = _ := rfl

/-- A step that answers adds its response to those of the steps after it. -/
theorem responses_succ {s t : State} (h : step s = .next t) (hv : t.rsp.valid = true) (n : Nat) :
    responses (n + 1) s = t.rsp :: responses n t := by
  rw [responses, h]
  simp only [hv, if_true, List.singleton_append]

/-- The delay of 30 samples, one frame at a time: 30 samples of the past and 50 of this frame go out, and this frame's
last 30 wait. -/
theorem delayed_frame_then_rest {past f : Block} {rest : List Sample} (hpast : past.length = 30)
    (hf : f.length = 80) (n : Nat) :
    (past ++ f.take 50) ++ (f.drop 50 ++ rest).take n = (past ++ (f ++ rest)).take (80 + n) := by
  have hout : (past ++ f.take 50).length = 80 := by simp; omega
  calc (past ++ f.take 50) ++ (f.drop 50 ++ rest).take n
    _ = ((past ++ f.take 50) ++ (f.drop 50 ++ rest)).take (80 + n) := by
      rw [← hout, List.take_length_add_append]
    _ = (past ++ (f ++ rest)).take (80 + n) := by
      rw [List.append_assoc past, ← List.append_assoc (f.take 50), List.take_append_drop]

/-- A stream of ACCEPTs outside a burst puts out the last 30 samples of `history` and then the input (R143, R144), and
the frames themselves on the raw bus. -/
theorem responses_accepts {frames : List Block} {s : State} (hi : Inv s) (hf : s.fault = .none)
    (hc : s.erasureCount = 0) (hlen : ∀ f ∈ frames, f.length = 80)
    (hin : s.inbox = frames.map fun f => .command (commandWord 0 (packLanes f))) :
    ((responses frames.length s).map fun r => r.frame).flatten =
        (s.mem.history.drop 360 ++ frames.flatten).take (80 * frames.length) ∧
      (responses frames.length s).map (fun r => r.raw) = frames := by
  induction frames generalizing s with
  | nil => exact ⟨rfl, rfl⟩
  | cons f fs ih =>
    obtain ⟨hh, -, -⟩ := (Memory.wf_iff _).1 hi.memory
    have hlf : f.length = 80 := hlen f List.mem_cons_self
    have hstep := step_accept_pass hi.idle hf hc hlf hin
    have hpast : (s.mem.history.drop 80 ++ f).drop 360 = f.drop 50 := by
      rw [List.drop_append, List.drop_drop, List.drop_eq_nil_of_le (by omega), List.nil_append, List.length_drop, hh]
    obtain ⟨hframes, hraws⟩ := ih (everyStepKeepsTheInvariant _ _ hi hstep) hf rfl
      (fun g hg => hlen g (List.mem_cons_of_mem _ hg)) rfl
    rw [epilogue_mem] at hframes
    rw [List.length_cons, responses_succ hstep rfl, List.map_cons, List.map_cons, hraws, List.flatten_cons, hframes]
    refine ⟨?_, rfl⟩
    rw [epilogue_rsp_frame, setObuf_mem, takeCommand_mem, setObuf_work, delayedFrame_commit hh, hpast,
      delayed_frame_then_rest (by simp; omega) hlf, List.flatten_cons, Nat.mul_succ, Nat.add_comm 80]

/-- Settles O55: at reset the 30 samples that wait are zeros. -/
theorem delayIsExactlyThirtySamples : Obligations.DelayIsExactlyThirtySamples :=
  fun frames hlen => responses_accepts (afterRst_inv State.reset _) rfl rfl hlen (traceInputs_accepts frames)

end Sys2Proof.Machine

/-! SUPPORT. No step of a block between commands raises an `InvariantFault` (R139, R204): a branch does not write the
`fault` field, and the branches that dispatch chooses do not fault. -/

namespace Sys2Proof.Machine

variable {P : Params} {s t : StateOf P}

/-! ### What a branch can write -/

/-- The parts of the state that the branches of R166 write before their epilogue: the arrays, the window registers,
`primed` and the working registers (R170 to R177). -/
inductive BranchWrites (s : StateOf P) : StateOf P → Prop
  | intro (mem : Memory P) (win : Window) (primed : Bool) (work : Work P) :
      BranchWrites s { s with mem := mem, win := win, primed := primed, work := work }

theorem BranchWrites.trans {u : StateOf P} (h : BranchWrites s t) (h' : BranchWrites t u) : BranchWrites s u := by
  cases h
  cases h'
  exact ⟨_, _, _, _⟩

theorem BranchWrites.fault (h : BranchWrites s t) : t.fault = s.fault := by
  cases h
  rfl

/-- An operation from `s` that, when it goes on, writes what a branch can write. -/
def StaysInBranch (s : StateOf P) (r : Except Violation (StateOf P)) : Prop := ∀ t, r = .ok t → BranchWrites s t

theorem StaysInBranch.ok (h : BranchWrites s t) : StaysInBranch s (.ok t) := by
  rintro u ⟨⟩
  exact h

theorem StaysInBranch.error (e : Violation) : StaysInBranch s (.error e) := by
  intro t ht
  cases ht

/-- A read before the rest changes nothing. -/
theorem StaysInBranch.read {α : Type} {x : Except Violation α} {f : α → Except Violation (StateOf P)}
    (hf : ∀ a, StaysInBranch s (f a)) : StaysInBranch s (x >>= f) := by
  intro t ht
  obtain ⟨a, -, ha⟩ := Except.bind_ok_iff.1 ht
  exact hf a t ha

/-- One operation, then another. -/
theorem StaysInBranch.seq {x : Except Violation (StateOf P)} {f : StateOf P → Except Violation (StateOf P)}
    (hx : StaysInBranch s x) (hf : ∀ u, StaysInBranch u (f u)) : StaysInBranch s (x >>= f) := by
  intro t ht
  obtain ⟨u, hu, hut⟩ := Except.bind_ok_iff.1 ht
  exact (hx u hu).trans (hf u t hut)

/-! ### The micro-operations of a branch -/

theorem writeBuffer_staysInBranch (dst : PullDst) (vs : Block) (s : StateOf P) :
    StaysInBranch s (writeBuffer dst vs s) := by
  intro t ht
  obtain ⟨-, rfl⟩ := writeBuffer_ok_iff.1 ht
  exact ⟨_, _, _, _⟩

theorem widenHistory_staysInBranch (s : StateOf P) : StaysInBranch s (widenHistory s) :=
  .read fun _ => .read fun _ => .ok ⟨_, _, _, _⟩

theorem findpitchCoarse_staysInBranch (s : StateOf P) : StaysInBranch s (findpitchCoarse s) :=
  .read fun _ => .read fun _ => .ok ⟨_, _, _, _⟩

theorem findpitchFine_staysInBranch (s : StateOf P) : StaysInBranch s (findpitchFine s) :=
  .read fun _ => .read fun _ => .read fun _ => .ok ⟨_, _, _, _⟩

theorem prime_staysInBranch (period : Nat) (s : StateOf P) : StaysInBranch s (prime period s) := .ok ⟨_, _, _, _⟩

theorem snapshotTail_staysInBranch (s : StateOf P) : StaysInBranch s (snapshotTail s) :=
  .read fun _ => .read fun _ => .read fun _ => .ok ⟨_, _, _, _⟩

theorem olaTail_staysInBranch (s : StateOf P) : StaysInBranch s (olaTail s) :=
  .read fun _ => .read fun _ => .read fun _ => .read fun _ => .read fun _ => .read fun _ => .ok ⟨_, _, _, _⟩

theorem writebackTail_staysInBranch (s : StateOf P) : StaysInBranch s (writebackTail s) :=
  .read fun _ => .read fun _ => .read fun _ => .ok ⟨_, _, _, _⟩

theorem pull_staysInBranch (dst : PullDst) (n : Nat) (s : StateOf P) : StaysInBranch s (pull dst n s) := by
  unfold pull
  split
  · exact .ok ⟨_, _, _, _⟩
  · exact .read fun _ => .read fun _ => .read fun _ => .read fun r =>
      (writeBuffer_staysInBranch dst r.1 s).seq fun _ => .ok ⟨_, _, _, _⟩

theorem grow_staysInBranch (s : StateOf P) : StaysInBranch s (grow s) := by
  refine .read fun len => .read fun period => ?_
  split
  · exact .ok ⟨_, _, _, _⟩
  · exact .error _

theorem saveCursor_staysInBranch (s : StateOf P) : StaysInBranch s (saveCursor s) :=
  .read fun _ => .ok ⟨_, _, _, _⟩

theorem restoreCursor_staysInBranch (s : StateOf P) : StaysInBranch s (restoreCursor s) :=
  .read fun _ => .ok ⟨_, _, _, _⟩

theorem olaFrame_staysInBranch (s : StateOf P) : StaysInBranch s (olaFrame s) :=
  .read fun _ => .read fun _ => .read fun _ => writeBuffer_staysInBranch _ _ s

theorem scale_staysInBranch (s : StateOf P) : StaysInBranch s (scale s) := .ok ⟨_, _, _, _⟩

theorem reconcileBlend_staysInBranch (n : Nat) (s : StateOf P) : StaysInBranch s (reconcileBlend n s) :=
  .read fun _ => .read fun _ => writeBuffer_staysInBranch _ _ s

/-! ### The branches -/

theorem onset_staysInBranch (s : StateOf P) : StaysInBranch s (onset s) :=
  (widenHistory_staysInBranch s).seq fun s => (findpitchCoarse_staysInBranch s).seq fun s =>
    (findpitchFine_staysInBranch s).seq fun s => (prime_staysInBranch _ s).seq fun s =>
      (snapshotTail_staysInBranch s).seq fun s => (olaTail_staysInBranch s).seq fun s =>
        (writebackTail_staysInBranch s).seq fun s => pull_staysInBranch _ _ s

theorem extend_staysInBranch (s : StateOf P) : StaysInBranch s (extend s) :=
  (saveCursor_staysInBranch s).seq fun s => .read fun _ => (pull_staysInBranch _ _ s).seq fun s =>
    (grow_staysInBranch s).seq fun s => (olaTail_staysInBranch s).seq fun s =>
      (restoreCursor_staysInBranch s).seq fun s => (pull_staysInBranch _ _ s).seq fun s =>
        (olaFrame_staysInBranch s).seq scale_staysInBranch

theorem runConceal_staysInBranch (b : Branch) (s : StateOf P) : StaysInBranch s (runConceal b s) := by
  cases b with
  | onset => exact onset_staysInBranch s
  | extend => exact extend_staysInBranch s
  | steady => exact (pull_staysInBranch _ _ s).seq scale_staysInBranch
  | mute | pass | reconcile | construct | none => exact .ok ⟨_, _, _, _⟩

theorem runAccept_staysInBranch (b : Branch) (s : StateOf P) : StaysInBranch s (runAccept b s) := by
  cases b with
  | reconcile => exact .read fun _ => (pull_staysInBranch _ _ s).seq fun s => reconcileBlend_staysInBranch _ s
  | pass | onset | extend | steady | mute | construct | none => exact .ok ⟨_, _, _, _⟩

/-! ### The commands and the step -/

/-- The end of a frame command whose branch did not fault: the epilogue does not write `fault` either. -/
theorem finishFrame_fault {r : Except Violation (StateOf P)} {u : StateOf P} (hu : r = .ok u) {b : Branch} {count : Nat}
    (h : finishFrame b count r s = .next t) : t.fault = u.fault := by
  subst hu
  cases h
  rfl

/-- No command raises an `InvariantFault` on a block with the invariant: a frame command's branch ends (R139), and the
others run no branch. -/
theorem exec_command_no_invariantFault {s t : State} {w : CommandWord} (hi : Inv s) (hf : s.fault ≠ .invariant)
    (h : exec (decodeCommand w) s = .next t) : t.fault ≠ .invariant := by
  by_cases hnone : s.fault = .none
  · rcases decodeCommand_cases w with ⟨frame, hw, hframe⟩ | hw | hw | hw <;> rw [hw] at h
    · obtain ⟨u, hu, -⟩ := acceptBranch_runs hi hnone hframe
      rw [finishFrame_fault hu ((execAccept_running hnone frame).symm.trans h),
        (runAccept_staysInBranch _ _ u hu).fault]
      exact hf
    · obtain ⟨u, hu, -⟩ := concealBranch_runs hi hnone
      rw [finishFrame_fault hu ((execConceal_running hnone).symm.trans h), (runConceal_staysInBranch _ _ u hu).fault]
      exact hf
    · cases h
      nofun
    · cases (execReserved_running hnone).symm.trans h
      nofun
  · rcases exec_command_faulted hnone h with ⟨-, rfl⟩ | rfl
    · nofun
    · exact hf

/-- An IDLE sequencer holds a word that decodes, so no step is refused. -/
theorem step_idle_goes_on {s : State} (hphase : s.phase = 0#4) (hoperand : s.operand = 0#9) :
    ∃ t, step s = .next t := by
  rcases fetch_cases s with ⟨rest, hfetch⟩ | ⟨w, rest, -, hin, -⟩ | hfetch
  · exact ⟨_, by rw [step, stepBy, hfetch]⟩
  · rw [step_command hphase hin]
    exact exec_goes_on _ _
  · have hword : sequencerWord s = 0#9 ++ 0#4 := by rw [sequencerWord, hphase, hoperand]
    exact ⟨takeMicro s, by rw [step, stepBy, hfetch, hword]; rfl⟩

theorem step_no_invariantFault {s : State} (hi : Inv s) (hf : s.fault ≠ .invariant) :
    ∃ t, step s = .next t ∧ t.fault ≠ .invariant := by
  obtain ⟨t, ht⟩ := step_idle_goes_on hi.idle hi.noOperand
  refine ⟨t, ht, ?_⟩
  rcases step_idle_cases hi.idle hi.noOperand ht with ⟨rest, -, rfl⟩ | ⟨w, rest, -, hexec⟩ | ⟨-, rfl⟩
  · nofun
  · exact exec_command_no_invariantFault (takeCommand_inv hi rest) hf hexec
  · exact hf

/-- Any number of steps goes on without an `InvariantFault`. -/
theorem runSteps_no_invariantFault (n : Nat) {s : State} (hi : Inv s) (hf : s.fault ≠ .invariant) :
    ∃ t, runSteps n s = .next t ∧ t.fault ≠ .invariant := by
  induction n generalizing s with
  | zero => exact ⟨s, rfl, hf⟩
  | succ n ih =>
    obtain ⟨t, ht, hft⟩ := step_no_invariantFault hi hf
    rw [runSteps, ht]
    exact ih (everyStepKeepsTheInvariant s t hi ht) hft

/-- Settles O14: the invariant carries through every step (O13), and the reset state has it with any host inputs. -/
theorem noStepRaisesInvariantFault : Obligations.NoStepRaisesInvariantFault :=
  ⟨fun _ => step_no_invariantFault,
    fun inputs n => runSteps_no_invariantFault n (afterRst_inv State.reset inputs) nofun⟩

end Sys2Proof.Machine

/-! SUPPORT. Rounding to nearest keeps the order of the numbers it rounds, so a rounded number does not leave an
interval whose ends are held exactly (R10, R12). -/

namespace Sys2Proof.Machine.Fp

variable {F : FpFormat}

/-! ### Rounding keeps the order -/

/-- Rounding to a multiple of `d`, ties to even, keeps the order. -/
theorem roundedQuotient_mono {p p' : Nat} (d : Nat) (h : p ≤ p') :
    p / d + (if d < 2 * (p % d) ∨ (2 * (p % d) = d ∧ p / d % 2 = 1) then 1 else 0) ≤
      p' / d + (if d < 2 * (p' % d) ∨ (2 * (p' % d) = d ∧ p' / d % 2 = 1) then 1 else 0) := by
  rcases (Nat.div_le_div_right (c := d) h).lt_or_eq with hlt | heq
  · split <;> omega
  · have hrem : p % d ≤ p' % d := by
      have hp := Nat.div_add_mod p d
      have hp' := Nat.div_add_mod p' d
      rw [heq] at hp
      omega
    rw [heq]
    split <;> split <;> omega

/-- The exponent field a number of at least some size rounds to. -/
theorem le_roundBits {p q e : Nat} (h : 2 ^ (F.fracBits + e) ≤ p / q) : (e + 1) * 2 ^ F.fracBits ≤ roundBits F p q := by
  have hpos : p / q ≠ 0 := (Nat.two_pow_pos _).trans_le h |>.ne'
  obtain ⟨k, hk⟩ := Nat.exists_eq_add_of_le ((Nat.le_log2 hpos).2 h)
  have hexp : (p / q).log2 - F.fracBits = e + k := by omega
  have hsig : 2 ^ F.fracBits ≤ p / (q * 2 ^ (e + k)) := by
    rw [← Nat.div_div_eq_div_mul, Nat.le_div_iff_mul_le (Nat.two_pow_pos _), ← Nat.pow_add, ← Nat.add_assoc, ← hk]
    exact Nat.log2_self_le hpos
  have hmul : e * 2 ^ F.fracBits ≤ (e + k) * 2 ^ F.fracBits := Nat.mul_le_mul_right _ (Nat.le_add_right ..)
  rw [roundBits, hexp, Nat.add_mul, Nat.one_mul]
  exact (Nat.add_le_add hmul hsig).trans (Nat.le_add_right ..)

/-- The bits of rounded numbers are in the order of the numbers: in one binade they count the same multiples, and a
higher binade starts where the bits of a lower one can at most end. -/
theorem roundBits_mono {p p' : Nat} (q : Nat) (h : p ≤ p') : roundBits F p q ≤ roundBits F p' q := by
  have hquot : p / q ≤ p' / q := Nat.div_le_div_right h
  have hexp : (p / q).log2 - F.fracBits ≤ (p' / q).log2 - F.fracBits := by
    rw [Nat.log2_eq_log_two, Nat.log2_eq_log_two]
    exact Nat.sub_le_sub_right (Nat.log_mono_right hquot) _
  rcases hexp.lt_or_eq with hlt | heq
  · have hbelow : p / q < 2 ^ (F.fracBits + 1 + ((p / q).log2 - F.fracBits)) :=
      Nat.lt_log2_self.trans_le (Nat.pow_le_pow_right (by decide) (by omega))
    have hpos : p' / q ≠ 0 := fun h0 => by simp [h0] at hlt
    have habove : 2 ^ (F.fracBits + ((p' / q).log2 - F.fracBits)) ≤ p' / q := by
      rw [Nat.add_sub_cancel' (by omega)]
      exact Nat.log2_self_le hpos
    calc roundBits F p q
      _ ≤ ((p / q).log2 - F.fracBits + 2) * 2 ^ F.fracBits := roundBits_le hbelow
      _ ≤ ((p' / q).log2 - F.fracBits + 1) * 2 ^ F.fracBits := Nat.mul_le_mul_right _ (by omega)
      _ ≤ roundBits F p' q := le_roundBits habove
  · simp only [roundBits, heq, Nat.add_assoc]
    exact Nat.add_le_add_left (roundedQuotient_mono _ h) _

/-! ### The number a rounding gives -/

/-- The number, in units, that `p` units round to. -/
def rounded (F : FpFormat) (p : Nat) : Nat := magnitude F (roundBits F p 1)

theorem rounded_mono {p p' : Nat} (h : p ≤ p') : rounded F p ≤ rounded F p' :=
  (magnitude_strictMono F).monotone (roundBits_mono 1 h)

/-- A number that fits the significand is held exactly. -/
theorem rounded_exact {n u : Nat} (hn : n < 2 ^ (F.fracBits + 1)) (hu : F.fracBits ≤ u) :
    rounded F (n * 2 ^ u) = n * 2 ^ u := by
  by_cases h0 : n = 0
  · subst h0
    simp [rounded, roundBits, magnitude]
  · exact magnitude_roundBits_exact h0 hn hu

theorem le_rounded {n u p : Nat} (hn : n < 2 ^ (F.fracBits + 1)) (hu : F.fracBits ≤ u) (h : n * 2 ^ u ≤ p) :
    n * 2 ^ u ≤ rounded F p :=
  (rounded_exact hn hu).symm.trans_le (rounded_mono h)

theorem rounded_le {n u p : Nat} (hn : n < 2 ^ (F.fracBits + 1)) (hu : F.fracBits ≤ u) (h : p ≤ n * 2 ^ u) :
    rounded F p ≤ n * 2 ^ u :=
  (rounded_mono h).trans_eq (rounded_exact hn hu)

/-- The rounding error is at most any step that is coarse enough for the multiples around `p` to be held exactly. -/
theorem rounded_near {p u : Nat} (hp : p / 2 ^ u + 1 < 2 ^ (F.fracBits + 1)) (hu : F.fracBits ≤ u) :
    p ≤ rounded F p + 2 ^ u ∧ rounded F p ≤ p + 2 ^ u := by
  have hfloor : p / 2 ^ u * 2 ^ u ≤ p := Nat.div_mul_le_self ..
  have hceil : p < (p / 2 ^ u + 1) * 2 ^ u := Nat.lt_mul_of_div_lt (Nat.lt_succ_self _) (Nat.two_pow_pos u)
  have hlow := le_rounded (Nat.lt_of_succ_lt hp) hu hfloor
  have hhigh := rounded_le hp hu hceil.le
  rw [Nat.succ_mul] at hceil hhigh
  exact ⟨by omega, by omega⟩

theorem decode_ofRatio {neg : Bool} {p : Nat} (h : roundBits F p 1 < infBits F) :
    decode (ofRatio F neg p 1) = .fin neg (rounded F p) := by
  rw [ofRatio, Nat.min_eq_left h.le, decode_fin_iff, magBits_pack h.le, signBit_pack h.le]
  exact ⟨h, rfl, rfl⟩

end Sys2Proof.Machine.Fp

/-! SUPPORT. The gain ramp (R151, R152, R155): each gain lies between two straight lines, since every subtraction
rounds once, and a product with a gain of at most one does not grow. -/

namespace Sys2Proof.Machine

/-! ### Operations on numbers of the default format -/

/-- The number of units that `p` units round to in the default format. -/
abbrev roundedUnits (p : Nat) : Nat := Fp.rounded Params.standard.fpFormat p

theorem decode_ofRatio_one {neg : Bool} {p : Nat} (h : p < 2 ^ 250) :
    Fp.decode (Fp.ofRatio Params.standard.fpFormat neg p 1) = .fin neg (roundedUnits p) :=
  Fp.decode_ofRatio ((Fp.roundBits_le (F := Params.standard.fpFormat) (c := 226) (by rwa [Nat.div_one])).trans_lt
    (by decide))

/-- A smaller positive number taken from a larger one. -/
theorem decode_fsub {x y : FP} {mx my : Nat} (hx : Fp.decode x = .fin false mx) (hy : Fp.decode y = .fin false my)
    (h : my < mx) (hmx : mx < 2 ^ 250) : Fp.decode (fsub x y) = .fin false (roundedUnits (mx - my)) := by
  have hvalue : fsub x y = Fp.ofRatio Params.standard.fpFormat false (mx - my) 1 := by
    simp only [fsub, Fp.sub, Fp.addWith, hx, hy, Fp.addMagnitudes]
    rw [if_neg (by decide), if_neg h.ne', if_pos h]
  rw [hvalue, decode_ofRatio_one (by omega)]

/-- A larger positive number taken from a smaller one. -/
theorem decode_fsub_neg {x y : FP} {mx my : Nat} (hx : Fp.decode x = .fin false mx)
    (hy : Fp.decode y = .fin false my) (h : mx < my) (hmy : my < 2 ^ 250) :
    Fp.decode (fsub x y) = .fin true (roundedUnits (my - mx)) := by
  have hvalue : fsub x y = Fp.ofRatio Params.standard.fpFormat true (my - mx) 1 := by
    simp only [fsub, Fp.sub, Fp.addWith, hx, hy, Fp.addMagnitudes]
    rw [if_neg (by decide), if_neg h.ne, if_neg h.not_gt]
    rfl
  rw [hvalue, decode_ofRatio_one (by omega)]

/-- An integer times a positive number of at most one. -/
theorem decode_fmul_fp {k : Int} {g : FP} {mag : Nat} (hk : k.natAbs < 2 ^ 24) (hg : Fp.decode g = .fin false mag)
    (hmag : mag ≤ 2 ^ 149) : Fp.decode (fmul (fp k) g) = .fin (decide (k < 0)) (roundedUnits (k.natAbs * mag)) := by
  have hcancel : k.natAbs * 2 ^ 149 * mag = 2 ^ 149 * (k.natAbs * mag) := by rw [mul_comm k.natAbs, mul_assoc]
  have hsize : k.natAbs * mag < 2 ^ 250 :=
    (Nat.mul_le_mul hk.le hmag).trans_lt (by decide)
  rw [fmul_of_decode_fin (decode_fp hk) hg, Bool.xor_false, hcancel, Fp.ofRatio,
    Fp.roundBits_mul_cancel _ (Nat.two_pow_pos 149), ← Fp.ofRatio, decode_ofRatio_one hsize]

/-- A product with a number of at most one is not larger than the integer. -/
theorem roundedUnits_mul_le {n mag : Nat} (hn : n < 2 ^ 24) (hmag : mag ≤ 2 ^ 149) :
    roundedUnits (n * mag) ≤ n * 2 ^ 149 :=
  Fp.rounded_le hn (by decide) (Nat.mul_le_mul_left n hmag)

theorem flt_of_decode_fin {x y : FP} {mx my : Nat} (hx : Fp.decode x = .fin false mx)
    (hy : Fp.decode y = .fin false my) : flt x y = decide (mx < my) := by
  obtain ⟨-, hsx, rfl⟩ := Fp.decode_fin_iff.1 hx
  obtain ⟨-, hsy, rfl⟩ := Fp.decode_fin_iff.1 hy
  simp only [flt, Fp.lt, Fp.isNaN_of_decode_fin hx, Fp.isNaN_of_decode_fin hy, Fp.key, hsx, hsy, Bool.not_false,
    Bool.true_and, Bool.false_eq_true, if_false, Nat.cast_lt, (Fp.magnitude_strictMono _).lt_iff_lt]

theorem flt_fp_zero_of_decode_neg {x : FP} {mag : Nat} (hx : Fp.decode x = .fin true mag) (hmag : 0 < mag) :
    flt x (fp 0) = true := by
  obtain ⟨-, hsign, rfl⟩ := Fp.decode_fin_iff.1 hx
  have hzero : Fp.isNaN (fp 0 : FP) = false ∧ Fp.key (fp 0 : FP) = 0 := by decide
  have hbits : Fp.magBits x ≠ 0 := fun h => by rw [h] at hmag; exact absurd hmag (by decide)
  refine flt_iff.2 ⟨Fp.isNaN_of_decode_fin hx, hzero.1, ?_⟩
  rw [hzero.2, Fp.key, if_pos hsign]
  omega

/-! ### Positive numbers between two bounds -/

/-- A positive number of at least `lo` and at most `hi` times `2 ^ 117` units: the steps in which `ATTENINCR` and every
start-of-frame gain are whole numbers, and in which 1.0 is `2 ^ 32`. -/
def Between (lo hi : Nat) (x : FP) : Prop :=
  ∃ mag, Fp.decode x = .fin false mag ∧ lo * 2 ^ 117 ≤ mag ∧ mag ≤ hi * 2 ^ 117

theorem flt_of_between {x y : FP} {lo hi lo' hi' : Nat} (hx : Between lo hi x) (hy : Between lo' hi' y)
    (h : hi < lo') : flt x y = true := by
  obtain ⟨mx, hdx, -, hhigh⟩ := hx
  obtain ⟨my, hdy, hlow, -⟩ := hy
  rw [flt_of_decode_fin hdx hdy, decide_eq_true_eq]
  omega

theorem fge_of_flt {x y : FP} (h : flt y x = true) : fge x y = true := by
  obtain ⟨hy, hx, hlt⟩ := flt_iff.1 h
  exact fge_iff.2 ⟨hx, hy, hlt.le⟩

theorem decode_attenIncr : Fp.decode (attenIncr : FP) = .fin false (10737418 * 2 ^ 117) := by
  rw [attenIncr_bits]
  decide

/-- One decrement of a gain of at most one: the rounding moves the result by at most 512 steps. -/
theorem decode_fsub_attenIncr {x : FP} {mag : Nat} (hx : Fp.decode x = .fin false mag)
    (hlow : 10737418 * 2 ^ 117 < mag) (hhigh : mag ≤ 2 ^ 149) :
    ∃ mag', Fp.decode (fsub x attenIncr) = .fin false mag' ∧ mag ≤ mag' + 10737930 * 2 ^ 117 ∧
      mag' + 10736906 * 2 ^ 117 ≤ mag := by
  have hstep : (mag - 10737418 * 2 ^ 117) / 2 ^ 126 + 1 < 2 ^ 24 := by omega
  have hnear : mag - 10737418 * 2 ^ 117 ≤ roundedUnits (mag - 10737418 * 2 ^ 117) + 2 ^ 126 ∧
      roundedUnits (mag - 10737418 * 2 ^ 117) ≤ mag - 10737418 * 2 ^ 117 + 2 ^ 126 :=
    Fp.rounded_near hstep (by decide)
  exact ⟨_, decode_fsub hx decode_attenIncr hlow (by omega), by omega, by omega⟩

theorem Between.fsub_attenIncr {x : FP} {lo hi : Nat} (h : Between lo hi x) (hlow : 10737418 < lo)
    (hhigh : hi ≤ 2 ^ 32) :
    Between (lo - 10737930) (hi - 10736906) (fsub x attenIncr) ∧ flt (fsub x attenIncr) x = true := by
  obtain ⟨mag, hmag, hlo, hhi⟩ := h
  obtain ⟨mag', hmag', hdown, hup⟩ := decode_fsub_attenIncr hmag (by omega) (by omega)
  refine ⟨⟨mag', hmag', ?_, ?_⟩, ?_⟩
  · rw [Nat.sub_mul]; omega
  · rw [Nat.sub_mul]; omega
  · rw [flt_of_decode_fin hmag' hmag, decide_eq_true_eq]; omega

/-! ### Start-of-frame gains (R151) -/

theorem gain0_eq {n : Nat} (h : 1 ≤ n) : (gain0 n : FP) = fsub (fp 1) (fmul (fp (n - 1 : Nat)) attenFac) := by
  rw [gain0, Nat.cast_sub h, Nat.cast_one]

theorem gain0_bits :
    [1, 2, 3, 4, 5, 6, 7, 8].map (gain0 (F := Params.standard.fpFormat)) =
      [0x3F800000#32, 0x3F4CCCCD#32, 0x3F19999A#32, 0x3ECCCCCC#32, 0x3E4CCCCC#32, 0x00000000#32, 0xBE4CCCD0#32,
        0xBECCCCCC#32] := by
  decide +kernel

/-- The start-of-frame gains in the steps of `Between`. -/
theorem decode_gain0 :
    Fp.decode (gain0 1 : FP) = .fin false (4294967296 * 2 ^ 117) ∧
      Fp.decode (gain0 2 : FP) = .fin false (3435973888 * 2 ^ 117) ∧
      Fp.decode (gain0 3 : FP) = .fin false (2576980480 * 2 ^ 117) ∧
      Fp.decode (gain0 4 : FP) = .fin false (1717986816 * 2 ^ 117) ∧
      Fp.decode (gain0 5 : FP) = .fin false (858993408 * 2 ^ 117) := by
  decide +kernel

/-- From 7 on the decay, which is at least six times `ATTENFAC`, is more than one. -/
theorem gain0_neg {n : Nat} (h : 7 ≤ n) (hn : n ≤ 2 ^ 24) : flt (gain0 n : FP) (fp 0) = true := by
  have hone : Fp.decode (fp 1 : FP) = .fin false (2 ^ 149) := by decide
  have hfac : Fp.decode (attenFac : FP) = .fin false (13421773 * 2 ^ 123) := by decide
  have hk : ((n - 1 : Nat) : Int).natAbs < 2 ^ 24 := by rw [Int.natAbs_natCast]; omega
  have hprod := decode_fmul_fp hk hfac (by decide)
  rw [Int.natAbs_natCast] at hk hprod
  have hlow : 9 * 2 ^ 146 ≤ roundedUnits ((n - 1) * (13421773 * 2 ^ 123)) :=
    Fp.le_rounded (F := Params.standard.fpFormat) (by decide) (by decide) (by omega)
  have hhigh : roundedUnits ((n - 1) * (13421773 * 2 ^ 123)) ≤ (n - 1) * 2 ^ 149 :=
    roundedUnits_mul_le hk (by decide)
  rw [decide_eq_false (by omega)] at hprod
  have hgain := decode_fsub_neg hone hprod (by omega) (by omega)
  have hpos : 1 * 2 ^ 146 ≤ roundedUnits (roundedUnits ((n - 1) * (13421773 * 2 ^ 123)) - 2 ^ 149) :=
    Fp.le_rounded (F := Params.standard.fpFormat) (by decide) (by decide) (by omega)
  rw [gain0_eq (by omega)]
  exact flt_fp_zero_of_decode_neg hgain (by omega)

/-! ### The ramp (R152, R155) -/

/-- The line the gain does not fall below, in the steps of `Between`: down a fifth of 1.0 per erasure number and
`ATTENINCR`, 10737418 steps, per sample, each with what a rounding can add to the fall. -/
def rampLow (n i : Nat) : Nat := 2 ^ 32 - (n - 1) * 858993500 - i * 10737930

/-- The line the gain does not rise above: the same falls, each less what a rounding can take from it. -/
def rampHigh (n i : Nat) : Nat := 2 ^ 32 - (n - 1) * 858993400 - i * 10736906

theorem rampLow_succ (n i : Nat) : rampLow n (i + 1) = rampLow n i - 10737930 := by
  rw [rampLow, rampLow, Nat.succ_mul, ← Nat.sub_sub]

theorem rampHigh_succ (n i : Nat) : rampHigh n (i + 1) = rampHigh n i - 10736906 := by
  rw [rampHigh, rampHigh, Nat.succ_mul, ← Nat.sub_sub]

/-- A frame does not use up the gain: the last sample, too, has most of a decrement left. -/
theorem rampLow_ge {n i : Nat} (hn : n ≤ 5) (hi : i < 80) : 10696826 ≤ rampLow n i := by
  rw [rampLow]; omega

/-- Before the last sample of erasure number 5, more than its gain is left. -/
theorem rampLow_gt {n i : Nat} (hn : n ≤ 5) (hi : i < 80) (hlast : n ≠ 5 ∨ i ≠ 79) : 10737882 < rampLow n i := by
  rw [rampLow]; omega

/-- The gain is at most 1.0. -/
theorem rampHigh_le (n i : Nat) : rampHigh n i ≤ 2 ^ 32 := by
  rw [rampHigh]; omega

/-- The ramps of successive erasure numbers do not meet. -/
theorem rampHigh_lt_rampLow {n i : Nat} (h : 1 ≤ n) (hn : n < 5) (hi : i < 80) : rampHigh (n + 1) i < rampLow n i := by
  rw [rampHigh, rampLow]; omega

theorem gain0_between {n : Nat} (h : 1 ≤ n) (hn : n ≤ 5) : Between (rampLow n 0) (rampHigh n 0) (gain0 n) := by
  obtain ⟨h1, h2, h3, h4, h5⟩ := decode_gain0
  interval_cases n
  · exact ⟨_, h1, by decide, by decide⟩
  · exact ⟨_, h2, by decide, by decide⟩
  · exact ⟨_, h3, by decide, by decide⟩
  · exact ⟨_, h4, by decide, by decide⟩
  · exact ⟨_, h5, by decide, by decide⟩

@[simp] theorem gainAt_zero {F : FpFormat} (n : Nat) : (gainAt n 0 : FpOf F) = gain0 n := rfl

/-- Between two lines through the start-of-frame gain, whose slopes differ from `ATTENINCR` by the rounding of one
subtraction. -/
theorem gainAt_between {n i : Nat} (h : 1 ≤ n) (hn : n ≤ 5) (hi : i < 80) :
    Between (rampLow n i) (rampHigh n i) (gainAt n i) := by
  induction i with
  | zero => simpa using gain0_between h hn
  | succ i ih =>
    have hleft : 10737882 < rampLow n i := rampLow_gt hn (by omega) (by omega)
    rw [rampLow_succ, rampHigh_succ, gainAt_succ]
    exact ((ih (by omega)).fsub_attenIncr (by omega) (rampHigh_le n i)).1

theorem gainAt_positive {n i : Nat} (h : 1 ≤ n) (hn : n ≤ 5) (hi : i < 80) : flt (fp 0 : FP) (gainAt n i) = true :=
  flt_of_between (lo := 0) (hi := 0) ⟨0, by decide, by decide, by decide⟩ (gainAt_between h hn hi)
    (Nat.lt_of_lt_of_le (by decide) (rampLow_ge hn hi))

theorem gainAt_last_bits :
    [1, 2, 3, 4, 5].map (fun n => (gainAt n 79 : FP)) =
      [0x3F4D70A7#32, 0x3F1A3D74#32, 0x3ECE1482#32, 0x3E4F5C34#32, 0x3B23D8DA#32] := by
  decide +kernel

/-- The last gain of erasure number 5. -/
theorem gainAt_five_last : (gainAt 5 79 : FP) = 0x3B23D8DA#32 :=
  Option.some.inj (congrArg (·[4]?) gainAt_last_bits)

/-- Inside a frame the gain falls: a decrement is far more than the rounding of one subtraction. -/
theorem gainAt_falls {n i : Nat} (h : 1 ≤ n) (hn : n ≤ 5) (hi : i < 79) :
    flt (gainAt n (i + 1) : FP) (gainAt n i) = true := by
  have hleft : 10737882 < rampLow n i := rampLow_gt hn (by omega) (by omega)
  rw [gainAt_succ]
  exact ((gainAt_between h hn (by omega)).fsub_attenIncr (by omega) (rampHigh_le n i)).2

/-- No gain of a frame is below the last one of erasure number 5. -/
theorem gainAt_ge_last {n i : Nat} (h : 1 ≤ n) (hn : n ≤ 5) (hi : i < 80) :
    fge (gainAt n i : FP) (gainAt 5 79) = true := by
  have hlast : Between 10737882 10737882 (gainAt 5 79 : FP) := by
    rw [gainAt_five_last]
    exact ⟨10737882 * 2 ^ 117, by decide, le_rfl, le_rfl⟩
  by_cases hsame : n = 5 ∧ i = 79
  · obtain ⟨rfl, rfl⟩ := hsame
    rw [gainAt_five_last]
    decide
  · exact fge_of_flt (flt_of_between hlast (gainAt_between h hn hi) (rampLow_gt hn hi (by omega)))

/-- Settles O50: the patterns are evaluated, and the gains beyond the table are below zero by size. -/
theorem gainTableBits : Obligations.GainTableBits :=
  ⟨fun _ => gain0_eq, gain0_bits, gainAt_last_bits, fun _ hn h => gain0_neg h (by omega)⟩

/-- Settles O51: the gains of one offset, and those of one frame, are farther apart than all their roundings. -/
theorem gainFallsMonotonically : Obligations.GainFallsMonotonically :=
  ⟨fun _ hn h _ hi => flt_of_between (gainAt_between (by omega) (by omega) hi) (gainAt_between h (by omega) hi)
      (rampHigh_lt_rampLow h hn hi),
    fun _ hn h _ hi => gainAt_falls h (by omega) hi,
    fun _ hn h _ hi => gainAt_ge_last h (by omega) hi,
    gainAt_five_last, gainAt_positive (by decide) le_rfl (by decide)⟩

end Sys2Proof.Machine

/-! SUPPORT. SCALE and RECONCILE_BLEND run by themselves, element by element (R152, R154). -/

namespace Sys2Proof.Machine

/-! ### SCALE (R152) -/

/-- Settles O45: SCALE reads no register, so it cannot fault. -/
theorem scaleAppliesTheRamp : Obligations.ScaleAppliesTheRamp :=
  fun s => ⟨scaleBlock (gain0 (F := Params.standard.fpFormat) s.erasureCount) s.work.obuf,
    congrArg (finishMicro · s) (scale_eq s), length_scaleBlock _ _, scaleBlock_get _ _, gainAt_succ _, gainAt_zero _⟩

/-- A product whose truncation is an `int16` has no free value (log 6). -/
theorem truncSample_of_toInt? {t : FP} {k : Int} (ht : Fp.toInt? t = some k) (hlow : -32768 ≤ k) (hhigh : k ≤ 32767) :
    truncSample t = BitVec.ofInt 16 k := by
  rw [truncSample, ht]
  exact if_pos ⟨hlow, hhigh⟩

/-- Settles O46: the gain is at most one, and rounding does not take the product past the sample, which is held
exactly. -/
theorem scaledSamplesNeedNoSaturation : Obligations.ScaledSamplesNeedNoSaturation := by
  intro x n i h hn hi
  have hx : x.toInt.natAbs < 2 ^ 24 := natAbs_sample_lt x
  have hxlow := x.le_toInt
  have hxhigh := x.toInt_lt
  obtain ⟨mag, hmag, -, hhigh⟩ := gainAt_between h hn hi
  have hone : mag ≤ 2 ^ 149 := hhigh.trans (Nat.mul_le_mul_right _ (rampHigh_le n i))
  have hproduct := toInt?_of_decode_fin (decode_fmul_fp hx hmag hone)
  have hquot : roundedUnits (x.toInt.natAbs * mag) / 2 ^ 149 ≤ x.toInt.natAbs :=
    Nat.div_le_of_le_mul ((roundedUnits_mul_le hx hone).trans_eq (mul_comm ..))
  generalize roundedUnits (x.toInt.natAbs * mag) / 2 ^ 149 = q at hproduct hquot
  simp only [decide_eq_true_eq] at hproduct
  by_cases hneg : x.toInt < 0
  · rw [if_pos hneg] at hproduct
    exact ⟨_, hproduct, by omega, by omega, by omega, truncSample_of_toInt? hproduct (by omega) (by omega)⟩
  · rw [if_neg hneg] at hproduct
    exact ⟨_, hproduct, by omega, by omega, by omega, truncSample_of_toInt? hproduct (by omega) (by omega)⟩

/-! ### RECONCILE_BLEND (R154) -/

theorem fmax_of_flt_left {x y : FP} (h : flt y x = true) : fmax x y = x := by
  rw [fmax, (isNaN_of_flt h).1, (isNaN_of_flt h).2, h]
  rfl

theorem fmax_of_flt_right {x y : FP} (h : flt x y = true) : fmax x y = y := by
  obtain ⟨hx, hy, hlt⟩ := flt_iff.1 h
  have hnot : ¬ flt y x = true := fun hyx => (flt_iff.1 hyx).2.2.not_gt hlt
  rw [fmax, hx, hy, Bool.or_self, if_neg Bool.false_ne_true, if_neg hnot]

/-- The floor of the reconciliation gain does nothing for erasure numbers 1 to 5. -/
theorem fmax_gain0_of_le {n : Nat} (h : 1 ≤ n) (hn : n ≤ 5) : fmax (gain0 n : FP) (fp 0) = gain0 n := by
  have hpos : flt (fp 0 : FP) (gainAt n 0) = true := gainAt_positive h hn (by decide)
  rw [gainAt_zero] at hpos
  exact fmax_of_flt_left hpos

/-- From 6 on the reconciliation gain is `+0.0`. -/
theorem fmax_gain0_of_ge {n : Nat} (h : 6 ≤ n) (hn : n ≤ 2 ^ 24) : fmax (gain0 n : FP) (fp 0) = 0x00000000#32 := by
  rcases h.eq_or_lt with rfl | hlt
  · decide +kernel
  · exact (fmax_of_flt_right (gain0_neg hlt hn)).trans (by decide)

theorem reconcileGain_eq (count : Nat) : (reconcileGain count : FP) = fmax (gain0 count) (fp 0) := by
  have hzero : (fzero : FP) = fp 0 := by decide
  rw [reconcileGain, hzero]

theorem reconcileBlocks_get {gain : FP} {left right : Block} {n i : Nat} {x y : Sample} (hi : i < n)
    (hx : left[i]? = some x) (hy : right[i]? = some y) :
    (reconcileBlocks gain left right n)[i]? = some (Formula.reconcileAt gain n i x y) := by
  simp only [reconcileBlocks, List.getElem?_map, crossFade_get, List.getElem?_take_of_lt hi, hx, hy, Option.map_some,
    Option.bind_some, Nat.zero_add]
  rfl

/-- The first `n` samples of `obuf` are written over (R99). -/
theorem reconcileBlend_get {s : State} {n : Nat} (hw : s.work.wf = true) (hn : n ≤ 80) :
    ∃ b : Block, exec (.reconcileBlend n) s = .next { s with work := { s.work with obuf := b } } ∧ b.length = 80 ∧
      (∀ i x y, i < n → s.work.synth[i]? = some x → s.work.obuf[i]? = some y →
        b[i]? = some (Formula.reconcileAt (fmax (gain0 s.erasureCount) (fp 0)) n i x y)) ∧
      (∀ i, n ≤ i → b[i]? = s.work.obuf[i]?) := by
  obtain ⟨hobuf, -, hsynth⟩ := (Work.wf_iff _).1 hw
  have hexec : exec (.reconcileBlend n) s = _ :=
    congrArg (finishMicro · s) (reconcileBlend_inside (s := s) (n := n) (by omega) (by omega))
  have hlen : (reconcileBlocks (reconcileGain (F := Params.standard.fpFormat) s.erasureCount) (s.work.synth.take n)
      (s.work.obuf.take n) n).length = n := length_reconcileBlocks (by simp; omega) (by simp; omega)
  refine ⟨_, hexec, ?_, fun i x y hi hx hy => ?_, fun i hi => ?_⟩
  · rw [length_overlay (by omega), hobuf]
  · rw [overlay_get, if_pos (by omega), ← reconcileGain_eq]
    exact reconcileBlocks_get hi ((List.getElem?_take_of_lt hi).trans hx) ((List.getElem?_take_of_lt hi).trans hy)
  · rw [overlay_get, if_neg (by omega)]

/-- Settles O47: the start-of-frame gain is positive up to 5 and not above zero from 6 on, so its floor at `+0.0` is the
gain or zero; the cross-fade overlays the start of `obuf`. -/
theorem reconcileBlendFadesIntoTheFrame : Obligations.ReconcileBlendFadesIntoTheFrame :=
  ⟨fun _ => fmax_gain0_of_le, fun _ h hn => fmax_gain0_of_ge h (by omega), fun _ _ => reconcileBlend_get⟩

end Sys2Proof.Machine

/-! SUPPORT. The erasure state machine: dispatch, IDLE, CONSTRUCT, and what a frame command leaves whatever its branch
(R165 to R168, R175, R176). -/

namespace Sys2Proof.Machine

/-! ### IDLE, ZERO_FRAME and CONSTRUCT (R165, R93, R168) -/

/-- An IDLE sequencer that gives IDLE away is as it was: only the last response goes (R165). -/
theorem takeMicro_of_idle {P : Params} {s : StateOf P} (hphase : s.phase = 0#4) (hoperand : s.operand = 0#9) :
    takeMicro s = dropResponse s := by
  cases s
  cases hphase
  cases hoperand
  rfl

/-- Settles O9: with nothing offered the step is IDLE, which drops the last response and no more. -/
theorem idleStepChangesNothing : Obligations.IdleStepChangesNothing := by
  intro s hin hphase hoperand
  obtain ⟨t, ht⟩ := step_idle_goes_on hphase hoperand
  refine ⟨freeResponse s.freeIdx, s.freeIdx + 1, rfl, ?_⟩
  rcases step_idle_cases hphase hoperand ht with ⟨rest, hrst, -⟩ | ⟨w, rest, hcmd, -⟩ | ⟨-, rfl⟩
  · cases hin.symm.trans hrst
  · cases hin.symm.trans hcmd
  · rw [ht, takeMicro_of_idle hphase hoperand]
    rfl

/-- Settles O32: neither reads a register or an array, so neither can fault. -/
theorem idleAndZeroFrame : Obligations.IdleAndZeroFrame :=
  fun s => ⟨rfl, congrArg (finishMicro · s) (zeroFrame_eq s)⟩

/-- STATUS after CONSTRUCT is that of reset: it reads no field that CONSTRUCT leaves (R33, R168). -/
theorem construct_status {P : Params} (s : StateOf P) : statusWord (construct s) = statusWord (State.initial P) :=
  statusWord_congr rfl rfl rfl rfl rfl

/-- Settles O26: CONSTRUCT writes every register that is not working or the host's, and STATUS is that of reset. -/
theorem constructGivesTheResetState : Obligations.ConstructGivesTheResetState := by
  intro s
  have hstatus : statusWord (construct s) = 0x00060000#32 := (construct_status s).trans (by decide)
  refine ⟨freeWork s.freeIdx, s.freeIdx + 1, freeWork_wf _, ?_⟩
  rw [← hstatus]
  rfl

/-! ### Dispatch (R166) -/

theorem acceptBranch_zero : acceptBranch 0 = .pass := rfl

theorem acceptBranch_pos {n : Nat} (h : 1 ≤ n) : acceptBranch n = .reconcile := if_neg (by omega)

theorem dispatch_accept_running (count : Nat) : dispatch .accept .none count = .run (acceptBranch count) := rfl

theorem dispatch_conceal_running (count : Nat) : dispatch .conceal .none count = .run (concealBranch count) := rfl

/-- Settles O17: the branch functions, range by range. -/
theorem dispatchTable : Obligations.DispatchTable := by
  refine ⟨rfl, fun fault count => ⟨rfl, fun hf => ⟨if_neg hf, if_neg hf, if_neg hf⟩, rfl, ?_, ?_, ?_, ?_, ?_⟩⟩
  · rintro rfl
    exact ⟨rfl, rfl⟩
  · intro h
    rw [dispatch_accept_running, acceptBranch_pos h]
  · intro h1 h2
    rw [dispatch_conceal_running, concealBranch_extend h1 h2]
  · intro h3 h5
    rw [dispatch_conceal_running, concealBranch_steady h3 h5]
  · intro h6
    rw [dispatch_conceal_running, concealBranch_mute h6]

/-! ### A frame command by the micro-operations of its branch -/

/-- The first micro-operation of a program, given the state it leaves. -/
theorem runMicros_step {f : State → Instr} {rest : List (State → Instr)} {s t u : State} (h : exec (f s) s = .next t)
    (ht : runMicros rest t = .next u) : runMicros (f :: rest) s = .next u := by
  rw [runMicros, h]
  exact ht

variable {s u : State}

/-- CONCEAL between commands is the micro-operations of its branch, then the epilogue of R175. -/
theorem exec_conceal_of_micros (hi : Inv s) (hf : s.fault = .none) {b : Branch}
    (hb : concealBranch s.erasureCount = b) {s₀ : State} (hstart : branchStart b s = s₀)
    (hu : runMicros (microProgram b) s₀ = .next u) :
    exec .conceal s = .next (epilogue b (min (s.erasureCount + 1) 255) u) ∧ BranchWrites s u := by
  subst hb hstart
  obtain ⟨v, hrun, hv⟩ := concealBranch_runs hi hf
  obtain rfl : v = u := Host.Outcome.next.inj (hv.symm.trans hu)
  refine ⟨?_, runConceal_staysInBranch _ s _ hrun⟩
  calc execConceal s
    _ = finishFrame _ (countAfter _ s.erasureCount) (runConceal _ s) s := execConceal_running hf
    _ = _ := by rw [hrun]; rfl

/-- ACCEPT between commands is the micro-operations of its branch on the frame, then the epilogue (R176, R177). -/
theorem exec_accept_of_micros (hi : Inv s) (hf : s.fault = .none) {frame : Block} (hframe : frame.length = 80)
    {b : Branch} (hb : acceptBranch s.erasureCount = b)
    (hu : runMicros (microProgram b) (branchStart b (s.setObuf frame)) = .next u) :
    exec (.accept frame) s = .next (epilogue b 0 u) ∧ BranchWrites s u := by
  subst hb
  obtain ⟨v, hrun, hv⟩ := acceptBranch_runs hi hf hframe
  obtain rfl : v = u := Host.Outcome.next.inj (hv.symm.trans hu)
  refine ⟨?_, BranchWrites.trans ⟨_, _, _, _⟩ (runAccept_staysInBranch _ (s.setObuf frame) _ hrun)⟩
  calc execAccept frame s
    _ = finishFrame _ 0 (runAccept _ (s.setObuf frame)) s := execAccept_running hf frame
    _ = _ := by rw [hrun]; rfl

/-- ACCEPT outside a burst runs no micro-operation but COMMIT_AND_OUT (R176). -/
theorem exec_accept_pass (hf : s.fault = .none) (h0 : s.erasureCount = 0) (frame : Block) :
    exec (.accept frame) s = .next (epilogue .pass 0 (s.setObuf frame)) := by
  calc execAccept frame s
    _ = finishFrame _ 0 (runAccept _ (s.setObuf frame)) s := execAccept_running hf frame
    _ = _ := by rw [h0, acceptBranch_zero]; rfl

/-- CONCEAL after the sixth lost frame zeroes `obuf` (R174); no register or array is read, so no invariant is needed. -/
theorem exec_conceal_mute (hf : s.fault = .none) (h6 : 6 ≤ s.erasureCount) :
    exec .conceal s = .next (epilogue .mute (min (s.erasureCount + 1) 255) (s.setObuf silence)) := by
  calc execConceal s
    _ = finishFrame _ (countAfter _ s.erasureCount) (runConceal _ s) s := execConceal_running hf
    _ = _ := by rw [concealBranch_mute h6]; rfl

/-! ### The end of a frame command (R131, R143, R175, R178) -/

/-- The response holds `obuf`, and the delayed frame of the `history` that the branch left. -/
theorem epilogue_answers {raw : Block} (hh : s.mem.history.length = 390) (hkept : u.mem.history = s.mem.history)
    (hraw : u.work.obuf = raw) {b : Branch} {count : Nat} : Formula.answers s (epilogue b count u) raw := by
  subst hraw
  rw [Formula.answers, ← hkept, ← delayedFrame_commit (hkept ▸ hh)]
  exact ⟨rfl, rfl, rfl, rfl⟩

theorem BranchWrites.commandDone (h : BranchWrites s u) {b : Branch} {count : Nat} :
    Formula.commandDone s (epilogue b count u) := by
  cases h
  exact ⟨rfl, rfl, rfl, freeWork_wf _⟩

theorem BranchWrites.epilogue_fault (h : BranchWrites s u) (hf : s.fault = .none) {b : Branch} {count : Nat} :
    (epilogue b count u).fault = .none := h.fault.trans hf

/-- Settles O19: the frame goes to `obuf`, and the epilogue commits it. -/
theorem passCommitsTheFrame : Obligations.PassCommitsTheFrame := by
  intro s frame hf h0 hm hframe
  obtain ⟨hh, -, -⟩ := (Memory.wf_iff _).1 hm
  have hw : BranchWrites s (s.setObuf frame) := ⟨_, _, _, _⟩
  exact ⟨_, exec_accept_pass hf h0 frame, rfl, epilogue_answers hh (by rfl) (by rfl), rfl, rfl, rfl, hf, rfl,
    hw.commandDone⟩

/-- Settles O24: zeros go to `obuf`, and the epilogue commits them. -/
theorem muteEmitsSilence : Obligations.MuteEmitsSilence := by
  intro s hf h6 hm
  obtain ⟨hh, -, -⟩ := (Memory.wf_iff _).1 hm
  have hw : BranchWrites s (s.setObuf silence) := ⟨_, _, _, _⟩
  exact ⟨_, exec_conceal_mute hf h6, rfl, epilogue_answers hh (by rfl) (by rfl), rfl, rfl, rfl, hf, rfl,
    hw.commandDone⟩

/-! ### The named states (R167) -/

/-- The branch of CONCEAL by ranges of the count (R166). -/
theorem concealBranch_eq (n : Nat) :
    concealBranch n = if n = 0 then .onset else if n ≤ 2 then .extend else if n ≤ 5 then .steady else .mute := by
  split_ifs with h0 h2 h5
  · rw [h0, concealBranch_zero]
  · exact concealBranch_extend (by omega) h2
  · exact concealBranch_steady (by omega) h5
  · exact concealBranch_mute (by omega)

theorem namedState_extending {n : Nat} (h2 : 2 ≤ n) (h3 : n ≤ 3) : namedState n = .extending (n - 1) := by
  rw [namedState, if_neg (by omega), if_neg (by omega), if_pos h3]

theorem namedState_steadyRepeat {n : Nat} (h4 : 4 ≤ n) (h6 : n ≤ 6) : namedState n = .steadyRepeat := by
  rw [namedState, if_neg (by omega), if_neg (by omega), if_neg (by omega), if_pos h6]

theorem namedState_muted {n : Nat} (h7 : 7 ≤ n) : namedState n = .muted := by
  rw [namedState, if_neg (by omega), if_neg (by omega), if_neg (by omega), if_neg (by omega)]

/-- The named state that one more lost frame leads to, where the count stops at 255 (R167, R28). -/
theorem namedState_after_conceal (n : Nat) :
    namedState (min (n + 1) 255) = if n = 0 then .burstOnset else if n ≤ 2 then .extending n
      else if n ≤ 5 then .steadyRepeat else .muted := by
  split_ifs with h0 h2 h5
  · rw [h0]
    rfl
  · rw [Nat.min_eq_left (by omega), namedState_extending (by omega) (by omega), Nat.add_sub_cancel]
  · exact namedState_steadyRepeat (by omega) (by omega)
  · exact namedState_muted (by omega)

/-- Settles O18: between commands the branch of CONCEAL and ACCEPT ends, and the epilogue writes the count and the
branch. -/
theorem commandsMoveTheNamedState : Obligations.CommandsMoveTheNamedState := by
  intro s frame hi hf hframe
  refine ⟨?_, ?_, _, rfl, rfl, rfl, rfl⟩
  · obtain ⟨u, -, hu⟩ := concealBranch_runs hi hf
    obtain ⟨hexec, -⟩ := exec_conceal_of_micros hi hf rfl rfl hu
    exact ⟨_, hexec, rfl, concealBranch_eq _, namedState_after_conceal _⟩
  · obtain ⟨u, -, hu⟩ := acceptBranch_runs hi hf hframe
    obtain ⟨hexec, -⟩ := exec_accept_of_micros hi hf hframe rfl hu
    exact ⟨_, hexec, rfl, rfl, rfl⟩

end Sys2Proof.Machine

/-! SUPPORT. The micro-operations of a primed block run by themselves, with the state each leaves, and the branches STEADY,
RECONCILE and EXTEND composed of them (R172, R173, R177). -/

namespace Sys2Proof.Machine

open Formula

variable {s : State} {p k c : Nat}

/-! ### The window of a burst (R37 item 3) -/

theorem PrimedBlock.windowHolds (h : PrimedBlock s p k c) :
    Formula.windowHolds s p (p / 4) (k * p) (390 - k * p) c := ⟨h.primed, h.registers⟩

theorem PrimedBlock.cursor_mod_lt (h : PrimedBlock s p k c) (n : Nat) : (c + n) % (k * p) < k * p :=
  Nat.mod_lt _ (Nat.zero_lt_of_lt h.cursorInside)

theorem PrimedBlock.spanOf_eq (h : PrimedBlock s p k c) : spanOf s = p / 4 :=
  spanOf_of_readReg (readSpan h.primed h.registers)

/-- In a burst the values that the registers hold are those of the invariant. -/
theorem Inv.primedBlock_of_windowHolds (hi : Inv s) (hf : s.fault = .none) (h1 : 1 ≤ s.erasureCount)
    {ov len start : Nat} (hw : Formula.windowHolds s p ov len start c) :
    ∃ k, WindowOk s p k c ∧ PrimedBlock s p k c ∧ ov = p / 4 ∧ len = k * p ∧ start = 390 - k * p := by
  obtain ⟨p', k, c', hwin, hb⟩ := hi.primedBlock hf h1
  obtain ⟨-, hreg⟩ := hw
  have heq := hreg.symm.trans hb.registers
  simp only [Window.mk.injEq, Option.some.injEq] at heq
  obtain ⟨rfl, hov, hlen, hstart, rfl⟩ := heq
  exact ⟨k, hwin, hb, hov, hlen, hstart⟩

/-! ### PULL (R134) -/

/-- What PULL leaves: the samples at the start of the destination, and the cursor moved on. -/
def afterPull (s : State) (dst : PullDst) (vs : Block) (c : Nat) : State :=
  Generic.State.setCursor { s with work := s.work.setBuffer dst (vs ++ (s.work.buffer dst).drop vs.length) } c

theorem PrimedBlock.exec_pull (h : PrimedBlock s p k c) (dst : PullDst) {n : Nat} (hn : n ≤ dst.capacity) :
    ∃ vs : Block, vs.length = n ∧
      (∀ i, i < n → vs[i]? = pulledAt s.mem.pitchBuffer (390 - k * p) (k * p) c i) ∧
      exec (.pull dst n) s = .next (afterPull s dst vs ((c + n) % (k * p))) ∧
      PrimedBlock (afterPull s dst vs ((c + n) % (k * p))) p k ((c + n) % (k * p)) := by
  have hwin := h.window_le
  obtain ⟨vs, hlen, hget, hexec⟩ := pullReadsTheWindowCircularly s dst n _ _ _ _ _ h.windowHolds h.memory h.buffers
    h.cursorInside (by omega) hn
  have hbuf : (s.work.buffer dst).length = dst.capacity := Work.buffer_length h.buffers dst
  have hwritten : PrimedBlock { s with work := s.work.setBuffer dst (vs ++ (s.work.buffer dst).drop vs.length) } p k c :=
    { h with buffers := Work.setBuffer_wf h.buffers (by simp; omega) }
  refine ⟨vs, hlen, hget, ?_, hwritten.withCursor (h.cursor_mod_lt n)⟩
  rw [hexec, ← hlen]
  rfl

/-- A whole frame pulled into `obuf` is all of it. -/
theorem afterPull_obuf {vs : Block} (hs : s.work.wf = true) (hvs : vs.length = 80) (c : Nat) :
    (afterPull s .obuf vs c).work.obuf = vs := by
  obtain ⟨hobuf, -, -⟩ := (Work.wf_iff _).1 hs
  exact overlay_all (hobuf.trans hvs.symm).le

/-! ### STEADY (R173) -/

/-- Settles O23: PULL of a frame, then SCALE. -/
theorem steadyRepeatsTheWindow : Obligations.SteadyRepeatsTheWindow := by
  intro s p ov len start c hi hf h3 h5 hw
  obtain ⟨k, hwin, hb, rfl, rfl, rfl⟩ := hi.primedBlock_of_windowHolds hf (by omega) hw
  obtain rfl : k = 3 := hwin.afterMore h3
  obtain ⟨hh, -, -⟩ := (Memory.wf_iff _).1 hi.memory
  obtain ⟨vs, hvs, hget, hpull, -⟩ := hb.exec_pull .obuf (n := 80) (by decide)
  have hobuf := afterPull_obuf hi.buffers hvs ((c + 80) % (3 * p))
  obtain ⟨raw, hscale, hlen, hraw, -⟩ := scaleAppliesTheRamp (afterPull s .obuf vs ((c + 80) % (3 * p)))
  rw [hobuf] at hlen hraw
  obtain ⟨hexec, hwrites⟩ := exec_conceal_of_micros hi hf (concealBranch_steady h3 h5) rfl
    (runMicros_step hpull <| runMicros_step hscale rfl)
  refine ⟨_, raw, hexec, hlen.trans hvs, fun i hlt => ?_, epilogue_answers hh (by rfl) (by rfl), rfl, rfl, hb.primed,
    Nat.min_eq_left (by omega), hwrites.epilogue_fault hf, rfl, hwrites.commandDone⟩
  rw [hraw, hget i hlt]
  rfl

/-! ### RECONCILE (R177) -/

/-- Settles O20: PULL of the window's next samples, then RECONCILE_BLEND with the frame in `obuf`. -/
theorem reconcileBlendsTheFrame : Obligations.ReconcileBlendsTheFrame := by
  intro s frame p ov len start c hi hf h1 hframe hw
  obtain ⟨k, -, hb, rfl, rfl, rfl⟩ := hi.primedBlock_of_windowHolds hf h1 hw
  obtain ⟨hh, -, -⟩ := (Memory.wf_iff _).1 hi.memory
  have hle : olenOf s.erasureCount (spanOf s) ≤ 80 := Nat.min_le_right ..
  have holen : olenOf s.erasureCount (spanOf s) = min (p / 4 + (s.erasureCount - 1) * 32) 80 := by
    rw [hb.spanOf_eq]
    rfl
  obtain ⟨synth, hsynth, hget, hpull, hb₁⟩ := (hb.withObuf hframe).exec_pull .synth hle
  obtain ⟨-, -, hblend⟩ := reconcileBlendFadesIntoTheFrame
  obtain ⟨raw, hrec, hlen, hfade, hrest⟩ := hblend _ _ hb₁.buffers hle
  obtain ⟨hexec, hwrites⟩ := exec_accept_of_micros hi hf hframe (acceptBranch_pos h1)
    (runMicros_step hpull <| runMicros_step hrec rfl)
  rw [← hsynth] at hget hfade hrest
  refine ⟨_, synth, raw, hexec, hsynth.trans holen, hget, hlen, fun i x y hx hy => ?_, hrest,
    epilogue_answers hh (by rfl) (by rfl), rfl, ?_, rfl, hb.primed, hwrites.epilogue_fault hf, rfl, hwrites.commandDone⟩
  · obtain ⟨hlt, -⟩ := List.getElem?_eq_some_iff.1 hx
    exact hfade i x y hlt ((List.getElem?_append_left hlt).trans hx) hy
  · rw [hsynth]
    rfl

/-! ### The other micro-operations of EXTEND (R137, R140, R142, R97) -/

/-- The registers of a window of `k` periods of `p`, with its cursor (R37 item 3). -/
def windowOf (p k c : Nat) : Window := ⟨some p, some (p / 4), some (k * p), some (390 - k * p), some c⟩

theorem PrimedBlock.exec_grow (h : PrimedBlock s p k c) (hk : k ≤ 2) :
    exec .grow s = .next { s with win := windowOf p (k + 1) c } ∧
      PrimedBlock { s with win := windowOf p (k + 1) c } p (k + 1) c := by
  have hp := h.periodHigh
  have hc := h.cursorInside
  have hlen : k * p ≤ 2 * 120 := Nat.mul_le_mul hk hp
  have hsucc : (k + 1) * p = k * p + p := Nat.succ_mul k p
  constructor
  · rw [growAddsOnePeriod s _ _ _ _ _ h.windowHolds (by omega), windowOf, hsucc]
  · exact { h with
      registers := rfl
      periodsHigh := by omega
      cursorInside := by omega }

theorem PrimedBlock.exec_olaTail (h : PrimedBlock s p k c)
    (ht : ∀ i, i < p / 4 → ∃ x, s.mem.savedTail[i]? = some (some x)) :
    ∃ pb : List FP, exec .olaTail s = .next (s.setPitchBuffer pb) ∧ PrimedBlock (s.setPitchBuffer pb) p k c ∧
      pb.length = 390 ∧ (∀ i, i < 390 - p / 4 → pb[i]? = s.mem.pitchBuffer[i]?) ∧
      (∀ i x y, i < p / 4 → s.mem.savedTail[i]? = some (some x) →
        s.mem.pitchBuffer[390 - k * p - p / 4 + i]? = some y → pb[390 - p / 4 + i]? = some (blendAt (p / 4) i x y)) := by
  obtain ⟨-, hlen, -⟩ := (Memory.wf_iff _).1 h.memory
  have hp := h.periodHigh
  have hwin := h.window_le
  obtain ⟨pb, hexec, hpb, hkept, hblend⟩ := olaTailBlendsTheTail s _ _ _ _ _ h.windowHolds h.memory (by omega) (by omega)
    (by omega) ht
  exact ⟨pb, hexec, { h with memory := setPitchBuffer_wf h.memory (hpb.trans hlen.symm) }, hpb, hkept, hblend⟩

/-- The saved cursor reduced modulo the period is in the first period of the window. -/
theorem PrimedBlock.exec_restoreCursor (h : PrimedBlock s p k c) :
    exec .restoreCursor s = .next (s.setCursor (s.work.saveCursor % p)) ∧
      PrimedBlock (s.setCursor (s.work.saveCursor % p)) p k (s.work.saveCursor % p) := by
  have hp := h.periodLow
  have hk : 1 ≤ k := Nat.pos_of_ne_zero fun h0 => by have := h.cursorInside; simp [h0] at this
  have hc : s.work.saveCursor % p < k * p := (Nat.mod_lt _ (by omega)).trans_le (Nat.le_mul_of_pos_left p hk)
  exact ⟨restoreCursorReducesTheSavedCursor s _ _ _ _ _ h.windowHolds (by omega), h.withCursor hc⟩

theorem PrimedBlock.exec_olaFrame (h : PrimedBlock s p k c) :
    ∃ b : Block, exec .olaFrame s = .next (s.setObuf b) ∧ PrimedBlock (s.setObuf b) p k c ∧ b.length = 80 ∧
      (∀ i x y, i < p / 4 → s.work.tmp[i]? = some x → s.work.obuf[i]? = some y →
        b[i]? = some (narrow (blendAt (p / 4) i (widen x) (widen y)))) ∧
      (∀ i, p / 4 ≤ i → b[i]? = s.work.obuf[i]?) := by
  have hp := h.periodHigh
  obtain ⟨b, hexec, hb, hfade, hrest⟩ := olaFrameBlendsTheFrameStart s _ _ _ _ _ h.windowHolds h.buffers (by omega)
  exact ⟨b, hexec, h.withObuf hb, hb, hfade, hrest⟩

/-- EXTEND opens with the save of the cursor (R172). -/
theorem PrimedBlock.branchStart_extend (h : PrimedBlock s p k c) :
    branchStart .extend s = { s with work := { s.work with saveCursor := c } } :=
  branchStart_extend_of_saveCursor (saveCursor_inside h.primed h.registers)

/-! ### EXTEND (R172) -/

/-- Settles O22: PULL from the old window, GROW, OLA_TAIL, RESTORE_CURSOR, PULL from the new window, OLA_FRAME, SCALE. -/
theorem extendGrowsTheWindow : Obligations.ExtendGrowsTheWindow := by
  intro s p ov len start c hi hf h1 h2 hw
  obtain ⟨k, hwin, hb, rfl, rfl, rfl⟩ := hi.primedBlock_of_windowHolds hf h1 hw
  obtain ⟨hh, -, -⟩ := (Memory.wf_iff _).1 hi.memory
  have hp := hb.periodHigh
  have hb₀ : PrimedBlock { s with work := { s.work with saveCursor := c } } p k c := { hb with }
  obtain ⟨tmp, htmp, htget, hpull, hb₁⟩ := hb₀.exec_pull .tmp (n := spanOf s)
    (by rw [hb.spanOf_eq]; show p / 4 ≤ 30; omega)
  obtain ⟨hgrow, hb₂⟩ := hb₁.exec_grow (hwin.periods_le_two h1 h2)
  obtain ⟨pb, hola, hb₃, hpb, hkept, hblend⟩ := hb₂.exec_olaTail hwin.tailWritten
  obtain ⟨hrestore, hb₄⟩ := hb₃.exec_restoreCursor
  obtain ⟨pulled, hpulled, hpget, hpull', hb₅⟩ := hb₄.exec_pull .obuf (n := 80) (by decide)
  obtain ⟨b, hframe, hb₆, hblen, hfade, hrest⟩ := hb₅.exec_olaFrame
  obtain ⟨raw, hscale, hlen, hraw, -⟩ := scaleAppliesTheRamp (Generic.State.setObuf _ b)
  rw [afterPull_obuf hb₄.buffers hpulled] at hfade hrest
  obtain ⟨hexec, hwrites⟩ := exec_conceal_of_micros hi hf (concealBranch_extend h1 h2)
    hb.branchStart_extend (runMicros_step hpull <| runMicros_step hgrow <| runMicros_step hola <|
      runMicros_step hrestore <| runMicros_step hpull' <| runMicros_step hframe <| runMicros_step hscale rfl)
  have hsucc : (k + 1) * p = k * p + p := Nat.succ_mul k p
  rw [hb.spanOf_eq] at htmp htget
  rw [hsucc] at hblend hpget
  refine ⟨_, tmp, pulled, raw, hexec, htmp, htget, hpb, hkept, hblend, hpulled, hpget, hlen.trans hblen,
    fun i x y hx hy => ?_, fun i y hge hy => ?_, epilogue_answers hh (by rfl) (by rfl), rfl, rfl, ?_, hb.primed,
    Nat.min_eq_left (by omega), hwrites.epilogue_fault hf, rfl, hwrites.commandDone⟩
  · obtain ⟨hlt, -⟩ := List.getElem?_eq_some_iff.1 hx
    exact (hraw i).trans (congrArg _ (hfade i x y (htmp ▸ hlt) ((List.getElem?_append_left hlt).trans hx) hy))
  · exact (hraw i).trans (congrArg _ ((hrest i hge).trans hy))
  · rw [← hsucc]
    exact hb₆.registers

end Sys2Proof.Machine

/-! SUPPORT. The branch ONSET, composed of its micro-operations (R170). -/

namespace Sys2Proof.Machine

open Formula

variable {s : State} {p k c : Nat}

/-! ### The search on the widened history (R115, R117, R118) -/

/-- The two stages of the search write working registers only, and find a lag of at most 80. -/
theorem Sized.exec_search (h : Sized s) :
    ∃ v w : Work Params.standard, exec .findpitchCoarse s = .next { s with work := v } ∧
      exec .findpitchFine { s with work := v } = .next { s with work := w } ∧ w.wf = true ∧ w.bestLag ≤ 80 := by
  have hcoarse := exec_findpitchCoarse h.memory
  have hv := (coarseSearch_keeps (referenceOf s) (targetOf s) s.work).wf h.buffers
  obtain ⟨-, hlag⟩ := coarseSearch_bestLag (referenceOf s) (targetOf s) s.work
  -- The candidates are not to be evaluated when the registers are compared.
  generalize coarseSearch (referenceOf s) (targetOf s) s.work = v at hcoarse hv hlag
  have hfine := exec_findpitchFine (s := { s with work := v }) h.memory hlag
  have hw := (fineSearch_keeps (referenceOf { s with work := v }) (targetOf { s with work := v }) (v.bestLag - 1)
    (min (v.bestLag + 1) 80) v).wf hv
  obtain ⟨-, hle⟩ := fineSearch_bestLag (referenceOf { s with work := v }) (targetOf { s with work := v })
    (lo := v.bestLag - 1) (hi := min (v.bestLag + 1) 80) (by omega) v
  exact ⟨v, _, hcoarse, hfine, hw, hle.trans (Nat.min_le_right ..)⟩

/-! ### The micro-operations of ONSET (R132, R136, R138, R141) -/

/-- The state after WIDEN_HISTORY. -/
def widened (s : State) : State := s.setPitchBuffer (s.mem.history.map widen)

theorem widened_sized (h : Sized s) : Sized (widened s) := by
  obtain ⟨hh, hpb, -⟩ := (Memory.wf_iff _).1 h.memory
  exact ⟨setPitchBuffer_wf h.memory (by simp; omega), h.buffers⟩

theorem Sized.exec_prime (h : Sized s) (hp : 40 ≤ p) (hp' : p ≤ 120) :
    exec (.prime p) s = .next { s with win := windowOf p 1 0, primed := true } ∧
      PrimedBlock { s with win := windowOf p 1 0, primed := true } p 1 0 := by
  constructor
  · rw [primeWritesTheWindow, windowOf, Nat.one_mul]
  · exact { h with
      primed := rfl
      registers := rfl
      periodLow := hp
      periodHigh := hp'
      periodsHigh := by decide
      cursorInside := by omega }

theorem PrimedBlock.exec_snapshotTail (h : PrimedBlock s p k c) :
    ∃ tail : List (Option FP), exec .snapshotTail s = .next (s.setSavedTail tail) ∧
      PrimedBlock (s.setSavedTail tail) p k c ∧
      (∀ i, i < p / 4 → tail[i]? = (s.mem.pitchBuffer[390 - p / 4 + i]?).map some) ∧
      (∀ i, p / 4 ≤ i → tail[i]? = s.mem.savedTail[i]?) := by
  obtain ⟨-, -, htl⟩ := (Memory.wf_iff _).1 h.memory
  have hp := h.periodHigh
  obtain ⟨tail, hexec, hlen, hnew, hold⟩ := snapshotTailCopiesTheTail s _ _ _ _ _ h.windowHolds h.memory (by omega)
  exact ⟨tail, hexec, { h with memory := setSavedTail_wf h.memory (hlen.trans htl.symm) }, hnew, hold⟩

theorem PrimedBlock.exec_writebackTail (h : PrimedBlock s p k c) :
    ∃ hist : List Sample, exec .writebackTail s = .next (s.setHistory hist) ∧
      PrimedBlock (s.setHistory hist) p k c ∧ hist.length = 390 ∧
      (∀ i, i < 390 - p / 4 → hist[i]? = s.mem.history[i]?) ∧
      (∀ i, 390 - p / 4 ≤ i → hist[i]? = (s.mem.pitchBuffer[i]?).map narrow) := by
  obtain ⟨hh, -, -⟩ := (Memory.wf_iff _).1 h.memory
  have hp := h.periodHigh
  obtain ⟨hist, hexec, hlen, hkept, hnew⟩ := writebackTailNarrowsTheTail s _ _ _ _ _ h.windowHolds h.memory (by omega)
  exact ⟨hist, hexec, { h with memory := setHistory_wf h.memory (hlen.trans hh.symm) }, hlen, hkept, hnew⟩

/-! ### ONSET (R170) -/

/-- What ONSET finds and makes before the epilogue: the registers `v` and `w` of the two searches, the period `p`, and
the state `u` that the branch leaves. -/
structure OnsetRun (s : State) (v w : Work Params.standard) (p : Nat) (u : State) : Prop where
  coarse : exec .findpitchCoarse (widened s) = .next { widened s with work := v }
  fine : exec .findpitchFine { widened s with work := v } = .next { widened s with work := w }
  period : p = 120 - w.bestLag
  periodLow : 40 ≤ p
  periodHigh : p ≤ 120
  tailNew : ∀ i, i < p / 4 → u.mem.savedTail[i]? = ((s.mem.history.map widen)[390 - p / 4 + i]?).map some
  tailOld : ∀ i, p / 4 ≤ i → u.mem.savedTail[i]? = s.mem.savedTail[i]?
  bufferLength : u.mem.pitchBuffer.length = 390
  bufferKept : ∀ i, i < 390 - p / 4 → u.mem.pitchBuffer[i]? = (s.mem.history.map widen)[i]?
  bufferBlend : ∀ i x y, i < p / 4 → (s.mem.history.map widen)[390 - p / 4 + i]? = some x →
    (s.mem.history.map widen)[390 - p - p / 4 + i]? = some y →
    u.mem.pitchBuffer[390 - p / 4 + i]? = some (blendAt (p / 4) i x y)
  historyLength : u.mem.history.length = 390
  historyKept : ∀ i, i < 390 - p / 4 → u.mem.history[i]? = s.mem.history[i]?
  historyNew : ∀ i, 390 - p / 4 ≤ i → u.mem.history[i]? = (u.mem.pitchBuffer[i]?).map narrow
  obufLength : u.work.obuf.length = 80
  obufPulled : ∀ i, i < 80 → u.work.obuf[i]? = pulledAt u.mem.pitchBuffer (390 - p) p 0 i
  win : u.win = ⟨some p, some (p / 4), some p, some (390 - p), some (80 % p)⟩
  primed : u.primed = true
  run : runMicros (microProgram .onset) s = .next u

theorem Sized.onset_run (h : Sized s) : ∃ v w p u, OnsetRun s v w p u := by
  obtain ⟨hh, -, -⟩ := (Memory.wf_iff _).1 h.memory
  obtain ⟨v, w, hcoarse, hfine, hw, hlag⟩ := (widened_sized h).exec_search
  have hs₃ : Sized { widened s with work := w } := ⟨(widened_sized h).memory, hw⟩
  obtain ⟨hprime, hb₄⟩ := hs₃.exec_prime (p := 120 - w.bestLag) (by omega) (by omega)
  obtain ⟨tail, hsnap, hb₅, hnew, hold⟩ := hb₄.exec_snapshotTail
  have hwritten (i : Nat) (hi : i < (120 - w.bestLag) / 4) : ∃ x, tail[i]? = some (some x) :=
    ⟨_, (hnew i hi).trans (congrArg _ (List.getElem?_eq_getElem (by simp [widened]; omega)))⟩
  obtain ⟨pb, hola, hb₆, hpb, hpbKept, hblend⟩ := hb₅.exec_olaTail hwritten
  obtain ⟨hist, hback, hb₇, hhist, hhistKept, hhistNew⟩ := hb₆.exec_writebackTail
  obtain ⟨raw, hraw, hrawGet, hpull, hb₈⟩ := hb₇.exec_pull .obuf (n := 80) (by decide)
  have hobuf := afterPull_obuf hb₇.buffers hraw ((0 + 80) % (1 * (120 - w.bestLag)))
  have hrun : runMicros (microProgram .onset) s = .next _ :=
    runMicros_step (widenHistoryRefreshesThePitchBuffer s h.memory) <| runMicros_step hcoarse <| runMicros_step hfine <|
      runMicros_step hprime <| runMicros_step hsnap <| runMicros_step hola <| runMicros_step hback <|
        runMicros_step hpull rfl
  rw [Nat.one_mul] at hblend hrawGet
  exact ⟨v, w, 120 - w.bestLag, _, {
    coarse := hcoarse
    fine := hfine
    period := rfl
    periodLow := hb₄.periodLow
    periodHigh := hb₄.periodHigh
    tailNew := hnew
    tailOld := hold
    bufferLength := hpb
    bufferKept := hpbKept
    bufferBlend := fun i x y hi hx hy => hblend i x y hi ((hnew i hi).trans (congrArg _ hx)) hy
    historyLength := hhist
    historyKept := hhistKept
    historyNew := hhistNew
    obufLength := (congrArg List.length hobuf).trans hraw
    obufPulled := fun i hi => (congrArg (·[i]?) hobuf).trans (hrawGet i hi)
    win := hb₈.registers.trans (by rw [Nat.one_mul])
    primed := rfl
    run := hrun }⟩

/-- A burst's first CONCEAL is ONSET, then the epilogue with count 1. -/
theorem OnsetRun.exec_conceal {v w : Work Params.standard} {u : State} (h : OnsetRun s v w p u) (hi : Inv s)
    (hf : s.fault = .none) (h0 : s.erasureCount = 0) :
    exec .conceal s = .next (epilogue .onset 1 u) ∧ BranchWrites s u := by
  have hexec := exec_conceal_of_micros hi hf (by rw [h0, concealBranch_zero]) rfl h.run
  rwa [h0] at hexec

/-- Settles O21: the run of ONSET, and the epilogue's commit of `obuf` to the `history` that WRITEBACK_TAIL left. -/
theorem onsetPrimesAndPlays : Obligations.OnsetPrimesAndPlays := by
  intro s hi hf h0
  obtain ⟨v, w, p, u, h⟩ := hi.sized.onset_run
  obtain ⟨hexec, hwrites⟩ := h.exec_conceal hi hf h0
  exact ⟨_, widened s, p, u.work.obuf, u.mem.history, hexec, rfl, ⟨_, _, h.coarse, h.fine, h.period⟩, h.periodLow,
    h.periodHigh, h.tailNew, h.tailOld, h.bufferLength, h.bufferKept, h.bufferBlend, h.historyLength, h.historyKept,
    h.historyNew, h.obufLength, h.obufPulled, rfl, rfl, rfl, delayedFrame_commit h.historyLength, rfl, h.win, h.primed,
    rfl, hwrites.epilogue_fault hf, rfl, hwrites.commandDone⟩

end Sys2Proof.Machine

/-! SUPPORT. A loss on an all-zero history (R170): every score of the search is the same, so the coarse stage takes the
last lag and the fine stage the earliest beside it (R115, R117). -/

namespace Sys2Proof.Machine

open Formula

/-! ### The search on zeros -/

/-- Every element of `pitch_buffer` reads as zero. -/
def ZeroBuffer (s : State) : Prop := ∀ k, s.mem.pitchBuffer.getD k (fp 0) = fp 0

theorem zero_plus_square : fadd (fp 0) (fmul (fp 0) (fp 0)) = (fp 0 : FP) := by decide

theorem zero_minus_square : fsub (fp 0) (fmul (fp 0) (fp 0)) = (fp 0 : FP) := by decide

/-- The energy of zeros is raised to `CORRMINPOWER`, so its score is a number (R116). -/
theorem scoreAt_zero_isNaN : Fp.isNaN (scoreAt (fp 0) (fp 0)) = false := by decide +kernel

theorem sumOf_zero (n : Nat) : sumOf n (fun _ => fp 0) (fun _ => fp 0) = fp 0 := by
  unfold sumOf
  induction n with
  | zero => rfl
  | succ n ih => rw [List.range_succ, List.foldl_append, ih, List.foldl_cons, List.foldl_nil, zero_plus_square]

namespace ZeroBuffer

variable {s : State}

theorem refAt_eq (h : ZeroBuffer s) (k : Nat) : Formula.refAt s k = fp 0 := h _

theorem tgtAt_eq (h : ZeroBuffer s) (i : Nat) : tgtAt s i = fp 0 := h _

theorem coarseEnergyAt_eq (h : ZeroBuffer s) (n : Nat) : coarseEnergyAt s n = fp 0 := by
  induction n with
  | zero => simp only [coarseEnergyAt, h.refAt_eq, sumOf_zero]
  | succ n ih => simp only [coarseEnergyAt, h.refAt_eq, ih, zero_minus_square, zero_plus_square]

theorem fineEnergyAt_eq (h : ZeroBuffer s) (lo n : Nat) : fineEnergyAt s lo n = fp 0 := by
  induction n with
  | zero => simp only [fineEnergyAt, h.refAt_eq, sumOf_zero]
  | succ n ih => simp only [fineEnergyAt, h.refAt_eq, ih, zero_minus_square, zero_plus_square]

theorem coarseScoreAt_eq (h : ZeroBuffer s) (n : Nat) : coarseScoreAt s n = scoreAt (fp 0) (fp 0) := by
  simp only [coarseScoreAt, corrCoarseAt, h.refAt_eq, h.tgtAt_eq, sumOf_zero, h.coarseEnergyAt_eq]

theorem fineScoreAt_eq (h : ZeroBuffer s) (lo n : Nat) : fineScoreAt s lo n = scoreAt (fp 0) (fp 0) := by
  simp only [fineScoreAt, corrFineAt, h.refAt_eq, h.tgtAt_eq, sumOf_zero, h.fineEnergyAt_eq]

/-- Every candidate ties, and the coarse stage keeps the latest (R115). -/
theorem coarse_bestLag (h : ZeroBuffer s) (hm : s.mem.wf = true) {t : State}
    (ht : exec .findpitchCoarse s = .next t) : t.work.bestLag = 80 := by
  obtain ⟨w, n, hexec, hn, hlag, -, hlater, -⟩ := coarseSearchKeepsTheLatestBest s hm
  have hwork : w = t.work := congrArg Generic.State.work (Host.Outcome.next.inj (hexec.symm.trans ht))
  have htie : fge (scoreAt (fp 0) (fp 0)) (scoreAt (fp 0) (fp 0)) = true :=
    fge_iff.2 ⟨scoreAt_zero_isNaN, scoreAt_zero_isNaN, le_rfl⟩
  have hlast : n = 40 := by
    by_contra hne
    have hfalse := hlater 40 (by omega) le_rfl
    rw [h.coarseScoreAt_eq, h.coarseScoreAt_eq, htie] at hfalse
    cases hfalse
  rw [← hwork, hlag, hlast]

/-- Every candidate ties, and the fine stage keeps the earliest (R117). -/
theorem fine_bestLag (h : ZeroBuffer s) (hm : s.mem.wf = true) (hb : s.work.bestLag ≤ 80) {t : State}
    (ht : exec .findpitchFine s = .next t) : t.work.bestLag = s.work.bestLag - 1 := by
  obtain ⟨w, n, hexec, hlo, -, -, hlag, -, -, hearlier, -⟩ := fineSearchKeepsTheEarliestBest s hm hb
  have hwork : w = t.work := congrArg Generic.State.work (Host.Outcome.next.inj (hexec.symm.trans ht))
  simp only [h.fineScoreAt_eq] at hearlier
  have hfirst : n = 0 := by
    by_contra hne
    have hlt := (flt_iff.1 (hearlier (fun _ _ => scoreAt_zero_isNaN) 0 (by omega))).2.2
    exact lt_irrefl _ hlt
  rw [← hwork, hlag, hlo, hfirst, Nat.add_zero]

end ZeroBuffer

/-! ### The frame of an all-zero history -/

theorem widen_zero : (widen 0#16 : FP) = fp 0 := rfl

theorem widened_zeroBuffer {s : State} (hz : s.mem.history = List.replicate 390 0#16) : ZeroBuffer (widened s) := by
  intro k
  rw [widened, setPitchBuffer_mem, hz, List.map_replicate, widen_zero, List.getD_eq_getElem?_getD,
    List.getElem?_replicate]
  split <;> rfl

theorem narrow_zero : narrow (fp 0 : FP) = 0#16 := narrowUndoesWiden 0#16

/-- A blend of zeros narrows to zero, of either sign (R94, R92). -/
theorem narrow_blendAt_zero : ∀ i < 10, narrow (blendAt 10 i (fp 0) (fp 0)) = 0#16 := by decide +kernel

theorem eq_replicate_of_get {α : Type} {xs : List α} {n : Nat} {a : α} (hlen : xs.length = n)
    (h : ∀ i, i < n → xs[i]? = some a) : xs = List.replicate n a := by
  refine List.eq_replicate_iff.2 ⟨hlen, fun x hx => ?_⟩
  obtain ⟨i, hi, rfl⟩ := List.mem_iff_getElem.1 hx
  exact Option.some.inj ((List.getElem?_eq_getElem hi).symm.trans (h i (hlen ▸ hi)))

section Silent

variable {s u : State} {v w : Work Params.standard} {p : Nat}

theorem OnsetRun.period_of_zeros (h : OnsetRun s v w p u) (hs : Sized s)
    (hz : s.mem.history = List.replicate 390 0#16) : p = 41 := by
  have hv : v.bestLag = 80 := (widened_zeroBuffer hz).coarse_bestLag (widened_sized hs).memory h.coarse
  have hw : w.bestLag = v.bestLag - 1 :=
    ZeroBuffer.fine_bestLag (s := { widened s with work := v }) (widened_zeroBuffer hz) (widened_sized hs).memory hv.le
      h.fine
  rw [h.period, hw, hv]

/-- Every element that ONSET leaves in `pitch_buffer` narrows to zero. -/
theorem OnsetRun.buffer_of_zeros (h : OnsetRun s v w 41 u) (hz : s.mem.history = List.replicate 390 0#16) {i : Nat}
    (hi : i < 390) : (u.mem.pitchBuffer[i]?).map narrow = some 0#16 := by
  have hwide (j : Nat) (hj : j < 390) : (s.mem.history.map widen : List FP)[j]? = some (fp 0) := by
    rw [hz, List.map_replicate, widen_zero, List.getElem?_replicate, if_pos hj]
  by_cases hlow : i < 380
  · rw [h.bufferKept i hlow, hwide i hi, Option.map_some, narrow_zero]
  · obtain ⟨j, rfl⟩ := Nat.exists_eq_add_of_le (Nat.le_of_not_lt hlow)
    have hj : j < 10 := by omega
    have hblend := h.bufferBlend j (fp 0) (fp 0) hj (hwide _ (by omega)) (hwide _ (by omega))
    exact (congrArg (Option.map narrow) hblend).trans (congrArg some (narrow_blendAt_zero j hj))

theorem OnsetRun.obuf_of_zeros (h : OnsetRun s v w 41 u) (hz : s.mem.history = List.replicate 390 0#16) :
    u.work.obuf = List.replicate 80 0#16 :=
  eq_replicate_of_get h.obufLength fun i hi => (h.obufPulled i hi).trans (h.buffer_of_zeros hz (by omega))

theorem OnsetRun.history_of_zeros (h : OnsetRun s v w 41 u) (hz : s.mem.history = List.replicate 390 0#16) :
    u.mem.history = List.replicate 390 0#16 := by
  refine eq_replicate_of_get h.historyLength fun i hi => ?_
  by_cases hlow : i < 380
  · rw [h.historyKept i hlow, hz, List.getElem?_replicate, if_pos hi]
  · exact (h.historyNew i (by omega)).trans (h.buffer_of_zeros hz hi)

end Silent

/-- Settles O25: all candidates tie at 41, and ONSET's blends, pulls and write-backs of zeros are zeros. -/
theorem silentHistoryGivesSilence : Obligations.SilentHistoryGivesSilence := by
  intro s hi hf h0 hz
  obtain ⟨v, w, p, u, h⟩ := hi.sized.onset_run
  obtain rfl : p = 41 := h.period_of_zeros hi.sized hz
  obtain ⟨hexec, -⟩ := h.exec_conceal hi hf h0
  have hobuf := h.obuf_of_zeros hz
  have hhistory := h.history_of_zeros hz
  refine ⟨_, hexec, h.win, hobuf, ?_, ?_⟩
  · rw [epilogue_rsp_frame, delayedFrame_commit h.historyLength, hobuf, hhistory, List.drop_replicate,
      List.take_replicate, List.replicate_append_replicate]
    rfl
  · simp only [epilogue_mem, hobuf, hhistory, List.drop_replicate, List.replicate_append_replicate]

end Sys2Proof.Machine

/-! SUPPORT. The commands that end without running a branch: the entry of an `IllegalCommand` (R203, R205) and the
refusal of a faulted block (R206). Both report branch 7 and end in `respondSilence`. -/

namespace Sys2Proof.Machine

/-- The buses hold zero frames, beside the STATUS after the command (R205, R206). -/
theorem respondSilence_answersSilence (s : State) : Formula.answersSilence (respondSilence s) :=
  ⟨rfl, rfl, rfl, respond_status _⟩

theorem respondSilence_commandDone {s u : State} (hinbox : u.inbox = s.inbox) :
    Formula.commandDone s (respondSilence u) :=
  ⟨respondSilence_phase u, respondSilence_operand u, hinbox, freeWork_wf _⟩

/-- The three commands that R206 names are refused alike. -/
theorem exec_refused {s : State} {i : Instr} (hf : s.fault ≠ .none)
    (hi : (∃ frame, i = .accept frame) ∨ i = .conceal ∨ i = .reserved) : exec i s = .next (refuse s) := by
  rcases hi with ⟨frame, rfl⟩ | rfl | rfl
  · exact execAccept_faulted hf frame
  · exact execConceal_faulted hf
  · exact execReserved_faulted hf

/-- Settles O27: the opcode enters `IllegalCommand` before any micro-operation has run. -/
theorem reservedOpcodeIsIllegal : Obligations.ReservedOpcodeIsIllegal := by
  intro s hf
  exact ⟨faultEntry .illegalCmd s, execReserved_running hf, faultEntry_fault .., faultEntry_lastBranch ..,
    respondSilence_answersSilence _, faultEntry_mem .., faultEntry_win .., faultEntry_primed ..,
    faultEntry_erasureCount .., respondSilence_commandDone rfl⟩

/-- Settles O28: each of the three is refused, and of what a block keeps between commands a refusal
writes `last_branch` only. -/
theorem faultedBlockRefuses : Obligations.FaultedBlockRefuses := by
  intro s i hf hi
  exact ⟨refuse s, exec_refused hf hi, refuse_fault s, refuse_lastBranch s, respondSilence_answersSilence _,
    refuse_mem s, refuse_win s, refuse_primed s, refuse_erasureCount s, respondSilence_commandDone rfl⟩

end Sys2Proof.Machine

/-! SUPPORT. A cycle of `rst`, and the values that `rst` and CONSTRUCT leave (R230 to R232). -/

namespace Sys2Proof.Machine

open Formula

variable {P : Params}

/-! ### A cycle of `rst` (R230, R231) -/

theorem cmdReady_rst {s : StateOf P} {rest : List HostInput} (hin : s.inbox = .rst :: rest) : cmdReady s = false :=
  Bool.eq_false_iff.2 fun hready => (cmdReady_iff.1 hready).2 rest hin

/-- `rst` comes before the sequencer's word and before a command. -/
theorem step_rst {s : State} {rest : List HostInput} (hin : s.inbox = .rst :: rest) :
    step s = .next (afterRst s rest) := by
  have hfetch : fetch s = .resetNow (afterRst s rest) := by simp only [fetch, hin]
  simp only [step, stepBy, hfetch]

/-- Settles O8: the step goes to what `rst` leaves, which is the reset state but for the host's later inputs and the
model's counter. -/
theorem rstHasPriority : Obligations.RstHasPriority :=
  fun _ _ hin => ⟨cmdReady_rst hin, step_rst hin⟩

/-! ### The values of the reset table (R232) -/

/-- The registers that R232 gives a value hold it; the outputs it speaks of are read from these. -/
structure AtReset (s : StateOf P) : Prop where
  mem : s.mem = Memory.cleared
  win : s.win = Window.unwritten
  erasureCount : s.erasureCount = 0
  primed : s.primed = false
  fault : s.fault = .none
  lastBranch : s.lastBranch = .construct
  idle : s.phase = 0#4

theorem afterRst_atReset (s : StateOf P) (rest : List HostInput) : AtReset (afterRst s rest) :=
  ⟨rfl, rfl, rfl, rfl, rfl, rfl, rfl⟩

/-- CONSTRUCT writes the registers, and its response leaves the sequencer IDLE (R168, R178). -/
theorem respondSilence_construct_atReset (s : StateOf P) : AtReset (respondSilence (construct s)) where
  mem := by rw [respondSilence_mem, construct_mem]
  win := by rw [respondSilence_win, construct_win]
  erasureCount := by rw [respondSilence_erasureCount, construct_erasureCount]
  primed := by rw [respondSilence_primed, construct_primed]
  fault := by rw [respondSilence_fault, construct_fault]
  lastBranch := by rw [respondSilence_lastBranch, construct_lastBranch]
  idle := respondSilence_phase _

/-- None of the registers is the response channel or the model's counter. -/
theorem AtReset.of_response {s : StateOf P} (h : AtReset s) (r : Response) (k : Nat) :
    AtReset { s with rsp := r, freeIdx := k } :=
  ⟨h.mem, h.win, h.erasureCount, h.primed, h.fault, h.lastBranch, h.idle⟩

/-- STATUS reads none of the registers that the table leaves unspecified (R33). -/
theorem AtReset.status {s : State} (h : AtReset s) : statusWord s = 0x00060000#32 :=
  calc statusWord s
    _ = statusWord State.reset :=
      statusWord_congr h.erasureCount h.primed (congrArg Window.pitchPeriod h.win) h.lastBranch h.fault
    _ = 0x00060000#32 := by decide

/-- Each element of the cleared arrays: zero, +0.0, and no value. -/
theorem Memory.cleared_get :
    (∀ i, i < 390 → (Memory.cleared : Memory Params.standard).history[i]? = some 0#16 ∧
      (Memory.cleared : Memory Params.standard).pitchBuffer[i]? = some (fp 0)) ∧
    ∀ i, i < 30 → (Memory.cleared : Memory Params.standard).savedTail[i]? = some none := by
  have hzero : (0#_ : FP) = fp 0 := by decide
  refine ⟨fun i hi => ⟨?_, ?_⟩, fun i hi => ?_⟩
  · exact List.getElem?_replicate_of_lt hi
  · rw [← hzero]
    exact List.getElem?_replicate_of_lt hi
  · exact List.getElem?_replicate_of_lt hi

/-- The registers fix every row of the table. -/
theorem AtReset.holdsResetValues {s : State} (h : AtReset s) : holdsResetValues s := by
  obtain ⟨hframes, htail⟩ := Memory.cleared_get
  obtain ⟨hhistory, hbuffer, hsaved⟩ := (Memory.wf_iff _).1 (Memory.cleared_wf (P := Params.standard))
  rw [← h.mem] at hframes htail hhistory hbuffer hsaved
  exact ⟨hframes, hhistory, hbuffer, hsaved, htail, h.win, h.erasureCount, h.primed, h.fault, h.lastBranch, h.status,
    h.idle, fun hrst => cmdReady_iff.2 ⟨h.idle, hrst⟩⟩

/-- With nothing offered, the step after CONSTRUCT takes its response off the channel and keeps the values (R71,
R165). -/
theorem step_after_construct {s t : State} (ht : exec .construct s = .next t) (hin : t.inbox = []) :
    ∃ u, step t = .next u ∧ holdsResetValues u ∧ u.rsp.valid = false := by
  cases ht
  obtain ⟨r, k, hvalid, hstep⟩ := idleStepChangesNothing _ hin (respondSilence_phase _) (respondSilence_operand _)
  exact ⟨_, hstep, ((respondSilence_construct_atReset s).of_response r k).holdsResetValues, hvalid⟩

/-- Settles O10: both ways to reset write the same registers, and only the response of CONSTRUCT tells them apart. -/
theorem resetLeavesTheStatedValues : Obligations.ResetLeavesTheStatedValues := by
  refine ⟨(afterRst_atReset State.reset []).holdsResetValues, rfl, fun s rest hin => ?_, fun s => ?_⟩
  · exact ⟨_, step_rst hin, (afterRst_atReset s rest).holdsResetValues, rfl⟩
  · exact ⟨_, rfl, (respondSilence_construct_atReset s).holdsResetValues, step_after_construct rfl⟩

end Sys2Proof.Machine
